-- ==== Sys2Proof/Word.lean ====
section
/-! DEFINITION. The word types of the block (00_scope.md R8): unsigned bytes, 16-bit and 32-bit values, the 24-bit
address the decoder sees, and the 4-bit register index. -/

namespace Sys2Proof

/-- `u8`: one byte of data. -/
abbrev Byte := BitVec 8

/-- `u16`: the value of a word access. -/
abbrev Half := BitVec 16

/-- `u32`: an ABI address, a CPU program counter, or the value of a long access (D1). -/
abbrev Long := BitVec 32

/-- `u24`: the address `A` the decoder sees (20_memory.md R61). -/
abbrev BusAddr := BitVec 24

/-- `u4`: the register index within the VIA and IWM windows (30_encoding.md R103). -/
abbrev RegIdx := BitVec 4

end Sys2Proof
end

