-- ==== Sys2Proof/Config.lean ====
section
/-! DEFINITION. The configuration record of 00_scope.md R6, the constraints of R7, and the free values: what the
environment answers and the spec leaves open. -/

namespace Sys2Proof

/-- The four shift-register modes of 30_encoding.md R115. -/
inductive SrMode
  | out
  | inOrDisabled
  | inExt
  | other
deriving DecidableEq, Repr

/-- The parameter `SR_MODE` (R6, R115), a function from the ACR byte to a mode, as plain data: the spec's default
decode of ACR bits 4:3, or any function given by its 256 values (log 13). -/
inductive SrDecode
  | acrBits43
  | table (modes : List SrMode)
deriving DecidableEq, Repr

/-- The parameter `DEBUG_SINK` (43_debug.md R260). -/
inductive DebugSink
  | interactive
  | noop
deriving DecidableEq, Repr

/-- The parameter `VIA_IRQ_ROUTE` (R6; OPEN): how the external CPU core takes `IrqLevel`, as 60_exceptions.md R283 puts the
question: at which interrupt priority level, and whether it latches the level or polls it (log 24). -/
structure IrqRoute where
  priority : Nat
  latched : Bool
deriving DecidableEq, Repr

/-- The configuration record of 00_scope.md R6. Every field is fixed for the life of a machine; State carries the
record, so that a statement about every state is one about every configuration. -/
structure Config where
  /-- `ROM_SIZE`. -/
  romSize : Nat
  /-- `RAM_SIZE` (OPEN). -/
  ramSize : Nat
  /-- `ROM_ALIAS_BASE` (OPEN). -/
  romAliasBase : Nat
  /-- `OVERLAY_BIT`: the bit of ORA that controls the overlay. -/
  overlayBit : Nat
  /-- `VIA_ORA_INIT`. -/
  viaOraInit : Byte
  /-- `SR_MODE`. -/
  srDecode : SrDecode
  /-- `IFR_CA2`: the IFR and IER bit number of control line 2. -/
  ifrCa2 : Nat
  /-- `IFR_CA1`: the bit number of control line 1. -/
  ifrCa1 : Nat
  /-- `IFR_SR`: the bit number of the shift register. -/
  ifrSr : Nat
  /-- `IWM_SENSE_ONES_IDX` (OPEN). -/
  iwmSenseOnes : RegIdx
  /-- `IWM_SENSE_NIB_IDX` (OPEN). -/
  iwmSenseNib : RegIdx
  /-- `IWM_SENSE_NIB_VAL` (OPEN). -/
  iwmSenseNibVal : Byte
  /-- `IWM_KNOWN` (OPEN). -/
  iwmKnown : List RegIdx
  /-- `DEBUG_SINK`. -/
  debugSink : DebugSink
  /-- Whether an input provider is fitted to port A (`PORT_A_INPUT`, D15). -/
  portAFitted : Bool
  /-- Whether an input provider is fitted to port B (`PORT_B_INPUT`, D15). -/
  portBFitted : Bool
  /-- `VIA_IRQ_ROUTE` (OPEN). The CPU core is outside the block, so nothing in the block depends on it (41_via.md R217). -/
  viaIrqRoute : IrqRoute
  /-- `FB_BASE` (OPEN). -/
  fbBase : Nat
  /-- `FB_BYTES` (OPEN). -/
  fbBytes : Nat
  /-- The id by which the trap asks the CPU for its program counter (43_debug.md R261; OPEN, N29). -/
  cpuPcId : Nat
  /-- The register ids of the trap's full register dump, in its order (R261; OPEN, N29). -/
  cpuRegIds : List Nat
deriving DecidableEq, Repr

/-- `SR_MODE` is a function of every ACR byte: a table gives all 256 values. -/
def SrDecode.total : SrDecode → Bool
  | .acrBits43 => true
  | .table modes => modes.length == 256

/-- The constraints of 00_scope.md R7: (a) to (d) in its order, then what the record's own text implies: the three IFR
bits are three of bits 0 to 6 (log 15), and `SR_MODE` is defined everywhere. -/
def Config.wf (c : Config) : Bool :=
  c.iwmSenseOnes != c.iwmSenseNib
    && c.iwmSenseNibVal &&& 0x0F#8 == 0#8
    && decide (c.overlayBit ≤ 7) && c.viaOraInit.getLsbD c.overlayBit
    && decide (1 ≤ c.romSize) && decide (1 ≤ c.ramSize) && decide (c.romAliasBase + c.romSize ≤ 2 ^ 24)
    && decide (c.ifrCa2 ≤ 6) && decide (c.ifrCa1 ≤ 6) && decide (c.ifrSr ≤ 6)
    && c.ifrCa2 != c.ifrCa1 && c.ifrCa2 != c.ifrSr && c.ifrCa1 != c.ifrSr
    && c.srDecode.total

/-- A FREE VALUE: the sample of port A at a draw for which State supplies no byte (10_state.md R41, U5). The argument is
the number of the draw, so that two draws are two values (log 7). -/
opaque Config.freePortA : Nat → Byte

/-- A FREE VALUE: the same for port B. -/
opaque Config.freePortB : Nat → Byte

/-- A FREE VALUE: what the external CPU core answers to `read_register(id)` (10_state.md R42), at the query of the
given number (log 8). -/
opaque Config.cpuRegister : Nat → Nat → Long

/-- A FREE VALUE: what the external CPU core answers to `disassemble(address)` (10_state.md R42), at the query of the
given number (log 8). -/
opaque Config.cpuDisassembly : Nat → Long → String

end Sys2Proof
end

