-- ==== Sys2Proof/Syntax.lean ====
section
/-! DEFINITION. The transactions the block receives (30_encoding.md R100), one constructor for each row of
spec/opcode_table.json, and the frame a transaction is carried in. -/

namespace Sys2Proof

/-- A transaction as the machine stores it: three 32-bit words, `head` first. Bits 24:0 of `head` are the decode word of a
BYTE transaction (R101), and bits 31:25 name the format; the operands that are no part of the decode word lie in `arg0`
and `arg1`. The spec gives bits to the decode word only; the rest of this layout is the model's (DESIGN CHOICE, log 1). -/
structure Frame where
  head : BitVec 32
  arg0 : BitVec 32
  arg1 : BitVec 32
deriving DecidableEq, Repr

/-- The direction of a byte access: the decode word's bit `W` (R101). -/
inductive Dir
  | read
  | write
deriving DecidableEq, Repr

/-- The agents that issue transactions (60_exceptions.md R291). The renderer issues none. -/
inductive Agent
  | cpu
  | device
  | operator
deriving DecidableEq, Repr

/-- One constructor per row of spec/opcode_table.json. A BYTE row carries its whole address `A`: the decode word keeps
every bit of it, the ones no register selection reads included. -/
inductive Instr
  /-- `RB`: `read_byte(addr)` (40_bus.md R160). -/
  | rb (addr : Long)
  /-- `RW`: `read_word(addr)` (R161). -/
  | rw (addr : Long)
  /-- `RL`: `read_long(addr)` (R162). -/
  | rl (addr : Long)
  /-- `WB`: `write_byte(addr, v)` (R163). -/
  | wb (addr : Long) (v : Byte)
  /-- `WW`: `write_word(addr, v)` (R164). -/
  | ww (addr : Long) (v : Half)
  /-- `WL`: `write_long(addr, v)` (R165). -/
  | wl (addr : Long) (v : Long)
  /-- `IWM_RD_SENSE_ONES` (42_iwm.md R241). -/
  | iwmRdSenseOnes (a : BusAddr)
  /-- `IWM_RD_SENSE_NIB` (R241). -/
  | iwmRdSenseNib (a : BusAddr)
  /-- `IWM_RD` (R241). -/
  | iwmRd (a : BusAddr)
  /-- `IWM_WR` (R240). -/
  | iwmWr (a : BusAddr) (v : Byte)
  /-- `SCC_R_RD` (40_bus.md R150). -/
  | sccRRd (a : BusAddr)
  /-- `SCC_R_WR` (R150). -/
  | sccRWr (a : BusAddr) (v : Byte)
  /-- `SCC_W_RD` (R151). -/
  | sccWRd (a : BusAddr)
  /-- `SCC_W_WR` (R151). -/
  | sccWWr (a : BusAddr) (v : Byte)
  /-- `VIA_RD_ORB`, index 0 (41_via.md R181). -/
  | viaRdOrb (a : BusAddr)
  /-- `VIA_RD_ORA`, index 1 (41_via.md R180). -/
  | viaRdOra (a : BusAddr)
  /-- `VIA_RD_DDRB`, index 2 (41_via.md R182). -/
  | viaRdDdrb (a : BusAddr)
  /-- `VIA_RD_DDRA`, index 3 (41_via.md R182). -/
  | viaRdDdra (a : BusAddr)
  /-- `VIA_RD_T1CL`, index 4 (41_via.md R182). -/
  | viaRdT1cl (a : BusAddr)
  /-- `VIA_RD_T1CH`, index 5 (41_via.md R182). -/
  | viaRdT1ch (a : BusAddr)
  /-- `VIA_RD_T1LL`, index 6 (41_via.md R182). -/
  | viaRdT1ll (a : BusAddr)
  /-- `VIA_RD_T1LH`, index 7 (41_via.md R182). -/
  | viaRdT1lh (a : BusAddr)
  /-- `VIA_RD_T2CL`, index 8 (41_via.md R182). -/
  | viaRdT2cl (a : BusAddr)
  /-- `VIA_RD_T2CH`, index 9 (41_via.md R182). -/
  | viaRdT2ch (a : BusAddr)
  /-- `VIA_RD_SR`, index 10 (41_via.md R183). -/
  | viaRdSr (a : BusAddr)
  /-- `VIA_RD_ACR`, index 11 (41_via.md R182). -/
  | viaRdAcr (a : BusAddr)
  /-- `VIA_RD_PCR`, index 12 (41_via.md R182). -/
  | viaRdPcr (a : BusAddr)
  /-- `VIA_RD_IFR`, index 13 (41_via.md R184). -/
  | viaRdIfr (a : BusAddr)
  /-- `VIA_RD_IER`, index 14 (41_via.md R185). -/
  | viaRdIer (a : BusAddr)
  /-- `VIA_RD_ORA_ALIAS`, index 15 (41_via.md R180). -/
  | viaRdOraAlias (a : BusAddr)
  /-- `VIA_WR_ORB`, index 0 (41_via.md R191). -/
  | viaWrOrb (a : BusAddr) (v : Byte)
  /-- `VIA_WR_ORA`, index 1 (41_via.md R190). -/
  | viaWrOra (a : BusAddr) (v : Byte)
  /-- `VIA_WR_DDRB`, index 2 (41_via.md R192). -/
  | viaWrDdrb (a : BusAddr) (v : Byte)
  /-- `VIA_WR_DDRA`, index 3 (41_via.md R192). -/
  | viaWrDdra (a : BusAddr) (v : Byte)
  /-- `VIA_WR_T1CL`, index 4 (41_via.md R192). -/
  | viaWrT1cl (a : BusAddr) (v : Byte)
  /-- `VIA_WR_T1CH`, index 5 (41_via.md R192). -/
  | viaWrT1ch (a : BusAddr) (v : Byte)
  /-- `VIA_WR_T1LL`, index 6 (41_via.md R192). -/
  | viaWrT1ll (a : BusAddr) (v : Byte)
  /-- `VIA_WR_T1LH`, index 7 (41_via.md R192). -/
  | viaWrT1lh (a : BusAddr) (v : Byte)
  /-- `VIA_WR_T2CL`, index 8 (41_via.md R192). -/
  | viaWrT2cl (a : BusAddr) (v : Byte)
  /-- `VIA_WR_T2CH`, index 9 (41_via.md R192). -/
  | viaWrT2ch (a : BusAddr) (v : Byte)
  /-- `VIA_WR_SR`, index 10 (41_via.md R198). -/
  | viaWrSr (a : BusAddr) (v : Byte)
  /-- `VIA_WR_ACR`, index 11 (41_via.md R192). -/
  | viaWrAcr (a : BusAddr) (v : Byte)
  /-- `VIA_WR_PCR`, index 12 (41_via.md R192). -/
  | viaWrPcr (a : BusAddr) (v : Byte)
  /-- `VIA_WR_IFR`, index 13 (41_via.md R196). -/
  | viaWrIfr (a : BusAddr) (v : Byte)
  /-- `VIA_WR_IER`, index 14 (41_via.md R197). -/
  | viaWrIer (a : BusAddr) (v : Byte)
  /-- `VIA_WR_ORA_ALIAS`, index 15 (41_via.md R190). -/
  | viaWrOraAlias (a : BusAddr) (v : Byte)
  /-- `ROM_OVL_RD` (40_bus.md R145). -/
  | romOvlRd (a : BusAddr)
  /-- `ROM_OVL_WR` (R149). -/
  | romOvlWr (a : BusAddr) (v : Byte)
  /-- `ROM_ALIAS_RD` (R146). -/
  | romAliasRd (a : BusAddr)
  /-- `ROM_ALIAS_WR` (R149). -/
  | romAliasWr (a : BusAddr) (v : Byte)
  /-- `RAM_RD` (R148). -/
  | ramRd (a : BusAddr)
  /-- `RAM_WR` (R147). -/
  | ramWr (a : BusAddr) (v : Byte)
  /-- `UNMAPPED_RD` (R153). -/
  | unmappedRd (a : BusAddr)
  /-- `UNMAPPED_WR` (R154). -/
  | unmappedWr (a : BusAddr) (v : Byte)
  /-- `HOOK`: `instruction_hook(pc)` (43_debug.md R264). -/
  | hook (pc : Long)
  /-- `VIA_EDGE1`: `notify_edge(1)` (41_via.md R211). -/
  | viaEdge1
  /-- `VIA_EDGE2`: `notify_edge(2)` (R212). -/
  | viaEdge2
  /-- `VIA_RXSR`: `receive_shift_byte(b)` (R214). -/
  | viaRxsr (b : Byte)
  /-- `ANSWER_STEP`: the operator's line is the single-step command (43_debug.md R262). -/
  | answerStep
  /-- `ANSWER_OTHER`: the operator's line is any other input (R262). -/
  | answerOther
deriving DecidableEq, Repr

end Sys2Proof
end

