-- ==== Sys2Proof/WellFormed.lean ====
section
/-! DEFINITION. When a term of Instr is a transaction the decoder can select: each BYTE row's conditions, as
spec/opcode_table.json gives them (range or mask and match, index, condition, priority). They are written from the table
and not through the decoder of Decode.lean, so that "decode of encode is the identity" compares two readings of the spec. -/

namespace Sys2Proof

/-- Rows IWM_*: `0xDFE1FF <= A <= 0xE001FE`. -/
def BusAddr.iwmRow (a : BusAddr) : Bool := decide (0xDFE1FF ≤ a.toNat) && decide (a.toNat ≤ 0xE001FE)

/-- Rows SCC_R_*: mask 0x0F00000, match 0x0900000. -/
def BusAddr.sccRRow (a : BusAddr) : Bool := a &&& 0xF00000#24 == 0x900000#24

/-- Rows SCC_W_*: mask 0x0F00000, match 0x0B00000. -/
def BusAddr.sccWRow (a : BusAddr) : Bool := a &&& 0xF00000#24 == 0xB00000#24

/-- Row VIA_* of index `k`: mask 0x0E81E00, match `0x0E80000 | k << 9`. -/
def BusAddr.viaRow (a : BusAddr) (k : RegIdx) : Bool :=
  a &&& 0xE81E00#24 == 0xE80000#24 ||| (k.setWidth 24 <<< 9)

/-- No row of priority 1 to 4 matches: `A` lies in none of the four fixed windows. -/
def BusAddr.noWindow (a : BusAddr) : Bool :=
  !a.iwmRow && !a.sccRRow && !a.sccWRow && !(a &&& 0xE80000#24 == 0xE80000#24)

/-- Rows ROM_OVL_*: `rom_overlay_active`, `A < ROM_SIZE`, priority 5. -/
def BusAddr.romOvlRow (cfg : Config) (overlay : Bool) (a : BusAddr) : Bool :=
  overlay && decide (a.toNat < cfg.romSize) && a.noWindow

/-- Rows ROM_ALIAS_*: `ROM_ALIAS_BASE <= A < ROM_ALIAS_BASE + ROM_SIZE`, priority 6. -/
def BusAddr.romAliasRow (cfg : Config) (overlay : Bool) (a : BusAddr) : Bool :=
  decide (cfg.romAliasBase ≤ a.toNat) && decide (a.toNat < cfg.romAliasBase + cfg.romSize) && a.noWindow
    && !a.romOvlRow cfg overlay

/-- Rows RAM_*: `A < RAM_SIZE`, priority 7. -/
def BusAddr.ramRow (cfg : Config) (overlay : Bool) (a : BusAddr) : Bool :=
  decide (a.toNat < cfg.ramSize) && a.noWindow && !a.romOvlRow cfg overlay && !a.romAliasRow cfg overlay

/-- Rows UNMAPPED_*: no earlier row matches, priority 8. -/
def BusAddr.unmappedRow (cfg : Config) (overlay : Bool) (a : BusAddr) : Bool :=
  a.noWindow && !a.romOvlRow cfg overlay && !a.romAliasRow cfg overlay && !a.ramRow cfg overlay

/-- The index field `A[12:9]` the IWM rows' conditions read. -/
def BusAddr.iwmRowIdx (a : BusAddr) : RegIdx := (a >>> 9).setWidth 4

/-- A term is well-formed under a configuration and a value of `rom_overlay_active` when its row's conditions hold.
The rows with no decode word have operands of exact widths and no condition (30_encoding.md R100). -/
def Instr.wf (cfg : Config) (overlay : Bool) : Instr → Bool
  | .rb _ => true
  | .rw _ => true
  | .rl _ => true
  | .wb _ _ => true
  | .ww _ _ => true
  | .wl _ _ => true
  | .iwmRdSenseOnes a => a.iwmRow && a.iwmRowIdx == cfg.iwmSenseOnes
  | .iwmRdSenseNib a => a.iwmRow && a.iwmRowIdx == cfg.iwmSenseNib && a.iwmRowIdx != cfg.iwmSenseOnes
  | .iwmRd a => a.iwmRow && a.iwmRowIdx != cfg.iwmSenseOnes && a.iwmRowIdx != cfg.iwmSenseNib
  | .iwmWr a _ => a.iwmRow
  | .sccRRd a => a.sccRRow
  | .sccRWr a _ => a.sccRRow
  | .sccWRd a => a.sccWRow
  | .sccWWr a _ => a.sccWRow
  | .viaRdOrb a => a.viaRow 0
  | .viaRdOra a => a.viaRow 1
  | .viaRdDdrb a => a.viaRow 2
  | .viaRdDdra a => a.viaRow 3
  | .viaRdT1cl a => a.viaRow 4
  | .viaRdT1ch a => a.viaRow 5
  | .viaRdT1ll a => a.viaRow 6
  | .viaRdT1lh a => a.viaRow 7
  | .viaRdT2cl a => a.viaRow 8
  | .viaRdT2ch a => a.viaRow 9
  | .viaRdSr a => a.viaRow 10
  | .viaRdAcr a => a.viaRow 11
  | .viaRdPcr a => a.viaRow 12
  | .viaRdIfr a => a.viaRow 13
  | .viaRdIer a => a.viaRow 14
  | .viaRdOraAlias a => a.viaRow 15
  | .viaWrOrb a _ => a.viaRow 0
  | .viaWrOra a _ => a.viaRow 1
  | .viaWrDdrb a _ => a.viaRow 2
  | .viaWrDdra a _ => a.viaRow 3
  | .viaWrT1cl a _ => a.viaRow 4
  | .viaWrT1ch a _ => a.viaRow 5
  | .viaWrT1ll a _ => a.viaRow 6
  | .viaWrT1lh a _ => a.viaRow 7
  | .viaWrT2cl a _ => a.viaRow 8
  | .viaWrT2ch a _ => a.viaRow 9
  | .viaWrSr a _ => a.viaRow 10
  | .viaWrAcr a _ => a.viaRow 11
  | .viaWrPcr a _ => a.viaRow 12
  | .viaWrIfr a _ => a.viaRow 13
  | .viaWrIer a _ => a.viaRow 14
  | .viaWrOraAlias a _ => a.viaRow 15
  | .romOvlRd a => a.romOvlRow cfg overlay
  | .romOvlWr a _ => a.romOvlRow cfg overlay
  | .romAliasRd a => a.romAliasRow cfg overlay
  | .romAliasWr a _ => a.romAliasRow cfg overlay
  | .ramRd a => a.ramRow cfg overlay
  | .ramWr a _ => a.ramRow cfg overlay
  | .unmappedRd a => a.unmappedRow cfg overlay
  | .unmappedWr a _ => a.unmappedRow cfg overlay
  | .hook _ => true
  | .viaEdge1 => true
  | .viaEdge2 => true
  | .viaRxsr _ => true
  | .answerStep => true
  | .answerOther => true

end Sys2Proof
end

