-- ==== Sys2Proof/Decode.lean ====
section
/-! DEFINITION. The decoder (30_encoding.md R100 to R121) and, after it, the encoder. Decoding is total on frames: every
BYTE frame selects exactly one row (R108), and a frame that is no transaction is rejected by name. -/

namespace Sys2Proof

/-- The configuration of 00_scope.md R6: its defaults, and its test column where that column gives a value. The values of
the other OPEN fields are the model's (DESIGN CHOICE, log 3), the register ids the CPU family's (PRESUMED, log 18). -/
def Config.standard : Config where
  romSize := 0x10000
  ramSize := 0x20000
  romAliasBase := 0x400000
  overlayBit := 4
  viaOraInit := 0x10#8
  srDecode := .acrBits43
  ifrCa2 := 0
  ifrCa1 := 1
  ifrSr := 2
  iwmSenseOnes := 8#4
  iwmSenseNib := 14#4
  iwmSenseNibVal := 0xF0#8
  iwmKnown := []
  debugSink := .interactive
  portAFitted := true
  portBFitted := true
  viaIrqRoute := { priority := 0, latched := false }
  fbBase := 0
  fbBytes := 0x20000
  cpuPcId := 16
  cpuRegIds := [0, 1, 2, 3, 4, 5, 6, 7, 8, 9, 10, 11, 12, 13, 14, 15, 16, 17]

/-! ### The region decoder -/

/-- What a byte access is routed to: the eight regions of 20_memory.md R63, with the index or offset each handler gets. -/
inductive Region
  | iwm (i : RegIdx)
  | sccR
  | sccW
  | via (i : RegIdx)
  | romOvl (off : Nat)
  | romAlias (off : Nat)
  | ram (off : Nat)
  | unmapped
deriving DecidableEq, Repr

/-- `IDX(A) = A[12:9]` (30_encoding.md R103). -/
def regIndex (a : BusAddr) : RegIdx := a.extractLsb' 9 4

/-- The address the decoder sees: `A = addr[23:0]` (20_memory.md R61). -/
def busAddr (addr : Long) : BusAddr := addr.setWidth 24

/-- `decode(W, A)` of 30_encoding.md R121: the first region, in the fixed order, whose test holds. `W` does not enter. -/
def decodeRegion (cfg : Config) (overlay : Bool) (a : BusAddr) : Region :=
  if 0xDFE1FF ≤ a.toNat ∧ a.toNat < 0xDFE1FF + 0x2000 then .iwm (regIndex a)
  else if a &&& 0xF00000#24 = 0x900000#24 then .sccR
  else if a &&& 0xF00000#24 = 0xB00000#24 then .sccW
  else if a &&& 0xE80000#24 = 0xE80000#24 then .via (regIndex a)
  else if overlay = true ∧ a.toNat < cfg.romSize then .romOvl a.toNat
  else if cfg.romAliasBase ≤ a.toNat ∧ a.toNat < cfg.romAliasBase + cfg.romSize then .romAlias (a.toNat - cfg.romAliasBase)
  else if a.toNat < cfg.ramSize then .ram a.toNat
  else .unmapped

/-! ### The rows of the opcode table -/

/-- The VIA read row of index `i` (10_state.md R35). -/
def viaReadRow (i : RegIdx) (a : BusAddr) : Instr :=
  match i.toNat with
  | 0 => .viaRdOrb a
  | 1 => .viaRdOra a
  | 2 => .viaRdDdrb a
  | 3 => .viaRdDdra a
  | 4 => .viaRdT1cl a
  | 5 => .viaRdT1ch a
  | 6 => .viaRdT1ll a
  | 7 => .viaRdT1lh a
  | 8 => .viaRdT2cl a
  | 9 => .viaRdT2ch a
  | 10 => .viaRdSr a
  | 11 => .viaRdAcr a
  | 12 => .viaRdPcr a
  | 13 => .viaRdIfr a
  | 14 => .viaRdIer a
  | _ => .viaRdOraAlias a

/-- The VIA write row of index `i` (10_state.md R35). -/
def viaWriteRow (i : RegIdx) (a : BusAddr) (v : Byte) : Instr :=
  match i.toNat with
  | 0 => .viaWrOrb a v
  | 1 => .viaWrOra a v
  | 2 => .viaWrDdrb a v
  | 3 => .viaWrDdra a v
  | 4 => .viaWrT1cl a v
  | 5 => .viaWrT1ch a v
  | 6 => .viaWrT1ll a v
  | 7 => .viaWrT1lh a v
  | 8 => .viaWrT2cl a v
  | 9 => .viaWrT2ch a v
  | 10 => .viaWrSr a v
  | 11 => .viaWrAcr a v
  | 12 => .viaWrPcr a v
  | 13 => .viaWrIfr a v
  | 14 => .viaWrIer a v
  | _ => .viaWrOraAlias a v

/-- The row a byte read of `A` selects. Every address selects exactly one (R108). -/
def readRow (cfg : Config) (overlay : Bool) (a : BusAddr) : Instr :=
  match decodeRegion cfg overlay a with
  | .iwm i => if i = cfg.iwmSenseOnes then .iwmRdSenseOnes a else if i = cfg.iwmSenseNib then .iwmRdSenseNib a else .iwmRd a
  | .sccR => .sccRRd a
  | .sccW => .sccWRd a
  | .via i => viaReadRow i a
  | .romOvl _ => .romOvlRd a
  | .romAlias _ => .romAliasRd a
  | .ram _ => .ramRd a
  | .unmapped => .unmappedRd a

/-- The row a byte write of `v` to `A` selects. -/
def writeRow (cfg : Config) (overlay : Bool) (a : BusAddr) (v : Byte) : Instr :=
  match decodeRegion cfg overlay a with
  | .iwm _ => .iwmWr a v
  | .sccR => .sccRWr a v
  | .sccW => .sccWWr a v
  | .via i => viaWriteRow i a v
  | .romOvl _ => .romOvlWr a v
  | .romAlias _ => .romAliasWr a v
  | .ram _ => .ramWr a v
  | .unmapped => .unmappedWr a v

/-! ### The frame decoder -/

/-- Why a frame is no transaction. -/
inductive DecodeError
  /-- Bits 31:25 of the head name no format of R100. -/
  | unknownFormat (tag : BitVec 7)
  /-- A MEM frame whose op is none of RB, RW, RL, WB, WW, WL. -/
  | unknownMemOp (op : BitVec 25)
  /-- `notify_edge` with a channel other than 1 or 2: refused as ill-formed input (41_via.md R212, D18, U10). -/
  | edgeChannel (channel : Long)
  /-- An ANSWER frame whose response is neither STEP nor OTHER (R119). -/
  | answerCode (code : Long)
  /-- A bit is set that the format gives to no field. -/
  | strayBits
deriving DecidableEq, Repr

/-- Bits 31:25 of the head: the format. -/
def Frame.tag (f : Frame) : BitVec 7 := f.head.extractLsb' 25 7

/-- Bits 24:0 of the head: the decode word of a BYTE frame (R101), the op of a MEM frame. -/
def Frame.low (f : Frame) : BitVec 25 := f.head.extractLsb' 0 25

/-- A BYTE frame: `W` is bit 24 of the decode word and `A` its bits 23:0 (R101); `v` of a write is the low byte of
`arg0`, for `v` is no part of the decode word. -/
def decodeByte (cfg : Config) (overlay : Bool) (f : Frame) : Except DecodeError Instr :=
  let a : BusAddr := f.low.extractLsb' 0 24
  if f.low.getLsbD 24 then
    let v : Byte := f.arg0.setWidth 8
    if f.arg0 = v.setWidth 32 ∧ f.arg1 = 0 then .ok (writeRow cfg overlay a v) else .error .strayBits
  else if f.arg0 = 0 ∧ f.arg1 = 0 then .ok (readRow cfg overlay a) else .error .strayBits

/-- A MEM frame: the address in `arg0`, the data of a write in the low bits of `arg1` (R100). -/
def decodeMem (f : Frame) : Except DecodeError Instr :=
  let v8 : Byte := f.arg1.setWidth 8
  let v16 : Half := f.arg1.setWidth 16
  match f.low.toNat with
  | 0 => if f.arg1 = 0 then .ok (.rb f.arg0) else .error .strayBits
  | 1 => if f.arg1 = 0 then .ok (.rw f.arg0) else .error .strayBits
  | 2 => if f.arg1 = 0 then .ok (.rl f.arg0) else .error .strayBits
  | 3 => if f.arg1 = v8.setWidth 32 then .ok (.wb f.arg0 v8) else .error .strayBits
  | 4 => if f.arg1 = v16.setWidth 32 then .ok (.ww f.arg0 v16) else .error .strayBits
  | 5 => .ok (.wl f.arg0 f.arg1)
  | _ => .error (.unknownMemOp f.low)

/-- An EDGE frame: the channel in `arg0`, 1 or 2 (R100, D18). -/
def decodeEdge (f : Frame) : Except DecodeError Instr :=
  match f.arg0.toNat with
  | 1 => .ok .viaEdge1
  | 2 => .ok .viaEdge2
  | _ => .error (.edgeChannel f.arg0)

/-- An RXSR frame: the byte in the low bits of `arg0` (R100). -/
def decodeRxsr (f : Frame) : Except DecodeError Instr :=
  let b : Byte := f.arg0.setWidth 8
  if f.arg0 = b.setWidth 32 then .ok (.viaRxsr b) else .error .strayBits

/-- An ANSWER frame: STEP is 0 in `arg0`, OTHER is 1 (R100, R119). -/
def decodeAnswer (f : Frame) : Except DecodeError Instr :=
  match f.arg0.toNat with
  | 0 => .ok .answerStep
  | 1 => .ok .answerOther
  | _ => .error (.answerCode f.arg0)

/-- Run `k` on a frame whose only operand is `arg0`. -/
def whenOnlyArg0 (f : Frame) (k : Frame → Except DecodeError Instr) : Except DecodeError Instr :=
  if f.low = 0 ∧ f.arg1 = 0 then k f else .error .strayBits

/-- The decoder: total on frames. The formats are those of 30_encoding.md R100, numbered in its order, BYTE first
(DESIGN CHOICE, log 1). -/
def decode (cfg : Config) (overlay : Bool) (f : Frame) : Except DecodeError Instr :=
  match f.tag.toNat with
  | 0 => decodeByte cfg overlay f
  | 1 => decodeMem f
  | 2 => whenOnlyArg0 f fun f => .ok (.hook f.arg0)
  | 3 => whenOnlyArg0 f decodeEdge
  | 4 => whenOnlyArg0 f decodeRxsr
  | 5 => whenOnlyArg0 f decodeAnswer
  | _ => .error (.unknownFormat f.tag)

/-- The frame whose bits, counted from the least significant bit of the head, are `w`, cut to `nbits` bits. -/
def frameOfNat (nbits w : Nat) : Frame :=
  let w := w % 2 ^ nbits
  { head := BitVec.ofNat 32 w, arg0 := BitVec.ofNat 32 (w / 2 ^ 32), arg1 := BitVec.ofNat 32 (w / 2 ^ 64) }

/-- The instruction the decoder reads from a word numbered as spec/opcode_table.json numbers it: the decode word of R101,
under the standard configuration and with the overlay active, as after reset (log 16). -/
def decodeTableWord (nbits w : Nat) : Option Instr :=
  match decode Config.standard true (frameOfNat nbits w) with
  | .ok i => some i
  | .error _ => none

/-! ### The agent of a transaction -/

/-- Who issues a transaction (60_exceptions.md R291): the emulation thread, the device agent or the operator. -/
def Instr.agent : Instr → Agent
  | .rb _ => .cpu
  | .rw _ => .cpu
  | .rl _ => .cpu
  | .wb _ _ => .cpu
  | .ww _ _ => .cpu
  | .wl _ _ => .cpu
  | .iwmRdSenseOnes _ => .cpu
  | .iwmRdSenseNib _ => .cpu
  | .iwmRd _ => .cpu
  | .iwmWr _ _ => .cpu
  | .sccRRd _ => .cpu
  | .sccRWr _ _ => .cpu
  | .sccWRd _ => .cpu
  | .sccWWr _ _ => .cpu
  | .viaRdOrb _ => .cpu
  | .viaRdOra _ => .cpu
  | .viaRdDdrb _ => .cpu
  | .viaRdDdra _ => .cpu
  | .viaRdT1cl _ => .cpu
  | .viaRdT1ch _ => .cpu
  | .viaRdT1ll _ => .cpu
  | .viaRdT1lh _ => .cpu
  | .viaRdT2cl _ => .cpu
  | .viaRdT2ch _ => .cpu
  | .viaRdSr _ => .cpu
  | .viaRdAcr _ => .cpu
  | .viaRdPcr _ => .cpu
  | .viaRdIfr _ => .cpu
  | .viaRdIer _ => .cpu
  | .viaRdOraAlias _ => .cpu
  | .viaWrOrb _ _ => .cpu
  | .viaWrOra _ _ => .cpu
  | .viaWrDdrb _ _ => .cpu
  | .viaWrDdra _ _ => .cpu
  | .viaWrT1cl _ _ => .cpu
  | .viaWrT1ch _ _ => .cpu
  | .viaWrT1ll _ _ => .cpu
  | .viaWrT1lh _ _ => .cpu
  | .viaWrT2cl _ _ => .cpu
  | .viaWrT2ch _ _ => .cpu
  | .viaWrSr _ _ => .cpu
  | .viaWrAcr _ _ => .cpu
  | .viaWrPcr _ _ => .cpu
  | .viaWrIfr _ _ => .cpu
  | .viaWrIer _ _ => .cpu
  | .viaWrOraAlias _ _ => .cpu
  | .romOvlRd _ => .cpu
  | .romOvlWr _ _ => .cpu
  | .romAliasRd _ => .cpu
  | .romAliasWr _ _ => .cpu
  | .ramRd _ => .cpu
  | .ramWr _ _ => .cpu
  | .unmappedRd _ => .cpu
  | .unmappedWr _ _ => .cpu
  | .hook _ => .cpu
  | .viaEdge1 => .device
  | .viaEdge2 => .device
  | .viaRxsr _ => .device
  | .answerStep => .operator
  | .answerOther => .operator

/-! ### The encoder -/

/-- The decode word `(W << 24) | A` (30_encoding.md R101). -/
def decodeWord (d : Dir) (a : BusAddr) : BitVec 25 :=
  match d with
  | .read => 0#1 ++ a
  | .write => 1#1 ++ a

/-- The frame of a BYTE read. -/
def encodeRead (a : BusAddr) : Frame := { head := 0#7 ++ decodeWord .read a, arg0 := 0, arg1 := 0 }

/-- The frame of a BYTE write. -/
def encodeWrite (a : BusAddr) (v : Byte) : Frame := { head := 0#7 ++ decodeWord .write a, arg0 := v.setWidth 32, arg1 := 0 }

/-- The frame of a MEM call with op number `op`. -/
def encodeMem (op : BitVec 25) (addr data : Long) : Frame := { head := 1#7 ++ op, arg0 := addr, arg1 := data }

/-- The frame of a transaction whose only operand is `x`. -/
def encodeArg0 (tag : BitVec 7) (x : Long) : Frame := { head := tag ++ 0#25, arg0 := x, arg1 := 0 }

/-- The encoder. -/
def encode : Instr → Frame
  | .rb addr => encodeMem 0 addr 0
  | .rw addr => encodeMem 1 addr 0
  | .rl addr => encodeMem 2 addr 0
  | .wb addr v => encodeMem 3 addr (v.setWidth 32)
  | .ww addr v => encodeMem 4 addr (v.setWidth 32)
  | .wl addr v => encodeMem 5 addr v
  | .iwmRdSenseOnes a => encodeRead a
  | .iwmRdSenseNib a => encodeRead a
  | .iwmRd a => encodeRead a
  | .iwmWr a v => encodeWrite a v
  | .sccRRd a => encodeRead a
  | .sccRWr a v => encodeWrite a v
  | .sccWRd a => encodeRead a
  | .sccWWr a v => encodeWrite a v
  | .viaRdOrb a => encodeRead a
  | .viaRdOra a => encodeRead a
  | .viaRdDdrb a => encodeRead a
  | .viaRdDdra a => encodeRead a
  | .viaRdT1cl a => encodeRead a
  | .viaRdT1ch a => encodeRead a
  | .viaRdT1ll a => encodeRead a
  | .viaRdT1lh a => encodeRead a
  | .viaRdT2cl a => encodeRead a
  | .viaRdT2ch a => encodeRead a
  | .viaRdSr a => encodeRead a
  | .viaRdAcr a => encodeRead a
  | .viaRdPcr a => encodeRead a
  | .viaRdIfr a => encodeRead a
  | .viaRdIer a => encodeRead a
  | .viaRdOraAlias a => encodeRead a
  | .viaWrOrb a v => encodeWrite a v
  | .viaWrOra a v => encodeWrite a v
  | .viaWrDdrb a v => encodeWrite a v
  | .viaWrDdra a v => encodeWrite a v
  | .viaWrT1cl a v => encodeWrite a v
  | .viaWrT1ch a v => encodeWrite a v
  | .viaWrT1ll a v => encodeWrite a v
  | .viaWrT1lh a v => encodeWrite a v
  | .viaWrT2cl a v => encodeWrite a v
  | .viaWrT2ch a v => encodeWrite a v
  | .viaWrSr a v => encodeWrite a v
  | .viaWrAcr a v => encodeWrite a v
  | .viaWrPcr a v => encodeWrite a v
  | .viaWrIfr a v => encodeWrite a v
  | .viaWrIer a v => encodeWrite a v
  | .viaWrOraAlias a v => encodeWrite a v
  | .romOvlRd a => encodeRead a
  | .romOvlWr a v => encodeWrite a v
  | .romAliasRd a => encodeRead a
  | .romAliasWr a v => encodeWrite a v
  | .ramRd a => encodeRead a
  | .ramWr a v => encodeWrite a v
  | .unmappedRd a => encodeRead a
  | .unmappedWr a v => encodeWrite a v
  | .hook pc => encodeArg0 2 pc
  | .viaEdge1 => encodeArg0 3 1
  | .viaEdge2 => encodeArg0 3 2
  | .viaRxsr b => encodeArg0 4 (b.setWidth 32)
  | .answerStep => encodeArg0 5 0
  | .answerOther => encodeArg0 5 1

end Sys2Proof
end

