-- ==== Sys2Proof/Machine/State.lean ====
section
/-! DEFINITION. The state of the block: everything 10_state.md names, what its environment has supplied and not yet been
asked for, and what the block has put out. INVENTORY.md lists every field with its rule and its reset value. -/

namespace Sys2Proof.Machine

/-- A byte array held as (offset, byte) pairs: offsets strictly rising, no byte 0x00, and every unlisted offset reads 0x00
(RAM: 10_state.md R23; ROM: log 4). `Memory.wf` in Ops.lean says so. -/
abbrev Memory := List Host.Cell

/-- The diagnostic kinds of 10_state.md R43. -/
inductive DiagKind
  | unmappedRead
  | unmappedWrite
  | sccAccess
  | romWrite
  | srOverrun
  | srRxIgnored
  | iwmUnhandled
deriving DecidableEq, Repr

/-- The trap labels of 30_encoding.md R118. -/
inductive TrapLabel
  | sccRead
  | sccWrite
  | romWrite
  | singleStep
deriving DecidableEq, Repr

/-- What a trap shows the operator (10_state.md R44, 43_debug.md R261). -/
structure Display where
  label : TrapLabel
  addr : Long
  pc : Long
  text : String
  regs : List (Nat × Long)
deriving DecidableEq, Repr

/-- What the block puts out, in the order it does so: the VIA's output events (10_state.md R40), the diagnostics (R43),
the operator displays (R44) and the bytes the renderer read (R45). -/
inductive Event
  | portAChanged (v : Byte)
  | portBChanged (v : Byte)
  | shiftTx (b : Byte)
  | irqLevel (level : Bool)
  | diag (kind : DiagKind) (a : BusAddr)
  | trap (display : Display)
  | rendered (index : Nat) (v : Byte)
deriving DecidableEq, Repr

/-- What a call returned: to the CPU (10_state.md R42, 30_encoding.md R102), or from `Trap` (43_debug.md R262). -/
inductive Reply
  | u8 (v : Byte)
  | u16 (v : Half)
  | u32 (v : Long)
  | done
  | trapReturned (continued : Bool)
deriving DecidableEq, Repr

/-- The widths of an ABI access (20_memory.md R71). -/
inductive Width
  | byte
  | word
  | long
deriving DecidableEq, Repr

/-- What the emulation thread still has to do when the trap it is stopped in returns: the call that raised the trap goes
on where it stopped (60_exceptions.md R288). -/
inductive Resume
  /-- `instruction_hook` returns. -/
  | hook
  /-- The byte read that trapped answers its sentinel; `acc` holds the bytes before it, `rest` the addresses after it. -/
  | read (width : Width) (acc : Long) (rest : List Long)
  /-- The byte write that trapped is dropped; `rest` holds the addresses and bytes after it. -/
  | write (rest : List (Long × Byte))
deriving DecidableEq, Repr

/-- `trap_wait = Some(label, address)` (10_state.md R34), with the call that waits. -/
structure TrapWait where
  label : TrapLabel
  addr : Long
  resume : Resume
deriving DecidableEq, Repr

/-- The operator's answer (30_encoding.md R119). -/
inductive Answer
  | step
  | other
deriving DecidableEq, Repr

/-- The two control lines of the VIA (41_via.md R211, R212). -/
inductive EdgeLine
  | one
  | two
deriving DecidableEq, Repr

/-- What another agent may do between two byte accesses of one call (20_memory.md R81, U15): a device event, or a renderer
read of the framebuffer byte of an index. -/
inductive AgentEvent
  | edge (line : EdgeLine)
  | rxsr (b : Byte)
  | render (index : Nat)
deriving DecidableEq, Repr

/-- What comes to the block next: a transaction of the CPU, the device agent or the operator, or a renderer read of the
framebuffer byte of an index, which is no transaction (60_exceptions.md R291). -/
inductive Arrival
  | transaction (f : Frame)
  | render (index : Nat)
deriving DecidableEq, Repr

/-- How the external consumers of the VIA's output events behave (41_via.md R216): none starts a VIA operation; or the
one of the event after the next `n` does; or one has. -/
inductive Consumers
  | quiet
  | reenterAfter (n : Nat)
  | reentered
deriving DecidableEq, Repr

/-- The input side of a port (10_state.md R41): the bytes its provider will answer with, and how many draws found none. -/
structure PortInput where
  supply : List Byte
  draws : Nat
deriving DecidableEq, Repr

/-- The VIA (10_state.md §3). -/
structure Via where
  /-- `regs : u8[16]` (R25). Cells 13 to 15 are never read or written. -/
  regs : Vector Byte 16
  /-- `irq_enable` (R26). -/
  irqEnable : Byte
  /-- `irq_active` (R27). -/
  irqActive : Byte
  /-- `irq_status` (R28). -/
  irqStatus : Bool
  /-- `shift_pending` (R29). -/
  shiftPending : Option Byte
deriving DecidableEq, Repr

/-- The state of the block and of its environment. -/
structure State where
  /-- The configuration, fixed for the life of the machine (00_scope.md R6). -/
  cfg : Config
  /-- `rom` (10_state.md R22). -/
  rom : Memory
  /-- `ram` (R23). -/
  ram : Memory
  /-- `rom_overlay_active` (R24). -/
  overlay : Bool
  /-- The VIA (R25 to R31). -/
  via : Via
  /-- `iwm : u8[16]` (R32). -/
  iwm : Vector Byte 16
  /-- `single_step_armed` (R33). -/
  singleStepArmed : Bool
  /-- `trap_wait` (R34). -/
  trapWait : Option TrapWait
  /-- The output events so far, oldest first (R40, R43, R44). -/
  trace : List Event
  /-- What the calls so far returned, oldest first (log 12). -/
  replies : List Reply
  /-- The transactions and renderer reads still to come, in the order the agents make them (log 2). -/
  queue : List Arrival
  /-- For each coming boundary between two byte accesses of one call, the agents' events there (log 9). -/
  agenda : List (List AgentEvent)
  /-- `PortAIn()` (R41, log 7). -/
  portA : PortInput
  /-- `PortBIn()` (R41, log 7). -/
  portB : PortInput
  /-- How many CPU-state queries were made (R42, log 8). -/
  queries : Nat
  /-- The external consumers' behaviour (41_via.md R216, log 10). -/
  consumers : Consumers
deriving DecidableEq, Repr

/-- The faults of the model. -/
inductive Fault
  /-- `REENTRANT_VIA` (41_via.md R216, U9): an external consumer of a VIA output event started a VIA operation while the
  operation that emitted the event was running. Raised by any transaction in which such an event is emitted. Safe: the
  spec gives the machine no further behaviour. -/
  | reentrantVia
deriving DecidableEq, Repr

/-- The refusals of the model. -/
inductive Refusal
  /-- Raised by an arm of `exec` that has no meaning yet. Safe. -/
  | notModelled (mnemonic : String)
  /-- Raised by `step`: the next frame is no transaction (U10 and log 1). Safe. -/
  | illFormed (e : DecodeError)
  /-- Raised by ANSWER_STEP and ANSWER_OTHER when no trap waits (U20): such an answer is no transaction. Safe. -/
  | noTrapWaiting
deriving DecidableEq, Repr

/-- The machine after bring-up (10_state.md R46), of the standard configuration and the all-zero ROM image (logs 3 and 4).
`bringUp` in BringUp.lean builds the same for every configuration and image. DESIGN CHOICE, the fields that are the model's own:
no call has returned (log 12); nothing stands in the queue (log 2); the agenda is empty, so that no other agent acts between two
bytes of a call, where U15 leaves the interleaving open (log 9); no port byte is supplied and none is drawn (log 7); no query is
made (log 8); no consumer re-enters (log 10). -/
def State.reset : State where
  cfg := Config.standard
  rom := []
  ram := []
  overlay := true
  via := {
    regs := #v[0, 0x10, 0, 0, 0, 0, 0, 0, 0, 0, 0, 0, 0, 0, 0, 0]
    irqEnable := 0
    irqActive := 0
    irqStatus := false
    shiftPending := none }
  iwm := #v[0, 0, 0, 0, 0, 0, 0, 0, 0, 0, 0, 0, 0, 0, 0, 0]
  singleStepArmed := false
  trapWait := none
  trace := []
  replies := []
  queue := []
  agenda := []
  portA := { supply := [], draws := 0 }
  portB := { supply := [], draws := 0 }
  queries := 0
  consumers := .quiet

end Sys2Proof.Machine
end

