-- ==== Sys2Proof/Machine/Operands.lean ====
section
/-! DEFINITION. The operand forms: the byte addresses and byte data an access decomposes into (30_encoding.md R102), how
the bytes read are put together (40_bus.md R140), the VIA register numbers, the composition of a port read, and the
shift-register mode. -/

namespace Sys2Proof.Machine

/-! ### Accesses as byte sequences -/

/-- How many bytes an access of a width has (20_memory.md R71). -/
def Width.bytes : Width → Nat
  | .byte => 1
  | .word => 2
  | .long => 4

/-- The addresses of the bytes of an access: byte k is at `(addr + k) mod 2^32` (20_memory.md R66). -/
def byteAddrs (w : Width) (addr : Long) : List Long :=
  match w with
  | .byte => [addr]
  | .word => [addr, addr + 1]
  | .long => [addr, addr + 1, addr + 2, addr + 3]

/-- `r <- (r << 8) | zext(b)` (40_bus.md R140). -/
def shiftIn (acc : Long) (b : Byte) : Long := (acc <<< 8) ||| b.setWidth 32

/-- What a read of a width returns when its bytes are shifted together (R140). -/
def Width.reply (w : Width) (acc : Long) : Reply :=
  match w with
  | .byte => .u8 (acc.setWidth 8)
  | .word => .u16 (acc.setWidth 16)
  | .long => .u32 acc

/-- The byte writes of `WB` (R102). -/
def byteWrites8 (addr : Long) (v : Byte) : List (Long × Byte) := [(addr, v)]

/-- The byte writes of `WW`: byte k is `data[15 - 8k : 8 - 8k]` (R102). -/
def byteWrites16 (addr : Long) (v : Half) : List (Long × Byte) :=
  [(addr, v.extractLsb' 8 8), (addr + 1, v.extractLsb' 0 8)]

/-- The byte writes of `WL`: byte k is `data[31 - 8k : 24 - 8k]` (R102). -/
def byteWrites32 (addr : Long) (v : Long) : List (Long × Byte) :=
  [(addr, v.extractLsb' 24 8), (addr + 1, v.extractLsb' 16 8), (addr + 2, v.extractLsb' 8 8), (addr + 3, v.extractLsb' 0 8)]

/-- The sentinel of an unmapped or SCC read: all ones (40_bus.md R150, R153). -/
def sentinel : Byte := 0xFF#8

/-! ### VIA registers -/

/-- `regs[i]` of the VIA (00_scope.md R9). -/
def Via.get (v : Via) (i : RegIdx) : Byte := v.regs[i.toNat]'i.isLt

/-- `regs[i] <- x`. -/
def Via.set (v : Via) (i : RegIdx) (x : Byte) : Via := { v with regs := v.regs.set i.toNat x i.isLt }

/-- ORB (10_state.md R35). -/
def regOrb : RegIdx := 0

/-- ORA, the one cell of indices 1 and 15 (R25). -/
def regOra : RegIdx := 1

/-- DDRB. -/
def regDdrb : RegIdx := 2

/-- DDRA. -/
def regDdra : RegIdx := 3

/-- SR. -/
def regSr : RegIdx := 10

/-- ACR. -/
def regAcr : RegIdx := 11

/-- A port read: driven bits (DDR bit 1) from the output register, the others from the live input (R36, 41_via.md R180). -/
def composePort (out ddr input : Byte) : Byte := (out &&& ddr) ||| (input &&& ~~~ddr)

/-- The default `SR_MODE`: ACR bits 4:3 (30_encoding.md R115). -/
def srModeOfBits (acr : Byte) : SrMode :=
  match (acr.extractLsb' 3 2).toNat with
  | 2 => .out
  | 0 => .inOrDisabled
  | 1 => .inExt
  | _ => .other

/-- `SR_MODE(acr)` under a configuration (R115). An ACR byte a table gives no mode is in mode OTHER; a well-formed
configuration has none (log 13). -/
def srMode (cfg : Config) (acr : Byte) : SrMode :=
  match cfg.srDecode with
  | .acrBits43 => srModeOfBits acr
  | .table modes => modes.getD acr.toNat .other

end Sys2Proof.Machine
end

