-- ==== Sys2Proof/Machine/Flags.lean ====
section
/-! DEFINITION. The interrupt flags and enables of the VIA: the source masks, the aggregate level, and what IFR and IER
read as and do when written (10_state.md R38, R39; 41_via.md R184, R185, R196, R197, R215). -/

namespace Sys2Proof.Machine

/-- The mask of one source bit. -/
def sourceMask (bit : Nat) : Byte := 1#8 <<< bit

/-- `SR = 1 << IFR_SR` (41_via.md). -/
def srMask (cfg : Config) : Byte := sourceMask cfg.ifrSr

/-- The source an edge on a control line latches: line 1 is CA1 and line 2 is CA2 (41_via.md R211, R212). -/
def edgeMask (cfg : Config) : EdgeLine → Byte
  | .one => sourceMask cfg.ifrCa1
  | .two => sourceMask cfg.ifrCa2

/-- `(irq_enable & irq_active & 0x7F) != 0` (10_state.md R30, 41_via.md R215). -/
def Via.level (v : Via) : Bool := v.irqEnable &&& v.irqActive &&& 0x7F#8 != 0#8

/-- IFR as read: `irq_active`, with bit 7 set iff an enabled source is active (41_via.md R184). -/
def Via.ifr (v : Via) : Byte := v.irqActive ||| (if v.level then 0x80#8 else 0x00#8)

/-- IER as read: bit 7 always set (R185). -/
def Via.ier (v : Via) : Byte := 0x80#8 ||| v.irqEnable

/-- `irq_enable` after an IER write: bit 7 of the value selects set or clear for its low bits (R197). -/
def enableAfter (enable v : Byte) : Byte :=
  if v.getLsbD 7 then enable ||| (v &&& 0x7F#8) else enable &&& ~~~(v &&& 0x7F#8)

/-- The sources an IFR write acknowledges: `v & irq_active & 0x7F` (R196). -/
def Via.acked (via : Via) (v : Byte) : Byte := v &&& via.irqActive &&& 0x7F#8

/-- Latch sources. -/
def Via.latch (via : Via) (mask : Byte) : Via := { via with irqActive := via.irqActive ||| mask }

/-- Clear sources. -/
def Via.unlatch (via : Via) (mask : Byte) : Via := { via with irqActive := via.irqActive &&& ~~~mask }

end Sys2Proof.Machine
end

