-- ==== Sys2Proof/Machine/Ops.lean ====
section
/-! DEFINITION. The operations every unit shares: memory cells, output events, replies, port draws, and the trap with its
return. -/

namespace Sys2Proof.Machine

/-! ### Byte arrays -/

/-- The byte at an offset; 0x00 where nothing is listed. -/
def Memory.read : Memory → Nat → Byte
  | [], _ => 0#8
  | (j, b) :: m, k => if j = k then b else Memory.read m k

/-- List `v` at offset `k` before `m`, unless it is what an unlisted offset reads as. -/
def Memory.cons (k : Nat) (v : Byte) (m : Memory) : Memory := if v = 0#8 then m else (k, v) :: m

/-- Store `v` at offset `k`, keeping the canonical form. -/
def Memory.write : Memory → Nat → Byte → Memory
  | [], k, v => Memory.cons k v []
  | (j, b) :: m, k, v =>
    if j < k then (j, b) :: Memory.write m k v
    else if j = k then Memory.cons k v m
    else Memory.cons k v ((j, b) :: m)

/-- Offsets from `lo` on, strictly rising, and no byte 0x00. -/
def Memory.wfFrom : Nat → Memory → Bool
  | _, [] => true
  | lo, (j, b) :: m => decide (lo ≤ j) && b != 0#8 && Memory.wfFrom (j + 1) m

/-- The canonical form. -/
def Memory.wf (m : Memory) : Bool := Memory.wfFrom 0 m

/-- Every listed offset lies below `size`. -/
def Memory.below (size : Nat) (m : Memory) : Bool := m.all fun c => decide (c.1 < size)

/-! ### Output -/

/-- Append an output event. -/
def State.emit (s : State) (e : Event) : State := { s with trace := s.trace ++ [e] }

/-- `Diag(kind, addr)` (10_state.md R43). -/
def State.diag (s : State) (kind : DiagKind) (a : BusAddr) : State := s.emit (.diag kind a)

/-- One more VIA output event has reached its consumer (41_via.md R216). -/
def Consumers.next : Consumers → Consumers
  | .quiet => .quiet
  | .reenterAfter 0 => .reentered
  | .reenterAfter (n + 1) => .reenterAfter n
  | .reentered => .reentered

/-- Emit a VIA output event to its consumer (10_state.md R40). -/
def State.emitVia (s : State) (e : Event) : State := { s.emit e with consumers := s.consumers.next }

/-- A call returns a value. -/
def State.reply (s : State) (r : Reply) : State := { s with replies := s.replies ++ [r] }

/-! ### Outcomes -/

/-- The outcome of a transaction that ran to this state: a fault if a consumer re-entered the VIA (41_via.md R216). -/
def finish (s : State) : Host.Outcome State Fault Refusal :=
  match s.consumers with
  | .reentered => .fault .reentrantVia
  | _ => .next s

/-- Run a call of the emulation thread: while a trap waits the thread makes no progress (10_state.md R34, 43_debug.md
R268), and the call does not start. -/
def onThread (s : State) (call : State → Host.Outcome State Fault Refusal) : Host.Outcome State Fault Refusal :=
  match s.trapWait with
  | some _ => .next s
  | none => call s

/-- A byte read ends: with its byte, which is returned, or stopped in a trap (`none`). -/
def returnByte (r : Option Byte × State) : Host.Outcome State Fault Refusal :=
  match r.1 with
  | some b => finish (r.2.reply (.u8 b))
  | none => finish r.2

/-- A byte write ends: complete (`true`), or stopped in a trap. -/
def returnDone (r : Bool × State) : Host.Outcome State Fault Refusal :=
  if r.1 then finish (r.2.reply .done) else finish r.2

/-! ### Port draws -/

/-- One sample of a port (10_state.md R41): 0x00 with no provider fitted; else the next byte supplied; else a free value. -/
def PortInput.sample (fitted : Bool) (free : Nat → Byte) (p : PortInput) : Byte × PortInput :=
  if fitted then
    match p.supply with
    | b :: bs => (b, { p with supply := bs })
    | [] => (free p.draws, { p with draws := p.draws + 1 })
  else (0x00#8, p)

/-- `PortAIn()`. -/
def State.drawA (s : State) : Byte × State :=
  let r := s.portA.sample s.cfg.portAFitted Config.freePortA
  (r.1, { s with portA := r.2 })

/-- `PortBIn()`. -/
def State.drawB (s : State) : Byte × State :=
  let r := s.portB.sample s.cfg.portBFitted Config.freePortB
  (r.1, { s with portB := r.2 })

/-! ### The trap and its return -/

/-- The CPU's answers to `read_register(r)` for each id, from query number `n` on (43_debug.md R261). -/
def queryRegs : Nat → List Nat → List (Nat × Long)
  | _, [] => []
  | n, r :: rs => (r, Config.cpuRegister n r) :: queryRegs (n + 1) rs

/-- The display of a trap: the program counter, the disassembly at it, and every register, asked for in this order
(43_debug.md R261). -/
def State.display (s : State) (label : TrapLabel) (addr : Long) : Display :=
  let pc := Config.cpuRegister s.queries s.cfg.cpuPcId
  { label := label, addr := addr, pc := pc, text := Config.cpuDisassembly (s.queries + 1) pc,
    regs := queryRegs (s.queries + 2) s.cfg.cpuRegIds }

/-- `Trap(label, addr)` up to the wait: whether it has returned already, and the state. `INTERACTIVE` displays and waits,
leaving what its caller still has to do in `trapWait` (43_debug.md R261); `NOOP` returns at once and writes nothing (R267). -/
def trap (label : TrapLabel) (addr : Long) (resume : Resume) (s : State) : Bool × State :=
  match s.cfg.debugSink with
  | .noop => (true, s)
  | .interactive =>
    (false, { s.emit (.trap (s.display label addr)) with
      queries := s.queries + 2 + s.cfg.cpuRegIds.length
      trapWait := some { label := label, addr := addr, resume := resume } })

/-- The operator's line ends the wait: `trap_wait` is cleared, the answer sets the single-step flag, and `Trap` returns
false for STEP and true for OTHER (43_debug.md R261, R262). -/
def trapReturn (answer : Answer) (s : State) : State :=
  match answer with
  | .step => { s with trapWait := none, singleStepArmed := true }.reply (.trapReturned false)
  | .other => { s with trapWait := none, singleStepArmed := false }.reply (.trapReturned true)

end Sys2Proof.Machine
end

