-- ==== Sys2Proof/Machine/BringUp.lean ====
section
/-! DEFINITION. Bring-up, the block's only reset (70_reset_and_hazards.md R320 to R322), for every configuration and every ROM
image. -/

namespace Sys2Proof.Machine

/-- Why no machine is constructed (U11). -/
inductive BringUpError
  /-- The configuration breaks 00_scope.md R7. -/
  | badConfig
  /-- The image's length is not `ROM_SIZE` (R321). -/
  | wrongSizedRom
deriving DecidableEq, Repr

/-- The bytes of an image from offset `k` on, as an array in canonical form. -/
def Memory.ofBytes : Nat → List Byte → Memory
  | _, [] => []
  | k, b :: bs => Memory.cons k b (Memory.ofBytes (k + 1) bs)

/-- The VIA at construction (10_state.md R46): ORA holds `VIA_ORA_INIT`, all else is zero. -/
def Via.init (cfg : Config) : Via where
  regs := (Vector.replicate 16 0#8).set 1 cfg.viaOraInit
  irqEnable := 0
  irqActive := 0
  irqStatus := false
  shiftPending := none

/-- The machine right after bring-up with an image (R46, R322); no event is emitted (R320). The fields of the environment
hold what State.reset gives them. -/
def State.afterBringUp (cfg : Config) (image : List Byte) : State :=
  { State.reset with
    cfg := cfg
    rom := Memory.ofBytes 0 image
    ram := []
    overlay := true
    via := Via.init cfg
    iwm := Vector.replicate 16 0#8
    singleStepArmed := false
    trapWait := none
    trace := []
    replies := [] }

/-- Bring-up (R321, R322): a configuration that breaks R7 or an image that is not `ROM_SIZE` bytes long brings up no machine. -/
def bringUp (cfg : Config) (image : List Byte) : Except BringUpError State :=
  if cfg.wf = false then .error .badConfig
  else if image.length = cfg.romSize then .ok (State.afterBringUp cfg image)
  else .error .wrongSizedRom

end Sys2Proof.Machine
end

