-- ==== Sys2Proof/Machine/ViaOps.lean ====
section
/-! DEFINITION. The operations of the VIA (41_via.md): the reads and writes of its registers, the external events, and the
reassessment every one of them ends with; and the remap, the consumer of its port-A event (40_bus.md R155). -/

namespace Sys2Proof.Machine

/-- `reassess()` (41_via.md R215): `IrqLevel` is emitted exactly when the aggregate level changes. -/
def reassess (s : State) : State :=
  if s.via.level = s.via.irqStatus then s
  else { s with via := { s.via with irqStatus := s.via.level } }.emitVia (.irqLevel s.via.level)

/-! ### Reads -/

/-- R180: port A, by one draw. -/
def readPortA (s : State) : Byte × State :=
  let d := s.drawA
  (composePort (s.via.get regOra) (s.via.get regDdra) d.1, d.2)

/-- R181: port B, by one draw. -/
def readPortB (s : State) : Byte × State :=
  let d := s.drawB
  (composePort (s.via.get regOrb) (s.via.get regDdrb) d.1, d.2)

/-- R182: a plain register. -/
def readPlain (i : RegIdx) (s : State) : Byte × State := (s.via.get i, s)

/-- R183: the shift register; the read clears its source. -/
def readSr (s : State) : Byte × State := (s.via.get regSr, { s with via := s.via.unlatch (srMask s.cfg) })

/-- R184: IFR. -/
def readIfr (s : State) : Byte × State := (s.via.ifr, s)

/-- R185: IER. -/
def readIer (s : State) : Byte × State := (s.via.ier, s)

/-- Which rule reads register `i` (R186). -/
def readRegister (i : RegIdx) (s : State) : Byte × State :=
  match i.toNat with
  | 0 => readPortB s
  | 1 => readPortA s
  | 10 => readSr s
  | 13 => readIfr s
  | 14 => readIer s
  | 15 => readPortA s
  | _ => readPlain i s

/-- `via_read(i)` (R186): the byte is computed before the closing reassessment. -/
def viaRead (i : RegIdx) (s : State) : Byte × State :=
  let r := readRegister i s
  (r.1, reassess r.2)

/-! ### Writes -/

/-- The consumer of `PortAChanged(v)`: the one-way remap (40_bus.md R155). -/
def remap (v : Byte) (s : State) : State :=
  if s.overlay = true ∧ v.getLsbD s.cfg.overlayBit = false then { s with overlay := false } else s

/-- `PortAChanged(v)` with its consumer (10_state.md R40, 40_bus.md R155). -/
def portAChanged (v : Byte) (s : State) : State := remap v (s.emitVia (.portAChanged v))

/-- R190: port A; the event comes before the store. -/
def writePortA (v : Byte) (s : State) : State :=
  let s' := if v = s.via.get regOra then s else portAChanged v s
  { s' with via := s'.via.set regOra v }

/-- R191: port B. -/
def writePortB (v : Byte) (s : State) : State :=
  let s' := if v = s.via.get regOrb then s else s.emitVia (.portBChanged v)
  { s' with via := s'.via.set regOrb v }

/-- R192: a plain register. -/
def writePlain (i : RegIdx) (v : Byte) (s : State) : State := { s with via := s.via.set i v }

/-- R193: the shift register in mode OUT; `a` is the address the overrun diagnostic carries (D41). -/
def writeSrOut (a : BusAddr) (v : Byte) (s : State) : State :=
  let s' := if s.via.shiftPending = none then s else s.diag .srOverrun a
  { s' with via := { s'.via.latch (srMask s.cfg) with shiftPending := some v } }

/-- R194: the shift register in mode IN_OR_DISABLED. -/
def writeSrClear (s : State) : State := { s with via := s.via.set regSr 0x00#8 }

/-- R193 to R195: the shift register, by the mode the ACR selects. -/
def writeSr (a : BusAddr) (v : Byte) (s : State) : State :=
  match srMode s.cfg (s.via.get regAcr) with
  | .out => writeSrOut a v s
  | .inOrDisabled => writeSrClear s
  | .inExt => s
  | .other => s

/-- Release the pending byte, if there is one (R196). -/
def releasePending (s : State) : State :=
  match s.via.shiftPending with
  | some b => { s with via := { s.via with shiftPending := none } }.emitVia (.shiftTx b)
  | none => s

/-- R196: IFR, an acknowledge mask. -/
def writeIfr (v : Byte) (s : State) : State :=
  let acked := s.via.acked v
  let s' : State := { s with via := s.via.unlatch acked }
  if acked &&& srMask s.cfg = 0#8 then s' else releasePending s'

/-- R197: IER. -/
def writeIer (v : Byte) (s : State) : State :=
  { s with via := { s.via with irqEnable := enableAfter s.via.irqEnable v } }

/-- Which rule writes register `i` (R198). -/
def writeRegister (i : RegIdx) (a : BusAddr) (v : Byte) (s : State) : State :=
  match i.toNat with
  | 0 => writePortB v s
  | 1 => writePortA v s
  | 10 => writeSr a v s
  | 13 => writeIfr v s
  | 14 => writeIer v s
  | 15 => writePortA v s
  | _ => writePlain i v s

/-- `via_write(i, v)` (R198). -/
def viaWrite (i : RegIdx) (a : BusAddr) (v : Byte) (s : State) : State := reassess (writeRegister i a v s)

/-! ### External events -/

/-- `notify_edge(channel)` (R211, R212). The PCR is not consulted (R213). -/
def notifyEdge (line : EdgeLine) (s : State) : State :=
  reassess { s with via := s.via.latch (edgeMask s.cfg line) }

/-- `receive_shift_byte(b)` (R214): accepted in mode IN_EXT only. -/
def receiveShiftByte (b : Byte) (s : State) : State :=
  match srMode s.cfg (s.via.get regAcr) with
  | .inExt => reassess { s with via := (s.via.set regSr b).latch (srMask s.cfg) }
  | _ => s.diag .srRxIgnored 0

end Sys2Proof.Machine
end

