-- ==== Sys2Proof/Machine/BusOps.lean ====
section
/-! DEFINITION. The BusDispatcher (40_bus.md) and the IWM (42_iwm.md): the region handlers, the byte path, and the composition
of multi-byte accesses, with what other agents do between their bytes and how a call goes on after a trap. -/

namespace Sys2Proof.Machine

/-! ### Region handlers -/

/-- `ROM[off]` (R145, R146). -/
def romRead (off : Nat) (s : State) : Byte × State := (s.rom.read off, s)

/-- `RAM[off]` (R148). -/
def ramRead (off : Nat) (s : State) : Byte × State := (s.ram.read off, s)

/-- `RAM[off] <- v` (R147). -/
def ramWrite (off : Nat) (v : Byte) (s : State) : State := { s with ram := s.ram.write off v }

/-- R153: an unmapped read. -/
def unmappedRead (a : BusAddr) (s : State) : Byte × State := (sentinel, s.diag .unmappedRead a)

/-- R154: an unmapped write. -/
def unmappedWrite (a : BusAddr) (s : State) : State := s.diag .unmappedWrite a

/-- `scc_access(label, dir, A)` (R150, R151): the diagnostic, then the trap. `true` if the trap has returned. -/
def sccAccess (label : TrapLabel) (a : BusAddr) (resume : Resume) (s : State) : Bool × State :=
  trap label (a.setWidth 32) resume (s.diag .sccAccess a)

/-- The read answer of `scc_access`: 0xFF once the trap has returned. -/
def sccRead (label : TrapLabel) (a : BusAddr) (resume : Resume) (s : State) : Option Byte × State :=
  let r := sccAccess label a resume s
  (if r.1 then some sentinel else none, r.2)

/-- `rom_write_rejected(A)` (R149): the diagnostic, then the trap; the write is dropped. -/
def romWriteRejected (a : BusAddr) (resume : Resume) (s : State) : Bool × State :=
  trap .romWrite (a.setWidth 32) resume (s.diag .romWrite a)

/-- `iwm_read(i)` (42_iwm.md R241). -/
def iwmRead (i : RegIdx) (s : State) : Byte :=
  if i = s.cfg.iwmSenseOnes then 0xFF#8
  else if i = s.cfg.iwmSenseNib then s.cfg.iwmSenseNibVal
  else s.iwm[i.toNat]'i.isLt

/-- `iwm_write(i, v)` (R240): the store is unconditional; `a` is the address of the diagnostic. -/
def iwmWrite (i : RegIdx) (a : BusAddr) (v : Byte) (s : State) : State :=
  let s' := if i ∈ s.cfg.iwmKnown then s else s.diag .iwmUnhandled a
  { s' with iwm := s'.iwm.set i.toNat v i.isLt }

/-! ### The byte path -/

/-- A handler that never traps has its byte. -/
def always (r : Byte × State) : Option Byte × State := (some r.1, r.2)

/-- `ByteRead(addr)` (R141): `none` if it is stopped in a trap; `resume` is what its caller then still has to do. -/
def byteRead (addr : Long) (resume : Resume) (s : State) : Option Byte × State :=
  let a := busAddr addr
  match decodeRegion s.cfg s.overlay a with
  | .iwm i => (some (iwmRead i s), s)
  | .sccR => sccRead .sccRead a resume s
  | .sccW => sccRead .sccWrite a resume s
  | .via i => always (viaRead i s)
  | .romOvl off => always (romRead off s)
  | .romAlias off => always (romRead off s)
  | .ram off => always (ramRead off s)
  | .unmapped => always (unmappedRead a s)

/-- `ByteWrite(addr, v)` (R142): `false` if it is stopped in a trap. -/
def byteWrite (addr : Long) (v : Byte) (resume : Resume) (s : State) : Bool × State :=
  let a := busAddr addr
  match decodeRegion s.cfg s.overlay a with
  | .iwm i => (true, iwmWrite i a v s)
  | .sccR => sccAccess .sccRead a resume s
  | .sccW => sccAccess .sccWrite a resume s
  | .via i => (true, viaWrite i a v s)
  | .romOvl _ => romWriteRejected a resume s
  | .romAlias _ => romWriteRejected a resume s
  | .ram off => (true, ramWrite off v s)
  | .unmapped => (true, unmappedWrite a s)

/-! ### What other agents do between two byte accesses -/

/-- The renderer reads framebuffer byte `index`: RAM directly, without the decoder and without side effects (10_state.md
R45). An index outside the framebuffer, or outside RAM, reads nothing. -/
def renderRead (index : Nat) (s : State) : State :=
  if index < s.cfg.fbBytes ∧ s.cfg.fbBase + index < s.cfg.ramSize
  then s.emit (.rendered index (s.ram.read (s.cfg.fbBase + index)))
  else s

/-- One event of another agent (20_memory.md R81, 60_exceptions.md R291). -/
def agentEvent (e : AgentEvent) (s : State) : State :=
  match e with
  | .edge line => notifyEdge line s
  | .rxsr b => receiveShiftByte b s
  | .render index => renderRead index s

/-- Several of them, in order. -/
def agentEvents : List AgentEvent → State → State
  | [], s => s
  | e :: es, s => agentEvents es (agentEvent e s)

/-- The boundary after one byte access of a call: if the call has more bytes (`more`), the agents' events due there occur
(20_memory.md R71). -/
def boundary (more : Bool) (s : State) : State :=
  match more, s.agenda with
  | true, es :: later => agentEvents es { s with agenda := later }
  | _, _ => s

/-! ### Multi-byte accesses -/

/-- `MemRead` (R140) from the byte at the head of the list on: ascending, each byte complete before the next. -/
def memRead (w : Width) : List Long → Long → State → State
  | [], acc, s => s.reply (w.reply acc)
  | addr :: rest, acc, s =>
    let r := byteRead addr (.read w acc rest) s
    match r.1 with
    | some b => memRead w rest (shiftIn acc b) (boundary (!rest.isEmpty) r.2)
    | none => r.2

/-- `MemWrite` (R143) from the byte at the head of the list on. -/
def memWrite : List (Long × Byte) → State → State
  | [], s => s.reply .done
  | x :: rest, s =>
    let r := byteWrite x.1 x.2 (.write rest) s
    if r.1 then memWrite rest (boundary (!rest.isEmpty) r.2) else r.2

/-- The call a trap stopped goes on: the byte that trapped answers 0xFF or is dropped, whatever `Trap` returned
(43_debug.md R263), and the bytes after it follow (60_exceptions.md R288). -/
def resumeCall (resume : Resume) (s : State) : State :=
  match resume with
  | .hook => s.reply .done
  | .read w acc rest => memRead w rest (shiftIn acc sentinel) (boundary (!rest.isEmpty) s)
  | .write rest => memWrite rest (boundary (!rest.isEmpty) s)

end Sys2Proof.Machine
end

