-- ==== Sys2Proof/Machine/Bus.lean ====
section
/-! DEFINITION. The meanings of the six ABI calls (40_bus.md R160 to R165) and of the byte rows of the SCC, ROM, RAM and
unmapped regions (R145 to R154). Each is a call of the emulation thread. -/

namespace Sys2Proof.Machine

/-- What a lone byte read still has to do when its trap returns: answer the byte. -/
def resumeByteRead : Resume := .read .byte 0 []

/-- What a lone byte write still has to do when its trap returns: return. -/
def resumeByteWrite : Resume := .write []

/-! ### The ABI calls -/

/-- `RB` (R160). -/
def execRb (addr : Long) (s : State) : Host.Outcome State Fault Refusal :=
  onThread s fun s => finish (memRead .byte (byteAddrs .byte addr) 0 s)

/-- `RW` (R161). -/
def execRw (addr : Long) (s : State) : Host.Outcome State Fault Refusal :=
  onThread s fun s => finish (memRead .word (byteAddrs .word addr) 0 s)

/-- `RL` (R162). -/
def execRl (addr : Long) (s : State) : Host.Outcome State Fault Refusal :=
  onThread s fun s => finish (memRead .long (byteAddrs .long addr) 0 s)

/-- `WB` (R163). -/
def execWb (addr : Long) (v : Byte) (s : State) : Host.Outcome State Fault Refusal :=
  onThread s fun s => finish (memWrite (byteWrites8 addr v) s)

/-- `WW` (R164). -/
def execWw (addr : Long) (v : Half) (s : State) : Host.Outcome State Fault Refusal :=
  onThread s fun s => finish (memWrite (byteWrites16 addr v) s)

/-- `WL` (R165). -/
def execWl (addr : Long) (v : Long) (s : State) : Host.Outcome State Fault Refusal :=
  onThread s fun s => finish (memWrite (byteWrites32 addr v) s)

/-! ### The SCC windows -/

/-- `SCC_R_RD` (R150). -/
def execSccRRd (a : BusAddr) (s : State) : Host.Outcome State Fault Refusal :=
  onThread s fun s => returnByte (sccRead .sccRead a resumeByteRead s)

/-- `SCC_R_WR` (R150): the byte is dropped. -/
def execSccRWr (a : BusAddr) (_v : Byte) (s : State) : Host.Outcome State Fault Refusal :=
  onThread s fun s => returnDone (sccAccess .sccRead a resumeByteWrite s)

/-- `SCC_W_RD` (R151). -/
def execSccWRd (a : BusAddr) (s : State) : Host.Outcome State Fault Refusal :=
  onThread s fun s => returnByte (sccRead .sccWrite a resumeByteRead s)

/-- `SCC_W_WR` (R151): the byte is dropped. -/
def execSccWWr (a : BusAddr) (_v : Byte) (s : State) : Host.Outcome State Fault Refusal :=
  onThread s fun s => returnDone (sccAccess .sccWrite a resumeByteWrite s)

/-! ### ROM, RAM and unmapped addresses -/

/-- `ROM_OVL_RD` (R145). -/
def execRomOvlRd (a : BusAddr) (s : State) : Host.Outcome State Fault Refusal :=
  onThread s fun s => returnByte (always (romRead a.toNat s))

/-- `ROM_OVL_WR` (R149): the byte is dropped. -/
def execRomOvlWr (a : BusAddr) (_v : Byte) (s : State) : Host.Outcome State Fault Refusal :=
  onThread s fun s => returnDone (romWriteRejected a resumeByteWrite s)

/-- `ROM_ALIAS_RD` (R146). -/
def execRomAliasRd (a : BusAddr) (s : State) : Host.Outcome State Fault Refusal :=
  onThread s fun s => returnByte (always (romRead (a.toNat - s.cfg.romAliasBase) s))

/-- `ROM_ALIAS_WR` (R149): the byte is dropped. -/
def execRomAliasWr (a : BusAddr) (_v : Byte) (s : State) : Host.Outcome State Fault Refusal :=
  onThread s fun s => returnDone (romWriteRejected a resumeByteWrite s)

/-- `RAM_RD` (R148). -/
def execRamRd (a : BusAddr) (s : State) : Host.Outcome State Fault Refusal :=
  onThread s fun s => returnByte (always (ramRead a.toNat s))

/-- `RAM_WR` (R147). -/
def execRamWr (a : BusAddr) (v : Byte) (s : State) : Host.Outcome State Fault Refusal :=
  onThread s fun s => returnDone (true, ramWrite a.toNat v s)

/-- `UNMAPPED_RD` (R153). -/
def execUnmappedRd (a : BusAddr) (s : State) : Host.Outcome State Fault Refusal :=
  onThread s fun s => returnByte (always (unmappedRead a s))

/-- `UNMAPPED_WR` (R154): the byte is dropped. -/
def execUnmappedWr (a : BusAddr) (_v : Byte) (s : State) : Host.Outcome State Fault Refusal :=
  onThread s fun s => returnDone (true, unmappedWrite a s)

end Sys2Proof.Machine
end

