-- ==== Sys2Proof/Machine/Debug.lean ====
section
/-! DEFINITION. The meanings of the DebugBridge's transactions (43_debug.md): the instruction hook and the operator's answers. -/

namespace Sys2Proof.Machine

/-- `HOOK`: `instruction_hook(pc)` (R264): while single-step is armed, a SINGLE_STEP trap; then return. -/
def execHook (pc : Long) (s : State) : Host.Outcome State Fault Refusal :=
  onThread s fun s =>
    if s.singleStepArmed then returnDone (trap .singleStep pc .hook s) else returnDone (true, s)

/-- An answer: the waiting trap returns (R261, R262) and the call it stopped goes on (R263). With no trap waiting it is no
transaction (U20). -/
def answer (resp : Answer) (s : State) : Host.Outcome State Fault Refusal :=
  match s.trapWait with
  | none => .refused .noTrapWaiting
  | some w => finish (resumeCall w.resume (trapReturn resp s))

/-- `ANSWER_STEP` (R262). -/
def execAnswerStep (s : State) : Host.Outcome State Fault Refusal := answer .step s

/-- `ANSWER_OTHER` (R262). -/
def execAnswerOther (s : State) : Host.Outcome State Fault Refusal := answer .other s

end Sys2Proof.Machine
end

