-- ==== Sys2Proof/Machine/Iwm.lean ====
section
/-! DEFINITION. The meanings of the IWM rows (42_iwm.md R240, R241): one register operation of the index `A[12:9]`. -/

namespace Sys2Proof.Machine

/-- `IWM_RD_SENSE_ONES`: the row's index is `IWM_SENSE_ONES_IDX`, so the read answers all ones (R241). -/
def execIwmRdSenseOnes (a : BusAddr) (s : State) : Host.Outcome State Fault Refusal :=
  onThread s fun s => returnByte (some (iwmRead (regIndex a) s), s)

/-- `IWM_RD_SENSE_NIB`: the row's index is `IWM_SENSE_NIB_IDX`, so the read answers `IWM_SENSE_NIB_VAL` (R241). -/
def execIwmRdSenseNib (a : BusAddr) (s : State) : Host.Outcome State Fault Refusal :=
  onThread s fun s => returnByte (some (iwmRead (regIndex a) s), s)

/-- `IWM_RD`: the stored byte of the index (R241). -/
def execIwmRd (a : BusAddr) (s : State) : Host.Outcome State Fault Refusal :=
  onThread s fun s => returnByte (some (iwmRead (regIndex a) s), s)

/-- `IWM_WR`: store, logging an index with no known meaning (R240, R243). -/
def execIwmWr (a : BusAddr) (v : Byte) (s : State) : Host.Outcome State Fault Refusal :=
  onThread s fun s => returnDone (true, iwmWrite (regIndex a) a v s)

end Sys2Proof.Machine
end

