-- ==== Sys2Proof/Machine/ViaEvents.lean ====
section
/-! DEFINITION. The meanings of the external events of the VIA (41_via.md R211 to R214). They are the device agent's, so they
occur while a trap waits too (60_exceptions.md R296). -/

namespace Sys2Proof.Machine

/-- `VIA_EDGE1`: `notify_edge(1)` (R211). -/
def execViaEdge1 (s : State) : Host.Outcome State Fault Refusal := finish (notifyEdge .one s)

/-- `VIA_EDGE2`: `notify_edge(2)` (R212). -/
def execViaEdge2 (s : State) : Host.Outcome State Fault Refusal := finish (notifyEdge .two s)

/-- `VIA_RXSR`: `receive_shift_byte(b)` (R214). -/
def execViaRxsr (b : Byte) (s : State) : Host.Outcome State Fault Refusal := finish (receiveShiftByte b s)

end Sys2Proof.Machine
end

