-- ==== Sys2Proof/Machine/ViaReads.lean ====
section
/-! DEFINITION. The meanings of the sixteen VIA read rows (41_via.md R180 to R186): one `via_read` of the row's index, whose byte
is returned. The address `A` selected the row and enters nothing else (30_encoding.md R104). -/

namespace Sys2Proof.Machine

/-- Read index 0: ORB, with one port-B draw (R181). -/
def execViaRdOrb (_a : BusAddr) (s : State) : Host.Outcome State Fault Refusal :=
  onThread s fun s => returnByte (always (viaRead 0 s))

/-- Read index 1: ORA, with one port-A draw (R180). -/
def execViaRdOra (_a : BusAddr) (s : State) : Host.Outcome State Fault Refusal :=
  onThread s fun s => returnByte (always (viaRead 1 s))

/-- Read index 2: DDRB (R182). -/
def execViaRdDdrb (_a : BusAddr) (s : State) : Host.Outcome State Fault Refusal :=
  onThread s fun s => returnByte (always (viaRead 2 s))

/-- Read index 3: DDRA (R182). -/
def execViaRdDdra (_a : BusAddr) (s : State) : Host.Outcome State Fault Refusal :=
  onThread s fun s => returnByte (always (viaRead 3 s))

/-- Read index 4: T1C-L, plain storage (R182, R224). -/
def execViaRdT1cl (_a : BusAddr) (s : State) : Host.Outcome State Fault Refusal :=
  onThread s fun s => returnByte (always (viaRead 4 s))

/-- Read index 5: T1C-H, plain storage (R182, R224). -/
def execViaRdT1ch (_a : BusAddr) (s : State) : Host.Outcome State Fault Refusal :=
  onThread s fun s => returnByte (always (viaRead 5 s))

/-- Read index 6: T1L-L, plain storage (R182, R224). -/
def execViaRdT1ll (_a : BusAddr) (s : State) : Host.Outcome State Fault Refusal :=
  onThread s fun s => returnByte (always (viaRead 6 s))

/-- Read index 7: T1L-H, plain storage (R182, R224). -/
def execViaRdT1lh (_a : BusAddr) (s : State) : Host.Outcome State Fault Refusal :=
  onThread s fun s => returnByte (always (viaRead 7 s))

/-- Read index 8: T2C-L, plain storage (R182, R224). -/
def execViaRdT2cl (_a : BusAddr) (s : State) : Host.Outcome State Fault Refusal :=
  onThread s fun s => returnByte (always (viaRead 8 s))

/-- Read index 9: T2C-H, plain storage (R182, R224). -/
def execViaRdT2ch (_a : BusAddr) (s : State) : Host.Outcome State Fault Refusal :=
  onThread s fun s => returnByte (always (viaRead 9 s))

/-- Read index 10: SR; clears its source (R183). -/
def execViaRdSr (_a : BusAddr) (s : State) : Host.Outcome State Fault Refusal :=
  onThread s fun s => returnByte (always (viaRead 10 s))

/-- Read index 11: ACR (R182). -/
def execViaRdAcr (_a : BusAddr) (s : State) : Host.Outcome State Fault Refusal :=
  onThread s fun s => returnByte (always (viaRead 11 s))

/-- Read index 12: PCR (R182). -/
def execViaRdPcr (_a : BusAddr) (s : State) : Host.Outcome State Fault Refusal :=
  onThread s fun s => returnByte (always (viaRead 12 s))

/-- Read index 13: IFR, computed (R184). -/
def execViaRdIfr (_a : BusAddr) (s : State) : Host.Outcome State Fault Refusal :=
  onThread s fun s => returnByte (always (viaRead 13 s))

/-- Read index 14: IER, computed (R185). -/
def execViaRdIer (_a : BusAddr) (s : State) : Host.Outcome State Fault Refusal :=
  onThread s fun s => returnByte (always (viaRead 14 s))

/-- Read index 15: the ORA alias, the cell of index 1 (R180). -/
def execViaRdOraAlias (_a : BusAddr) (s : State) : Host.Outcome State Fault Refusal :=
  onThread s fun s => returnByte (always (viaRead 15 s))

end Sys2Proof.Machine
end

