-- ==== Sys2Proof/Machine/ViaWrites.lean ====
section
/-! DEFINITION. The meanings of the sixteen VIA write rows (41_via.md R190 to R198): one `via_write` of the row's index. The
address `A` selected the row; only the overrun diagnostic carries it (D41). -/

namespace Sys2Proof.Machine

/-- Write index 0: ORB (R191). -/
def execViaWrOrb (a : BusAddr) (v : Byte) (s : State) : Host.Outcome State Fault Refusal :=
  onThread s fun s => returnDone (true, viaWrite 0 a v s)

/-- Write index 1: ORA (R190), which may remap. -/
def execViaWrOra (a : BusAddr) (v : Byte) (s : State) : Host.Outcome State Fault Refusal :=
  onThread s fun s => returnDone (true, viaWrite 1 a v s)

/-- Write index 2: DDRB (R192). -/
def execViaWrDdrb (a : BusAddr) (v : Byte) (s : State) : Host.Outcome State Fault Refusal :=
  onThread s fun s => returnDone (true, viaWrite 2 a v s)

/-- Write index 3: DDRA (R192). -/
def execViaWrDdra (a : BusAddr) (v : Byte) (s : State) : Host.Outcome State Fault Refusal :=
  onThread s fun s => returnDone (true, viaWrite 3 a v s)

/-- Write index 4: T1C-L (R192, R224). -/
def execViaWrT1cl (a : BusAddr) (v : Byte) (s : State) : Host.Outcome State Fault Refusal :=
  onThread s fun s => returnDone (true, viaWrite 4 a v s)

/-- Write index 5: T1C-H (R192, R224). -/
def execViaWrT1ch (a : BusAddr) (v : Byte) (s : State) : Host.Outcome State Fault Refusal :=
  onThread s fun s => returnDone (true, viaWrite 5 a v s)

/-- Write index 6: T1L-L (R192, R224). -/
def execViaWrT1ll (a : BusAddr) (v : Byte) (s : State) : Host.Outcome State Fault Refusal :=
  onThread s fun s => returnDone (true, viaWrite 6 a v s)

/-- Write index 7: T1L-H (R192, R224). -/
def execViaWrT1lh (a : BusAddr) (v : Byte) (s : State) : Host.Outcome State Fault Refusal :=
  onThread s fun s => returnDone (true, viaWrite 7 a v s)

/-- Write index 8: T2C-L (R192, R224). -/
def execViaWrT2cl (a : BusAddr) (v : Byte) (s : State) : Host.Outcome State Fault Refusal :=
  onThread s fun s => returnDone (true, viaWrite 8 a v s)

/-- Write index 9: T2C-H (R192, R224). -/
def execViaWrT2ch (a : BusAddr) (v : Byte) (s : State) : Host.Outcome State Fault Refusal :=
  onThread s fun s => returnDone (true, viaWrite 9 a v s)

/-- Write index 10: SR, by shift mode (R193 to R195). -/
def execViaWrSr (a : BusAddr) (v : Byte) (s : State) : Host.Outcome State Fault Refusal :=
  onThread s fun s => returnDone (true, viaWrite 10 a v s)

/-- Write index 11: ACR (R192). -/
def execViaWrAcr (a : BusAddr) (v : Byte) (s : State) : Host.Outcome State Fault Refusal :=
  onThread s fun s => returnDone (true, viaWrite 11 a v s)

/-- Write index 12: PCR (R192). -/
def execViaWrPcr (a : BusAddr) (v : Byte) (s : State) : Host.Outcome State Fault Refusal :=
  onThread s fun s => returnDone (true, viaWrite 12 a v s)

/-- Write index 13: IFR, an acknowledge mask (R196). -/
def execViaWrIfr (a : BusAddr) (v : Byte) (s : State) : Host.Outcome State Fault Refusal :=
  onThread s fun s => returnDone (true, viaWrite 13 a v s)

/-- Write index 14: IER, set or clear (R197). -/
def execViaWrIer (a : BusAddr) (v : Byte) (s : State) : Host.Outcome State Fault Refusal :=
  onThread s fun s => returnDone (true, viaWrite 14 a v s)

/-- Write index 15: the ORA alias, the cell of index 1 (R190). -/
def execViaWrOraAlias (a : BusAddr) (v : Byte) (s : State) : Host.Outcome State Fault Refusal :=
  onThread s fun s => returnDone (true, viaWrite 15 a v s)

end Sys2Proof.Machine
end

