-- ==== Sys2Proof/Machine/Dispatch.lean ====
section
/-! DEFINITION. The meaning of each transaction, one arm per row of spec/opcode_table.json. -/

namespace Sys2Proof.Machine

def exec (i : Instr) (s : State) : Host.Outcome State Fault Refusal :=
  match i with
  | .rb addr => Sys2Proof.Machine.execRb addr s
  | .rw addr => Sys2Proof.Machine.execRw addr s
  | .rl addr => Sys2Proof.Machine.execRl addr s
  | .wb addr v => Sys2Proof.Machine.execWb addr v s
  | .ww addr v => Sys2Proof.Machine.execWw addr v s
  | .wl addr v => Sys2Proof.Machine.execWl addr v s
  | .iwmRdSenseOnes a => Sys2Proof.Machine.execIwmRdSenseOnes a s
  | .iwmRdSenseNib a => Sys2Proof.Machine.execIwmRdSenseNib a s
  | .iwmRd a => Sys2Proof.Machine.execIwmRd a s
  | .iwmWr a v => Sys2Proof.Machine.execIwmWr a v s
  | .sccRRd a => Sys2Proof.Machine.execSccRRd a s
  | .sccRWr a v => Sys2Proof.Machine.execSccRWr a v s
  | .sccWRd a => Sys2Proof.Machine.execSccWRd a s
  | .sccWWr a v => Sys2Proof.Machine.execSccWWr a v s
  | .viaRdOrb a => Sys2Proof.Machine.execViaRdOrb a s
  | .viaRdOra a => Sys2Proof.Machine.execViaRdOra a s
  | .viaRdDdrb a => Sys2Proof.Machine.execViaRdDdrb a s
  | .viaRdDdra a => Sys2Proof.Machine.execViaRdDdra a s
  | .viaRdT1cl a => Sys2Proof.Machine.execViaRdT1cl a s
  | .viaRdT1ch a => Sys2Proof.Machine.execViaRdT1ch a s
  | .viaRdT1ll a => Sys2Proof.Machine.execViaRdT1ll a s
  | .viaRdT1lh a => Sys2Proof.Machine.execViaRdT1lh a s
  | .viaRdT2cl a => Sys2Proof.Machine.execViaRdT2cl a s
  | .viaRdT2ch a => Sys2Proof.Machine.execViaRdT2ch a s
  | .viaRdSr a => Sys2Proof.Machine.execViaRdSr a s
  | .viaRdAcr a => Sys2Proof.Machine.execViaRdAcr a s
  | .viaRdPcr a => Sys2Proof.Machine.execViaRdPcr a s
  | .viaRdIfr a => Sys2Proof.Machine.execViaRdIfr a s
  | .viaRdIer a => Sys2Proof.Machine.execViaRdIer a s
  | .viaRdOraAlias a => Sys2Proof.Machine.execViaRdOraAlias a s
  | .viaWrOrb a v => Sys2Proof.Machine.execViaWrOrb a v s
  | .viaWrOra a v => Sys2Proof.Machine.execViaWrOra a v s
  | .viaWrDdrb a v => Sys2Proof.Machine.execViaWrDdrb a v s
  | .viaWrDdra a v => Sys2Proof.Machine.execViaWrDdra a v s
  | .viaWrT1cl a v => Sys2Proof.Machine.execViaWrT1cl a v s
  | .viaWrT1ch a v => Sys2Proof.Machine.execViaWrT1ch a v s
  | .viaWrT1ll a v => Sys2Proof.Machine.execViaWrT1ll a v s
  | .viaWrT1lh a v => Sys2Proof.Machine.execViaWrT1lh a v s
  | .viaWrT2cl a v => Sys2Proof.Machine.execViaWrT2cl a v s
  | .viaWrT2ch a v => Sys2Proof.Machine.execViaWrT2ch a v s
  | .viaWrSr a v => Sys2Proof.Machine.execViaWrSr a v s
  | .viaWrAcr a v => Sys2Proof.Machine.execViaWrAcr a v s
  | .viaWrPcr a v => Sys2Proof.Machine.execViaWrPcr a v s
  | .viaWrIfr a v => Sys2Proof.Machine.execViaWrIfr a v s
  | .viaWrIer a v => Sys2Proof.Machine.execViaWrIer a v s
  | .viaWrOraAlias a v => Sys2Proof.Machine.execViaWrOraAlias a v s
  | .romOvlRd a => Sys2Proof.Machine.execRomOvlRd a s
  | .romOvlWr a v => Sys2Proof.Machine.execRomOvlWr a v s
  | .romAliasRd a => Sys2Proof.Machine.execRomAliasRd a s
  | .romAliasWr a v => Sys2Proof.Machine.execRomAliasWr a v s
  | .ramRd a => Sys2Proof.Machine.execRamRd a s
  | .ramWr a v => Sys2Proof.Machine.execRamWr a v s
  | .unmappedRd a => Sys2Proof.Machine.execUnmappedRd a s
  | .unmappedWr a v => Sys2Proof.Machine.execUnmappedWr a v s
  | .hook pc => Sys2Proof.Machine.execHook pc s
  | .viaEdge1 => Sys2Proof.Machine.execViaEdge1 s
  | .viaEdge2 => Sys2Proof.Machine.execViaEdge2 s
  | .viaRxsr b => Sys2Proof.Machine.execViaRxsr b s
  | .answerStep => Sys2Proof.Machine.execAnswerStep s
  | .answerOther => Sys2Proof.Machine.execAnswerOther s

end Sys2Proof.Machine
end

