-- ==== Sys2Proof/Machine/Step.lean ====
section
/-! DEFINITION. One step: the next transaction in the order of arrival is decoded and runs, or the renderer reads a byte. -/

namespace Sys2Proof.Machine

/-- One step of the block. With nothing to come it does nothing (log 2). A renderer read occurs at any time, in a trap wait too
(20_memory.md R81, 60_exceptions.md R296). A frame that is no transaction is refused by name. A call of the emulation thread
does not start while a trap waits: the step answers the unchanged state, so that a trap which is never answered is a run that
does not end (60_exceptions.md R292, U13). Every other transaction leaves the queue and has its meaning. -/
def step (s : State) : Host.Outcome State Fault Refusal :=
  match s.queue with
  | [] => .next s
  | .render index :: rest => .next (renderRead index { s with queue := rest })
  | .transaction f :: rest =>
    match decode s.cfg s.overlay f with
    | .error e => .refused (.illFormed e)
    | .ok i =>
      if s.trapWait.isSome ∧ i.agent = .cpu then .next s
      else exec i { s with queue := rest }

/-- `s` with the transaction of a table word as the next one to come (log 2). -/
def State.withFetchWord (s : State) (nbits w : Nat) : State := { s with queue := .transaction (frameOfNat nbits w) :: s.queue }

end Sys2Proof.Machine
end

