-- ==== Sys2Proof/Safety.lean ====
section
/-! DEFINITION. The terms claims are stated in: when the block is ready for a call, the invariant of the machine, and how one
state may follow another. -/

namespace Sys2Proof.Machine

/-- The block can take a call: no trap waits, and no external consumer breaks 41_via.md R216. -/
def State.Ready (s : State) : Prop := s.trapWait = none ∧ s.consumers = .quiet

/-- `irq_status` is the aggregate level, as at every operation boundary of the VIA (10_state.md R30). -/
def Via.Settled (v : Via) : Prop := v.irqStatus = v.level

/-- The event of a reassessment that finds the VIA in state `v` after level `before` (41_via.md R215). -/
def levelChange (before : Bool) (v : Via) : List Event := if v.level = before then [] else [.irqLevel v.level]

/-- The region the byte at an ABI address resolves to. -/
def State.region (s : State) (addr : Long) : Region := decodeRegion s.cfg s.overlay (busAddr addr)

/-- The byte an ABI address holds, where it resolves to ROM or RAM. -/
def State.stored (s : State) (addr : Long) : Option Byte :=
  match s.region addr with
  | .romOvl off => some (s.rom.read off)
  | .romAlias off => some (s.rom.read off)
  | .ram off => some (s.ram.read off)
  | _ => none

/-- The mask of the three sources that are ever latched (10_state.md R27). -/
def sourcesMask (cfg : Config) : Byte := sourceMask cfg.ifrCa2 ||| sourceMask cfg.ifrCa1 ||| srMask cfg

/-- A trap wait records its cause (30_encoding.md R118, 60_exceptions.md R281): a bus trap stops an access and holds a
24-bit address in the region of its label; a single-step trap stops the hook. -/
def State.WaitOk (s : State) (w : TrapWait) : Prop :=
  match w.label with
  | .singleStep => w.resume = .hook
  | .sccRead => w.resume ≠ .hook ∧ w.addr.toNat < 2 ^ 24 ∧ s.region w.addr = .sccR
  | .sccWrite => w.resume ≠ .hook ∧ w.addr.toNat < 2 ^ 24 ∧ s.region w.addr = .sccW
  | .romWrite =>
    (∃ rest, w.resume = .write rest) ∧ w.addr.toNat < 2 ^ 24 ∧
      ∃ off, s.region w.addr = .romOvl off ∨ s.region w.addr = .romAlias off

/-- The invariant of the machine. -/
structure State.Inv (s : State) : Prop where
  /-- The configuration obeys 00_scope.md R7. -/
  cfgOk : s.cfg.wf = true
  /-- ROM is in canonical form and holds bytes of [0, ROM_SIZE) only (10_state.md R22). -/
  romOk : s.rom.wf = true ∧ s.rom.below s.cfg.romSize = true
  /-- RAM is in canonical form and holds bytes of [0, RAM_SIZE) only (R23). -/
  ramOk : s.ram.wf = true ∧ s.ram.below s.cfg.ramSize = true
  /-- Bit 7 of `irq_enable` is 0 (R26). -/
  enableOk : s.via.irqEnable.getLsbD 7 = false
  /-- Only the three modelled sources are ever latched (R27). -/
  activeOk : s.via.irqActive &&& ~~~sourcesMask s.cfg = 0#8
  /-- `irq_status` is the aggregate level (R30). -/
  settled : s.via.Settled
  /-- Under the no-op sink nothing ever waits and single-step is never armed (43_debug.md R267). -/
  noopOk : s.cfg.debugSink = .noop → s.trapWait = none ∧ s.singleStepArmed = false
  /-- A trap wait records its cause (60_exceptions.md R281). -/
  waitOk : ∀ w, s.trapWait = some w → s.WaitOk w
  /-- A machine whose consumer re-entered the VIA has stopped (41_via.md R216). -/
  consumersOk : s.consumers ≠ .reentered

/-- The interrupt levels among some events. -/
def irqLevels : List Event → List Bool
  | [] => []
  | .irqLevel l :: es => l :: irqLevels es
  | _ :: es => irqLevels es

/-- Each level differs from the one before it, from `before` on, and the last is `after` (41_via.md R215). -/
def Alternates (before : Bool) (levels : List Bool) (after : Bool) : Prop :=
  match levels with
  | [] => before = after
  | l :: ls => l ≠ before ∧ Alternates l ls after

/-- The transaction that carries an answer. -/
def Answer.instr : Answer → Instr
  | .step => .answerStep
  | .other => .answerOther

/-- The events the VIA gives to its consumers (10_state.md R40, 41_via.md R216). -/
def Event.isVia : Event → Bool
  | .portAChanged _ => true
  | .portBChanged _ => true
  | .shiftTx _ => true
  | .irqLevel _ => true
  | .diag _ _ => false
  | .trap _ => false
  | .rendered _ _ => false

/-- What an event of another agent is: the transaction the device agent makes (41_via.md R211, R212, R214), or the step that is
a renderer read (10_state.md R45). -/
def AgentEvent.Acts : AgentEvent → State → State → Prop
  | .edge .one, s, t => exec .viaEdge1 s = .next t
  | .edge .two, s, t => exec .viaEdge2 s = .next t
  | .rxsr b, s, t => exec (.viaRxsr b) s = .next t
  | .render index, s, t => step { s with queue := .render index :: s.queue } = .next t

/-- Several events, in order. -/
def ActInTurn : List AgentEvent → State → State → Prop
  | [], s, t => t = s
  | e :: es, s, t => ∃ u : State, e.Acts s u ∧ ActInTurn es u t

/-- What happens between two byte accesses of one call: the events that the first entry of the agenda lists, and nothing with an
empty agenda (20_memory.md R71, R81, log 9). -/
def Between (s t : State) : Prop :=
  match s.agenda with
  | [] => t = s
  | es :: later => ActInTurn es { s with agenda := later } t

/-- `read_byte` of some addresses one after another, each returning, with what other agents do after each: the bytes, and the
state after them (with the record of replies as before). -/
def ReadsBytes : List Long → State → List Byte → State → Prop
  | [], s, bs, t => bs = [] ∧ t = s
  | a :: as, s, bs, t => ∃ (b : Byte) (rest : List Byte) (u v : State), bs = b :: rest ∧ exec (.rb a) s = .next u ∧
      u.trapWait = none ∧ u.replies = s.replies ++ [.u8 b] ∧ Between { u with replies := s.replies } v ∧ ReadsBytes as v rest t

/-- `write_byte` of some bytes one after another, each returning, with what other agents do after each: the state after
them (with the record of replies as before). -/
def WritesBytes : List (Long × Byte) → State → State → Prop
  | [], s, t => t = s
  | x :: xs, s, t => ∃ u v : State, exec (.wb x.1 x.2) s = .next u ∧ u.trapWait = none ∧
      Between { u with replies := s.replies } v ∧ WritesBytes xs v t

/-- The state in which the operator's answer has just ended the trap wait (43_debug.md R261, R262). -/
def State.answered (s : State) (resp : Answer) : State :=
  { s with
    trapWait := none, singleStepArmed := resp == .step
    replies := s.replies ++ [.trapReturned (resp == .other)] }

/-- Give a waiting machine the operator's answers in turn, as long as it goes on and still waits. -/
def answerAll : List Answer → Host.Outcome State Fault Refusal → Host.Outcome State Fault Refusal
  | r :: rs, .next s => if s.trapWait = none then .next s else answerAll rs (exec r.instr s)
  | _, o => o

end Sys2Proof.Machine
end

