-- ==== Sys2Proof/Certificates/Slice0/Obligations.lean ====
section
/-! DEFINITION. The statements for the provers. An equation `exec i s = .next { s with … }` gives the whole next state: what
it does not name is unchanged. -/

open Sys2Proof Sys2Proof.Machine

/-! ### Reset and bring-up -/

/-- 10_state.md R46: what bring-up leaves, at State.reset. The configuration and the ROM image are the model's choice
(logs 3 and 4); the zeros the source does not give are the spec's decision D10 (log 5). -/
def Obligations.ResetLeavesTheValuesOfBringUp : Prop :=
  (∀ k, State.reset.ram.read k = 0#8) ∧ State.reset.overlay = true
    ∧ State.reset.via.get 1 = State.reset.cfg.viaOraInit ∧ State.reset.via.get 1 = 0x10#8
    ∧ (∀ i : RegIdx, i ≠ 1 → State.reset.via.get i = 0#8)
    ∧ State.reset.via.irqEnable = 0#8 ∧ State.reset.via.irqActive = 0#8 ∧ State.reset.via.irqStatus = false
    ∧ State.reset.via.shiftPending = none
    ∧ (∀ i : RegIdx, State.reset.iwm[i.toNat]'i.isLt = 0#8)
    ∧ State.reset.singleStepArmed = false ∧ State.reset.trapWait = none ∧ State.reset.trace = []

/-- 70_reset_and_hazards.md R321 and 00_scope.md R7: exactly a configuration that passes `Config.wf` and an image of `ROM_SIZE`
bytes bring up a machine; its ROM is the image, byte for byte. `Config.wf` is R7 with what the model reads from the record
itself: three distinct IFR bits of 0 to 6, and a total `SR_MODE` (logs 13 and 15). Further checks of an image are left open
(log 17). -/
def Obligations.BringUpNeedsAGoodConfigAndARightSizedImage : Prop :=
  ∀ (cfg : Config) (image : List Byte),
    (cfg.wf = true ∧ image.length = cfg.romSize →
      ∃ s, bringUp cfg image = .ok s ∧ s.cfg = cfg ∧ s.overlay = true ∧ s.via.get 1 = cfg.viaOraInit
        ∧ (∀ k, s.ram.read k = 0#8) ∧ (∀ k (h : k < image.length), s.rom.read k = image[k]) ∧ s.trace = []) ∧
    (cfg.wf = false → bringUp cfg image = .error .badConfig) ∧
    (cfg.wf = true ∧ image.length ≠ cfg.romSize → bringUp cfg image = .error .wrongSizedRom)

/-- State.reset is the bring-up of the standard configuration with the all-zero image (logs 3 and 4). -/
def Obligations.BringUpOfTheZeroImageIsReset : Prop :=
  bringUp Config.standard (List.replicate 0x10000 0#8) = .ok State.reset

/-! ### Encoding -/

/-- 30_encoding.md R101, R108: decoding an encoded well-formed transaction gives it back, with every operand. -/
def Obligations.DecodeOfEncodeIsTheTransaction : Prop :=
  ∀ (cfg : Config) (overlay : Bool) (i : Instr), i.wf cfg overlay = true → decode cfg overlay (encode i) = .ok i

/-- The other direction: a frame that decodes is the frame of what it decodes to, and that is well-formed: the row's
conditions of spec/opcode_table.json hold. -/
def Obligations.EncodeOfDecodeIsTheFrame : Prop :=
  ∀ (cfg : Config) (overlay : Bool) (f : Frame) (i : Instr), decode cfg overlay f = .ok i →
    encode i = f ∧ i.wf cfg overlay = true

/-- 30_encoding.md R108: every decode word selects exactly one row of the table, for reads and for writes. -/
def Obligations.EveryDecodeWordSelectsExactlyOneRow : Prop :=
  ∀ (cfg : Config) (overlay : Bool) (a : BusAddr),
    (∃ i, (i.wf cfg overlay = true ∧ encode i = encodeRead a) ∧
      ∀ j, j.wf cfg overlay = true ∧ encode j = encodeRead a → j = i) ∧
    ∀ v, ∃ i, (i.wf cfg overlay = true ∧ encode i = encodeWrite a v) ∧
      ∀ j, j.wf cfg overlay = true ∧ encode j = encodeWrite a v → j = i

/-- Some decode words written out from 30_encoding.md R101 and the vectors of 95_test_vectors.md decode to their rows. -/
def Obligations.DecodeWordsOfTheVectorsSelectTheirRows : Prop :=
  decodeTableWord 32 0x0001234 = some (.romOvlRd 0x001234) ∧ decodeTableWord 32 0x0900000 = some (.sccRRd 0x900000)
    ∧ decodeTableWord 32 0x1900000 = some (.sccRWr 0x900000 0) ∧ decodeTableWord 32 0x1EFE7FE = some (.viaWrDdra 0xEFE7FE 0)
    ∧ decodeTableWord 32 0x0EFFBFE = some (.viaRdIfr 0xEFFBFE) ∧ decodeTableWord 32 0x0DFE1FE = some (.unmappedRd 0xDFE1FE)
    ∧ decodeTableWord 32 0x1DFE1FF = some (.iwmWr 0xDFE1FF 0) ∧ decodeTableWord 32 0x1010000 = some (.ramWr 0x010000 0)
    ∧ decodeTableWord 32 0x040FFFF = some (.romAliasRd 0x40FFFF)

/-- 20_memory.md R64: the address sets of the four fixed windows, that no two overlap, and that the decoder sends exactly
those sets there. -/
def Obligations.FixedWindowsAreTheStatedRangesAndDisjoint : Prop :=
  ∀ (cfg : Config) (overlay : Bool) (a : BusAddr),
    ((a &&& 0xF00000#24 = 0x900000#24) ↔ 0x900000 ≤ a.toNat ∧ a.toNat ≤ 0x9FFFFF) ∧
    ((a &&& 0xF00000#24 = 0xB00000#24) ↔ 0xB00000 ≤ a.toNat ∧ a.toNat ≤ 0xBFFFFF) ∧
    ((a &&& 0xE80000#24 = 0xE80000#24) ↔
      (0xE80000 ≤ a.toNat ∧ a.toNat ≤ 0xEFFFFF) ∨ (0xF80000 ≤ a.toNat ∧ a.toNat ≤ 0xFFFFFF)) ∧
    ((∃ i, decodeRegion cfg overlay a = .iwm i) ↔ 0xDFE1FF ≤ a.toNat ∧ a.toNat ≤ 0xE001FE) ∧
    (decodeRegion cfg overlay a = .sccR ↔ a &&& 0xF00000#24 = 0x900000#24) ∧
    (decodeRegion cfg overlay a = .sccW ↔ a &&& 0xF00000#24 = 0xB00000#24) ∧
    ((∃ i, decodeRegion cfg overlay a = .via i) ↔ a &&& 0xE80000#24 = 0xE80000#24)

/-- 30_encoding.md R105, R106: the address of each IWM index and of each VIA register, under every configuration; and R104:
only the window and `A[12:9]` select a register. -/
def Obligations.RegistersAreSelectedByBitsTwelveToNine : Prop :=
  ∀ (cfg : Config) (overlay : Bool),
    (∀ n : RegIdx, decodeRegion cfg overlay (0xDFE1FF#24 + 0x200#24 * n.setWidth 24) = .iwm n
      ∧ decodeRegion cfg overlay (0xEFE1FE#24 + 0x200#24 * n.setWidth 24) = .via n) ∧
    ∀ a b : BusAddr, a >>> 9 &&& 0xF#24 = b >>> 9 &&& 0xF#24 →
      (a &&& 0xE80000#24 = 0xE80000#24 → b &&& 0xE80000#24 = 0xE80000#24 →
        decodeRegion cfg overlay a = decodeRegion cfg overlay b) ∧
      (0xDFE1FF ≤ a.toNat ∧ a.toNat ≤ 0xE001FE → 0xDFE1FF ≤ b.toNat ∧ b.toNat ≤ 0xE001FE →
        decodeRegion cfg overlay a = decodeRegion cfg overlay b)

/-! ### The byte rows of ROM, RAM, unmapped addresses and the SCC -/

/-- 40_bus.md R148: a RAM read answers the byte and changes nothing else, as the row and as `read_byte`. -/
def Obligations.RamReadsAnswerTheStoredByte : Prop :=
  ∀ s : State, s.Ready →
    (∀ a : BusAddr, exec (.ramRd a) s = .next { s with replies := s.replies ++ [.u8 (s.ram.read a.toNat)] }) ∧
    ∀ addr off, s.region addr = .ram off →
      off = (busAddr addr).toNat ∧ exec (.rb addr) s = .next { s with replies := s.replies ++ [.u8 (s.ram.read off)] }

/-- 40_bus.md R147: a RAM write stores the byte, and nothing else changes: every other byte reads as before, as the row and as
`write_byte`. -/
def Obligations.RamWritesStoreTheByte : Prop :=
  ∀ s : State, s.Ready → s.ram.wf = true →
    (∀ (a : BusAddr) (v : Byte), ∃ m : Memory,
      exec (.ramWr a v) s = .next { s with ram := m, replies := s.replies ++ [.done] }
        ∧ m.wf = true ∧ m.read a.toNat = v ∧ ∀ k, k ≠ a.toNat → m.read k = s.ram.read k) ∧
    ∀ (addr : Long) (off : Nat) (v : Byte), s.region addr = .ram off → ∃ m : Memory,
      exec (.wb addr v) s = .next { s with ram := m, replies := s.replies ++ [.done] }
        ∧ m.wf = true ∧ m.read off = v ∧ ∀ k, k ≠ off → m.read k = s.ram.read k

/-- 40_bus.md R145, R146: ROM reads, through the overlay and through the alias, answer `ROM[A]` and `ROM[A - ROM_ALIAS_BASE]`;
nothing else changes. -/
def Obligations.RomReadsAnswerTheImageByte : Prop :=
  ∀ s : State, s.Ready → ∀ a : BusAddr,
    exec (.romOvlRd a) s = .next { s with replies := s.replies ++ [.u8 (s.rom.read a.toNat)] } ∧
    exec (.romAliasRd a) s = .next { s with replies := s.replies ++ [.u8 (s.rom.read (a.toNat - s.cfg.romAliasBase))] }

/-- 40_bus.md R149 (the order is D26): a ROM write logs, then traps under the interactive sink, or returns at once under the
no-op sink (43_debug.md R267); either way no byte of ROM or RAM and no other state changes. -/
def Obligations.RomWritesAreLoggedTrappedAndDropped : Prop :=
  ∀ (s : State) (a : BusAddr) (v : Byte), s.Ready → ∀ i ∈ [Instr.romOvlWr a v, Instr.romAliasWr a v],
    (s.cfg.debugSink = .noop →
      exec i s = .next { s with trace := s.trace ++ [.diag .romWrite a], replies := s.replies ++ [.done] }) ∧
    (s.cfg.debugSink = .interactive →
      exec i s = .next { s with
        trace := s.trace ++ [.diag .romWrite a, .trap (s.display .romWrite (a.setWidth 32))]
        queries := s.queries + 2 + s.cfg.cpuRegIds.length
        trapWait := some { label := .romWrite, addr := a.setWidth 32, resume := .write [] } })

/-- 40_bus.md R153: an unmapped read logs, answers 0xFF, and changes no state; there is no trap. -/
def Obligations.UnmappedReadsAnswerAllOnes : Prop :=
  ∀ s : State, s.Ready → ∀ a : BusAddr,
    exec (.unmappedRd a) s = .next { s with
      trace := s.trace ++ [.diag .unmappedRead a], replies := s.replies ++ [.u8 0xFF#8] }

/-- 40_bus.md R154: an unmapped write logs and changes no state; there is no trap. -/
def Obligations.UnmappedWritesAreDropped : Prop :=
  ∀ s : State, s.Ready → ∀ (a : BusAddr) (v : Byte),
    exec (.unmappedWr a v) s = .next { s with
      trace := s.trace ++ [.diag .unmappedWrite a], replies := s.replies ++ [.done] }

/-- 40_bus.md R150, R151 (D4, D26): every byte access of an SCC window logs, then traps with the window's label; under the
no-op sink a read answers 0xFF and a write is dropped at once. -/
def Obligations.SccAccessesAreLoggedAndTrap : Prop :=
  ∀ (s : State) (a : BusAddr) (v : Byte), s.Ready →
    (s.cfg.debugSink = .noop →
      (∀ i ∈ [Instr.sccRRd a, Instr.sccWRd a],
        exec i s = .next { s with trace := s.trace ++ [.diag .sccAccess a], replies := s.replies ++ [.u8 0xFF#8] }) ∧
      ∀ i ∈ [Instr.sccRWr a v, Instr.sccWWr a v],
        exec i s = .next { s with trace := s.trace ++ [.diag .sccAccess a], replies := s.replies ++ [.done] }) ∧
    (s.cfg.debugSink = .interactive →
      ∀ x ∈ [(Instr.sccRRd a, TrapLabel.sccRead, Resume.read .byte 0 []), (Instr.sccRWr a v, TrapLabel.sccRead, Resume.write []),
        (Instr.sccWRd a, TrapLabel.sccWrite, Resume.read .byte 0 []), (Instr.sccWWr a v, TrapLabel.sccWrite, Resume.write [])],
        exec x.1 s = .next { s with
          trace := s.trace ++ [.diag .sccAccess a, .trap (s.display x.2.1 (a.setWidth 32))]
          queries := s.queries + 2 + s.cfg.cpuRegIds.length
          trapWait := some { label := x.2.1, addr := a.setWidth 32, resume := x.2.2 } })

/-- 43_debug.md R263 and 60_exceptions.md R281: after the operator's answer, whichever it is, an access that an SCC or ROM-write
trap stopped completes: the read answers 0xFF, the write is dropped. -/
def Obligations.AnAnsweredAccessCompletesWithItsSentinel : Prop :=
  ∀ (s : State) (label : TrapLabel) (addr : Long) (resp : Answer), s.consumers = .quiet →
    (s.trapWait = some { label := label, addr := addr, resume := .read .byte 0 [] } →
      exec resp.instr s = .next { s with
        trapWait := none, singleStepArmed := resp == .step
        replies := s.replies ++ [.trapReturned (resp == .other), .u8 0xFF#8] }) ∧
    (s.trapWait = some { label := label, addr := addr, resume := .write [] } →
      exec resp.instr s = .next { s with
        trapWait := none, singleStepArmed := resp == .step
        replies := s.replies ++ [.trapReturned (resp == .other), .done] })

/-! ### The IWM -/

/-- 42_iwm.md R241: the two sense indices answer their constants, whatever is stored; every other index answers its stored
byte. No read changes any state. The hypotheses are the rows' own conditions. -/
def Obligations.IwmReadsAnswerSenseOrStoredByte : Prop :=
  ∀ (s : State) (a : BusAddr), s.Ready →
    (regIndex a = s.cfg.iwmSenseOnes →
      exec (.iwmRdSenseOnes a) s = .next { s with replies := s.replies ++ [.u8 0xFF#8] }) ∧
    (regIndex a = s.cfg.iwmSenseNib → regIndex a ≠ s.cfg.iwmSenseOnes →
      exec (.iwmRdSenseNib a) s = .next { s with replies := s.replies ++ [.u8 s.cfg.iwmSenseNibVal] }) ∧
    (regIndex a ≠ s.cfg.iwmSenseOnes → regIndex a ≠ s.cfg.iwmSenseNib →
      exec (.iwmRd a) s = .next { s with
        replies := s.replies ++ [.u8 (s.iwm[(regIndex a).toNat]'(regIndex a).isLt)] })

/-- 42_iwm.md R240, R243: a write stores into its slot, sense slots included, and logs an index with no known meaning; every
other slot and all other state keeps its value. -/
def Obligations.IwmWritesStoreAndLogUnknownIndices : Prop :=
  ∀ (s : State) (a : BusAddr) (v : Byte), s.Ready → ∃ slots : Vector Byte 16,
    exec (.iwmWr a v) s = .next { s with
      iwm := slots
      trace := s.trace ++ (if regIndex a ∈ s.cfg.iwmKnown then [] else [.diag .iwmUnhandled a])
      replies := s.replies ++ [.done] } ∧
    ∀ i : RegIdx, slots[i.toNat]'i.isLt = if i = regIndex a then v else s.iwm[i.toNat]'i.isLt

/-! ### VIA reads -/

/-- 41_via.md R182: a read of a plain register, the six inert timer bytes included, answers the stored byte and changes
nothing. -/
def Obligations.PlainViaReadsAnswerTheStoredByte : Prop :=
  ∀ (s : State) (a : BusAddr), s.Ready → s.via.Settled →
    ∀ x ∈ [(Instr.viaRdDdrb a, (2 : RegIdx)), (Instr.viaRdDdra a, 3), (Instr.viaRdT1cl a, 4), (Instr.viaRdT1ch a, 5),
      (Instr.viaRdT1ll a, 6), (Instr.viaRdT1lh a, 7), (Instr.viaRdT2cl a, 8), (Instr.viaRdT2ch a, 9), (Instr.viaRdAcr a, 11),
      (Instr.viaRdPcr a, 12)],
      exec x.1 s = .next { s with replies := s.replies ++ [.u8 (s.via.get x.2)] }

/-- 41_via.md R180, R181 and 10_state.md R36 (the polarity is D11): a port read takes one draw and answers the output register
where the data direction bit is 1 and the draw elsewhere; both port-A indices read the same cells. The draw is 0x00 with no
provider fitted, the next supplied byte if there is one, and a free value otherwise. Only the port's input side changes. -/
def Obligations.PortReadsComposeDrivenAndInputBits : Prop :=
  ∀ (s : State) (a : BusAddr), s.Ready → s.via.Settled →
    (∃ (input out : Byte) (p : PortInput),
      (∀ i ∈ [Instr.viaRdOra a, Instr.viaRdOraAlias a],
        exec i s = .next { s with portA := p, replies := s.replies ++ [.u8 out] }) ∧
      (∀ k, k < 8 → out.getLsbD k = if (s.via.get 3).getLsbD k then (s.via.get 1).getLsbD k else input.getLsbD k) ∧
      (s.cfg.portAFitted = false → input = 0#8 ∧ p = s.portA) ∧
      (∀ b bs, s.cfg.portAFitted = true → s.portA.supply = b :: bs → input = b ∧ p = { s.portA with supply := bs }) ∧
      (s.cfg.portAFitted = true → s.portA.supply = [] →
        input = Config.freePortA s.portA.draws ∧ p = { s.portA with draws := s.portA.draws + 1 })) ∧
    (∃ (input out : Byte) (p : PortInput),
      exec (.viaRdOrb a) s = .next { s with portB := p, replies := s.replies ++ [.u8 out] } ∧
      (∀ k, k < 8 → out.getLsbD k = if (s.via.get 2).getLsbD k then (s.via.get 0).getLsbD k else input.getLsbD k) ∧
      (s.cfg.portBFitted = false → input = 0#8 ∧ p = s.portB) ∧
      (∀ b bs, s.cfg.portBFitted = true → s.portB.supply = b :: bs → input = b ∧ p = { s.portB with supply := bs }) ∧
      (s.cfg.portBFitted = true → s.portB.supply = [] →
        input = Config.freePortB s.portB.draws ∧ p = { s.portB with draws := s.portB.draws + 1 }))

/-- 41_via.md R183: an SR read answers the stored byte and clears its source; the byte pending stays pending; `IrqLevel` is
emitted if the level changes. -/
def Obligations.SrReadsClearTheirSource : Prop :=
  ∀ (s : State) (a : BusAddr), s.Ready → s.via.Settled →
    ∃ via : Via,
      exec (.viaRdSr a) s = .next { s with
        via := { via with irqStatus := via.level }
        trace := s.trace ++ levelChange s.via.irqStatus via
        replies := s.replies ++ [.u8 (s.via.get 10)] } ∧
      via = { s.via with irqActive := via.irqActive } ∧
      ∀ k, k < 8 → via.irqActive.getLsbD k = (s.via.irqActive.getLsbD k && decide (k ≠ s.cfg.ifrSr))

/-- 41_via.md R184, R185: IFR reads as the latched sources with bit 7 the aggregate level, IER as the enables with bit 7 set;
neither changes any state. Bit 7 of `irq_active` is never latched (10_state.md R27; a part of `State.Inv`). -/
def Obligations.IfrAndIerReadAsComputed : Prop :=
  ∀ (s : State) (a : BusAddr), s.Ready → s.via.Settled → s.via.irqActive.getLsbD 7 = false →
    ∃ ifr ier : Byte,
      exec (.viaRdIfr a) s = .next { s with replies := s.replies ++ [.u8 ifr] } ∧
      exec (.viaRdIer a) s = .next { s with replies := s.replies ++ [.u8 ier] } ∧
      (∀ k, k < 7 → ifr.getLsbD k = s.via.irqActive.getLsbD k ∧ ier.getLsbD k = s.via.irqEnable.getLsbD k) ∧
      ier.getLsbD 7 = true ∧
      (ifr.getLsbD 7 = true ↔ ∃ k, k < 7 ∧ s.via.irqEnable.getLsbD k = true ∧ s.via.irqActive.getLsbD k = true)

/-! ### VIA writes -/

/-- 41_via.md R192: a write of a plain register stores the byte, emits nothing, and changes nothing else. -/
def Obligations.PlainViaWritesStoreTheByte : Prop :=
  ∀ (s : State) (a : BusAddr) (v : Byte), s.Ready → s.via.Settled →
    ∀ x ∈ [(Instr.viaWrDdrb a v, (2 : RegIdx)), (Instr.viaWrDdra a v, 3), (Instr.viaWrT1cl a v, 4), (Instr.viaWrT1ch a v, 5),
      (Instr.viaWrT1ll a v, 6), (Instr.viaWrT1lh a v, 7), (Instr.viaWrT2cl a v, 8), (Instr.viaWrT2ch a v, 9),
      (Instr.viaWrAcr a v, 11), (Instr.viaWrPcr a v, 12)],
      ∃ via : Via, exec x.1 s = .next { s with via := via, replies := s.replies ++ [.done] } ∧
        via = { s.via with regs := via.regs } ∧ ∀ i : RegIdx, via.get i = if i = x.2 then v else s.via.get i

/-- 41_via.md R190 with the remap of 40_bus.md R155 (the trigger and the bit are D9): a port-A write, through either index,
emits `PortAChanged` exactly if the value differs, clears the overlay if it then has `OVERLAY_BIT` clear, and stores into the
one cell of index 1. -/
def Obligations.PortAWritesNotifyRemapAndStore : Prop :=
  ∀ (s : State) (a : BusAddr) (v : Byte), s.Ready → s.via.Settled →
    ∃ via : Via, via = { s.via with regs := via.regs } ∧ (∀ i : RegIdx, via.get i = if i = 1 then v else s.via.get i) ∧
      ∀ i ∈ [Instr.viaWrOra a v, Instr.viaWrOraAlias a v],
        exec i s = .next { s with
          via := via
          overlay := s.overlay && (v == s.via.get 1 || v.getLsbD s.cfg.overlayBit)
          trace := s.trace ++ (if v = s.via.get 1 then [] else [.portAChanged v])
          replies := s.replies ++ [.done] }

/-- 41_via.md R191: a port-B write emits `PortBChanged` exactly if the value differs, and stores; the overlay stays. -/
def Obligations.PortBWritesNotifyAndStore : Prop :=
  ∀ (s : State) (a : BusAddr) (v : Byte), s.Ready → s.via.Settled →
    ∃ via : Via, via = { s.via with regs := via.regs } ∧ (∀ i : RegIdx, via.get i = if i = 0 then v else s.via.get i) ∧
      exec (.viaWrOrb a v) s = .next { s with
        via := via
        trace := s.trace ++ (if v = s.via.get 0 then [] else [.portBChanged v])
        replies := s.replies ++ [.done] }

/-- 41_via.md R193 to R195: an SR write by the mode the ACR selects. In mode OUT the byte is queued, over a byte pending and
logging that, and the source is latched; `regs[10]` keeps its value. In mode IN_OR_DISABLED `regs[10]` is cleared. In the
other modes nothing changes. -/
def Obligations.SrWritesFollowTheShiftMode : Prop :=
  ∀ (s : State) (a : BusAddr) (v : Byte), s.Ready → s.via.Settled →
    (srMode s.cfg (s.via.get 11) = .out → ∃ via : Via,
      exec (.viaWrSr a v) s = .next { s with
        via := { via with irqStatus := via.level }
        trace := s.trace ++ (if s.via.shiftPending = none then [] else [.diag .srOverrun a]) ++ levelChange s.via.irqStatus via
        replies := s.replies ++ [.done] } ∧
      via = { s.via with irqActive := via.irqActive, shiftPending := some v } ∧
      ∀ k, k < 8 → via.irqActive.getLsbD k = (s.via.irqActive.getLsbD k || decide (k = s.cfg.ifrSr))) ∧
    (srMode s.cfg (s.via.get 11) = .inOrDisabled → ∃ via : Via,
      exec (.viaWrSr a v) s = .next { s with via := via, replies := s.replies ++ [.done] } ∧
      via = { s.via with regs := via.regs } ∧ ∀ i : RegIdx, via.get i = if i = 10 then 0#8 else s.via.get i) ∧
    (srMode s.cfg (s.via.get 11) = .inExt ∨ srMode s.cfg (s.via.get 11) = .other →
      exec (.viaWrSr a v) s = .next { s with replies := s.replies ++ [.done] })

/-- 30_encoding.md R115 (D14): the default shift mode is chosen by ACR bits 4:3 alone. -/
def Obligations.DefaultShiftModeIsAcrBitsFourAndThree : Prop :=
  ∀ (cfg : Config) (acr : Byte), cfg.srDecode = .acrBits43 →
    srMode cfg acr =
      match acr.getLsbD 4, acr.getLsbD 3 with
      | true, false => .out
      | false, false => .inOrDisabled
      | false, true => .inExt
      | true, true => .other

/-- 41_via.md R196: an IFR write clears the sources it acknowledges, those active whose bit in `v` is set; if the shift register
is among them, a pending byte is consumed and transmitted, before any `IrqLevel`. -/
def Obligations.IfrWritesAcknowledgeAndTransmit : Prop :=
  ∀ (s : State) (a : BusAddr) (v : Byte), s.Ready → s.via.Settled → s.cfg.ifrSr ≤ 6 →
    ∃ via : Via,
      (∀ k, k < 8 → via.irqActive.getLsbD k = (s.via.irqActive.getLsbD k && !(v.getLsbD k && decide (k < 7)))) ∧
      (v.getLsbD s.cfg.ifrSr = true → s.via.irqActive.getLsbD s.cfg.ifrSr = true → ∀ b, s.via.shiftPending = some b →
        via = { s.via with irqActive := via.irqActive, shiftPending := none } ∧
        exec (.viaWrIfr a v) s = .next { s with
          via := { via with irqStatus := via.level }
          trace := s.trace ++ [.shiftTx b] ++ levelChange s.via.irqStatus via
          replies := s.replies ++ [.done] }) ∧
      (v.getLsbD s.cfg.ifrSr = false ∨ s.via.irqActive.getLsbD s.cfg.ifrSr = false ∨ s.via.shiftPending = none →
        via = { s.via with irqActive := via.irqActive } ∧
        exec (.viaWrIfr a v) s = .next { s with
          via := { via with irqStatus := via.level }
          trace := s.trace ++ levelChange s.via.irqStatus via
          replies := s.replies ++ [.done] })

/-- 41_via.md R197: an IER write sets the enables its low seven bits name if its bit 7 is 1, and clears them if it is 0; bit 7
of the enables keeps its value. -/
def Obligations.IerWritesSetOrClearEnables : Prop :=
  ∀ (s : State) (a : BusAddr) (v : Byte), s.Ready → s.via.Settled →
    ∃ via : Via,
      exec (.viaWrIer a v) s = .next { s with
        via := { via with irqStatus := via.level }
        trace := s.trace ++ levelChange s.via.irqStatus via
        replies := s.replies ++ [.done] } ∧
      via = { s.via with irqEnable := via.irqEnable } ∧
      (∀ k, k < 7 → via.irqEnable.getLsbD k = if v.getLsbD k then v.getLsbD 7 else s.via.irqEnable.getLsbD k) ∧
      via.irqEnable.getLsbD 7 = s.via.irqEnable.getLsbD 7

/-! ### VIA events -/

/-- 41_via.md R211, R212 (the bits are D13): an edge latches its line's source, whatever the PCR holds (R213), during a trap
wait too (60_exceptions.md R296); `IrqLevel` is emitted if the level changes. -/
def Obligations.EdgesLatchTheirSource : Prop :=
  ∀ s : State, s.consumers = .quiet → s.via.Settled →
    ∀ x ∈ [(Instr.viaEdge1, s.cfg.ifrCa1), (Instr.viaEdge2, s.cfg.ifrCa2)],
      ∃ via : Via,
        exec x.1 s = .next { s with
          via := { via with irqStatus := via.level }, trace := s.trace ++ levelChange s.via.irqStatus via } ∧
        via = { s.via with irqActive := via.irqActive } ∧
        ∀ k, k < 8 → via.irqActive.getLsbD k = (s.via.irqActive.getLsbD k || decide (k = x.2))

/-- 41_via.md R214 (the discarding is D17): a received byte is accepted in mode IN_EXT only: it is stored and the source is
latched. In every other mode it is logged and lost. -/
def Obligations.ReceivedBytesAreAcceptedInExternalModeOnly : Prop :=
  ∀ (s : State) (b : Byte), s.consumers = .quiet → s.via.Settled →
    (srMode s.cfg (s.via.get 11) = .inExt → ∃ via : Via,
      exec (.viaRxsr b) s = .next { s with
        via := { via with irqStatus := via.level }, trace := s.trace ++ levelChange s.via.irqStatus via } ∧
      via = { s.via with regs := via.regs, irqActive := via.irqActive } ∧
      (∀ i : RegIdx, via.get i = if i = 10 then b else s.via.get i) ∧
      ∀ k, k < 8 → via.irqActive.getLsbD k = (s.via.irqActive.getLsbD k || decide (k = s.cfg.ifrSr))) ∧
    (srMode s.cfg (s.via.get 11) ≠ .inExt →
      exec (.viaRxsr b) s = .next { s with trace := s.trace ++ [.diag .srRxIgnored 0] })

/-- 41_via.md R215: the reassessment sets the status to the aggregate level, and emits `IrqLevel` of it exactly if it changed. -/
def Obligations.ReassessmentEmitsExactlyOnAChange : Prop :=
  ∀ s : State, s.consumers = .quiet →
    (s.via.level = s.via.irqStatus → reassess s = s) ∧
    (s.via.level ≠ s.via.irqStatus →
      reassess s = { s with
        via := { s.via with irqStatus := s.via.level }, trace := s.trace ++ [.irqLevel s.via.level] })

/-- MACEMU §8 by 41_via.md R193, R196: after a byte is queued in mode OUT, which transmits nothing, an acknowledgement of the shift
register transmits it, and a second acknowledgement emits nothing: over the three transactions, exactly once. -/
def Obligations.AQueuedByteIsTransmittedExactlyOnce : Prop :=
  ∀ (s : State) (a : BusAddr) (b v : Byte), s.Ready → s.via.Settled → s.cfg.ifrSr ≤ 6 →
    srMode s.cfg (s.via.get 11) = .out → v.getLsbD s.cfg.ifrSr = true →
    ∃ t0 t1 t2 : State, exec (.viaWrSr a b) s = .next t0 ∧ exec (.viaWrIfr a v) t0 = .next t1 ∧ exec (.viaWrIfr a v) t1 = .next t2 ∧
      (∃ earlier, t0.trace = s.trace ++ earlier ∧ ∀ c, Event.shiftTx c ∉ earlier) ∧
      (∃ later, t1.trace = t0.trace ++ Event.shiftTx b :: later ∧ ∀ c, Event.shiftTx c ∉ later) ∧ t2.trace = t1.trace

/-- 41_via.md R216, U9: whichever transaction emits the VIA output event whose consumer re-enters the VIA, be it
`PortAChanged`, `PortBChanged`, `ShiftTx` or `IrqLevel`, it ends in the fault REENTRANT_VIA; a transaction that emits too few
events to reach that consumer does what it does under quiet consumers. For the port writes, the events are spelled out. -/
def Obligations.ReentrantConsumersFault : Prop :=
  (∀ (s t : State) (i : Instr) (new : List Event) (n : Nat),
    s.consumers = .quiet → exec i s = .next t → t.trace = s.trace ++ new →
    (n < new.countP Event.isVia → exec i { s with consumers := .reenterAfter n } = .fault .reentrantVia) ∧
    (new.countP Event.isVia ≤ n →
      exec i { s with consumers := .reenterAfter n } = .next { t with consumers := .reenterAfter (n - new.countP Event.isVia) })) ∧
  ∀ (s : State) (a : BusAddr) (v : Byte), s.trapWait = none → s.via.Settled → s.consumers = .reenterAfter 0 →
    (v ≠ s.via.get 0 → exec (.viaWrOrb a v) s = .fault .reentrantVia) ∧
    (v ≠ s.via.get 1 → exec (.viaWrOra a v) s = .fault .reentrantVia ∧ exec (.viaWrOraAlias a v) s = .fault .reentrantVia) ∧
    (v = s.via.get 0 → ∃ t, exec (.viaWrOrb a v) s = .next t)

/-! ### The ABI calls -/

/-- 40_bus.md R141, R142, R160, R163 through the decoder of 30_encoding.md R121: `read_byte` and `write_byte` are the row the
decode word selects, in every state. -/
def Obligations.ByteCallsAreTheRowTheyDecodeTo : Prop :=
  ∀ (s : State) (addr : Long) (v : Byte),
    exec (.rb addr) s = exec (readRow s.cfg s.overlay (busAddr addr)) s ∧
    exec (.wb addr v) s = exec (writeRow s.cfg s.overlay (busAddr addr) v) s

/-- 40_bus.md R140, R161 and 20_memory.md R67, R71, R81: where no byte traps, `read_word` is the two byte reads, composed
big-endian, whatever regions the bytes lie in, with what other agents do between them. -/
def Obligations.WordReadsComposeTwoByteReads : Prop :=
  ∀ (s t0 u t1 : State) (addr : Long), s.Ready →
    exec (.rb addr) s = .next t0 → t0.trapWait = none → Between t0 u → exec (.rb (addr + 1)) u = .next t1 → t1.trapWait = none →
    ∃ b0 b1 : Byte, t1.replies = s.replies ++ [.u8 b0, .u8 b1] ∧
      exec (.rw addr) s = .next { t1 with replies := s.replies ++ [.u16 (b0 ++ b1)] }

/-- 40_bus.md R162: `read_long(a)` is `(read_word(a) << 16) | read_word(a + 2)`, under the same conditions. -/
def Obligations.LongReadsComposeTwoWordReads : Prop :=
  ∀ (s t0 u t1 : State) (addr : Long), s.Ready →
    exec (.rw addr) s = .next t0 → t0.trapWait = none → Between t0 u → exec (.rw (addr + 2)) u = .next t1 → t1.trapWait = none →
    ∃ w0 w1 : Half, t1.replies = s.replies ++ [.u16 w0, .u16 w1] ∧
      exec (.rl addr) s = .next { t1 with replies := s.replies ++ [.u32 (w0 ++ w1)] }

/-- 40_bus.md R143, R164, R165: where no byte traps, `write_word` is the two byte writes, high byte first, and `write_long` the two
word writes, high word first, with what other agents do between them (20_memory.md R71, R81). -/
def Obligations.WideWritesDecomposeHighHalfFirst : Prop :=
  ∀ (s t0 u t1 : State) (addr : Long), s.Ready → t0.trapWait = none → Between t0 u → t1.trapWait = none →
    (∀ hi lo : Byte, exec (.wb addr hi) s = .next t0 → exec (.wb (addr + 1) lo) u = .next t1 →
      exec (.ww addr (hi ++ lo)) s = .next { t1 with replies := s.replies ++ [.done] }) ∧
    (∀ hi lo : Half, exec (.ww addr hi) s = .next t0 → exec (.ww (addr + 2) lo) u = .next t1 →
      exec (.wl addr (hi ++ lo)) s = .next { t1 with replies := s.replies ++ [.done] })

/-- 20_memory.md R67, R70 and 40_bus.md R161, R162: a word or long whose bytes all lie in ROM or RAM, at any alignment and across
the two, reads big-endian and changes nothing. -/
def Obligations.WideReadsOfStoredBytesAreBigEndian : Prop :=
  ∀ (s : State) (addr : Long) (b0 b1 : Byte), s.Ready → s.agenda = [] →
    s.stored addr = some b0 → s.stored (addr + 1) = some b1 →
    exec (.rw addr) s = .next { s with replies := s.replies ++ [.u16 (b0 ++ b1)] } ∧
    ∀ b2 b3 : Byte, s.stored (addr + 2) = some b2 → s.stored (addr + 3) = some b3 →
      exec (.rl addr) s = .next { s with replies := s.replies ++ [.u32 (b0 ++ b1 ++ b2 ++ b3)] }

/-- 40_bus.md R164, R165: a word or long written to RAM lies there big-endian: its most significant byte at the lowest address;
every other byte of RAM, and all other state, keeps its value. -/
def Obligations.WideWritesToRamAreBigEndian : Prop :=
  ∀ (s : State) (addr : Long) (k0 k1 : Nat), s.Ready → s.agenda = [] → s.ram.wf = true →
    s.region addr = .ram k0 → s.region (addr + 1) = .ram k1 →
    (∀ hi lo : Byte, ∃ m : Memory,
      exec (.ww addr (hi ++ lo)) s = .next { s with ram := m, replies := s.replies ++ [.done] } ∧
      m.read k0 = hi ∧ m.read k1 = lo ∧ ∀ k, k ≠ k0 → k ≠ k1 → m.read k = s.ram.read k) ∧
    ∀ k2 k3, s.region (addr + 2) = .ram k2 → s.region (addr + 3) = .ram k3 →
      ∀ b0 b1 b2 b3 : Byte, ∃ m : Memory,
        exec (.wl addr (b0 ++ b1 ++ b2 ++ b3)) s = .next { s with ram := m, replies := s.replies ++ [.done] } ∧
        m.read k0 = b0 ∧ m.read k1 = b1 ∧ m.read k2 = b2 ∧ m.read k3 = b3 ∧
        ∀ k, k ≠ k0 → k ≠ k1 → k ≠ k2 → k ≠ k3 → m.read k = s.ram.read k

/-- 40_bus.md R162 and 60_exceptions.md R286: a long read in the SCC read window traps four times, once per byte in address order,
and answers 0xFFFFFFFF after the fourth answer, whatever the answers: that it goes on past STEP too is 43_debug.md R263, by
the spec's own decision D24 (log 33). -/
def Obligations.SccLongReadsTrapOncePerByte : Prop :=
  ∀ (s : State) (addr : Long) (r0 r1 r2 r3 : Answer), s.Ready → s.agenda = [] → s.cfg.debugSink = .interactive →
    (∀ k : Nat, k < 4 → s.region (addr + BitVec.ofNat 32 k) = .sccR) →
    ∃ t0 t1 t2 t3 t4 : State,
      exec (.rl addr) s = .next t0 ∧ exec r0.instr t0 = .next t1 ∧ exec r1.instr t1 = .next t2 ∧ exec r2.instr t2 = .next t3 ∧
      exec r3.instr t3 = .next t4 ∧
      (∀ x ∈ [(t0, (0 : Long)), (t1, 1), (t2, 2), (t3, 3)], ∃ w, x.1.trapWait = some w ∧ w.label = .sccRead
        ∧ w.addr = (busAddr (addr + x.2)).setWidth 32) ∧
      t4.trapWait = none ∧ t4.singleStepArmed = (r3 == .step) ∧
      t4.replies = s.replies ++ [.trapReturned (r0 == .other), .trapReturned (r1 == .other), .trapReturned (r2 == .other),
        .trapReturned (r3 == .other), .u32 0xFFFFFFFF#32] ∧
      t4.via = s.via ∧ t4.ram = s.ram ∧ t4.rom = s.rom ∧ t4.iwm = s.iwm ∧ t4.overlay = s.overlay

/-- 40_bus.md R144, 60_exceptions.md R280: no call of the CPU ends in an error: in every state that can take a call, every one of
them has a next state, and has then either returned or stopped in a trap. -/
def Obligations.NoCallEndsInAnError : Prop :=
  ∀ (s : State) (i : Instr), s.Ready → i.agent = .cpu →
    ∃ t, exec i s = .next t ∧ t.consumers = .quiet ∧
      ((∃ r, t.trapWait = none ∧ t.replies = s.replies ++ [r]) ∨
        ∃ w, t.trapWait = some w ∧ t.replies = s.replies)

/-- 70_reset_and_hazards.md R332, 60_exceptions.md R292: a call is stopped by at most four traps, so four answers end it, whatever
they are: that it goes on past STEP too is 43_debug.md R263, by the spec's own decision D24 (log 33). -/
def Obligations.AnsweredCallsEnd : Prop :=
  ∀ (s : State) (i : Instr) (r0 r1 r2 r3 : Answer), s.Ready → i.agent = .cpu →
    ∃ t, answerAll [r0, r1, r2, r3] (exec i s) = .next t ∧ t.trapWait = none

/-- 20_memory.md R81, R329: the renderer may see a word write torn: between the two byte writes it reads the new high byte and the
old low byte. -/
def Obligations.TheRendererMaySeeATornWord : Prop :=
  ∀ (s : State) (addr : Long) (k i : Nat) (hi lo : Byte), s.Ready → s.ram.wf = true →
    s.region addr = .ram k → s.region (addr + 1) = .ram (k + 1) →
    s.agenda = [[.render i, .render (i + 1)]] → s.cfg.fbBase + i = k → i + 1 < s.cfg.fbBytes → k + 1 < s.cfg.ramSize →
    ∃ t, exec (.ww addr (hi ++ lo)) s = .next t ∧
      t.trace = s.trace ++ [.rendered i hi, .rendered (i + 1) (s.ram.read (k + 1))]
      ∧ t.ram.read k = hi ∧ t.ram.read (k + 1) = lo

/-! ### The DebugBridge -/

/-- 43_debug.md R264: a hook with the flag clear, or under the no-op sink (R267), has no effect; with the flag set it traps
SINGLE_STEP at its pc, and the answer sets the flag (R262) and lets the instruction go, after STEP too (R263, by the spec's own
decision D24, log 33). What that trap shows, as every trap does (R261): its label and address, the CPU's answers for the PC, for
the disassembly at it, and for every register id in order (the answers are free values, log 8). -/
def Obligations.HooksTrapWhileArmed : Prop :=
  (∀ (s : State) (pc : Long), s.Ready →
    (s.singleStepArmed = false ∨ s.cfg.debugSink = .noop →
      exec (.hook pc) s = .next { s with replies := s.replies ++ [.done] }) ∧
    (s.singleStepArmed = true → s.cfg.debugSink = .interactive →
      ∃ t, exec (.hook pc) s = .next t ∧
        t = { s with
          trace := s.trace ++ [.trap (s.display .singleStep pc)]
          queries := s.queries + 2 + s.cfg.cpuRegIds.length
          trapWait := some { label := .singleStep, addr := pc, resume := .hook } } ∧
        ∀ resp : Answer, exec resp.instr t = .next { t with
          trapWait := none, singleStepArmed := resp == .step
          replies := t.replies ++ [.trapReturned (resp == .other), .done] })) ∧
  ∀ (s : State) (label : TrapLabel) (addr : Long),
    (s.display label addr).label = label ∧ (s.display label addr).addr = addr ∧
    (s.display label addr).pc = Config.cpuRegister s.queries s.cfg.cpuPcId ∧
    (s.display label addr).text = Config.cpuDisassembly (s.queries + 1) (Config.cpuRegister s.queries s.cfg.cpuPcId) ∧
    (s.display label addr).regs.length = s.cfg.cpuRegIds.length ∧
    ∀ (k id : Nat), s.cfg.cpuRegIds[k]? = some id →
      (s.display label addr).regs[k]? = some (id, Config.cpuRegister (s.queries + 2 + k) id)

/-- 43_debug.md R262: STEP arms single-step and `Trap` returns false; OTHER disarms it and `Trap` returns true, whatever the
stopped call was. (How that call goes on: StoppedCallsGoOnWithTheirOtherBytes.) -/
def Obligations.AnswersSetTheSingleStepFlag : Prop :=
  ∀ (s : State) (w : TrapWait), s.consumers = .quiet → s.trapWait = some w →
    (∃ t more, exec .answerStep s = .next t ∧ t.singleStepArmed = true
      ∧ t.replies = s.replies ++ Reply.trapReturned false :: more) ∧
    (∃ t more, exec .answerOther s = .next t ∧ t.singleStepArmed = false
      ∧ t.replies = s.replies ++ Reply.trapReturned true :: more)

/-- U20: an answer when no trap waits is refused. -/
def Obligations.AnswersNeedAWaitingTrap : Prop :=
  ∀ s : State, s.trapWait = none →
    exec .answerStep s = .refused .noTrapWaiting ∧ exec .answerOther s = .refused .noTrapWaiting

/-- 10_state.md R34, 43_debug.md R268: while a trap waits, no call of the CPU makes progress. That the machine then stays as it is,
however many steps it takes (60_exceptions.md R292), is said of the model's queue, in the order of arrival that is its own choice
(log 2): with a CPU call first in it, even if an answer stands behind that call, or with nothing in it, no answer comes. -/
def Obligations.AWaitingTrapStopsTheThread : Prop :=
  ∀ (s : State) (w : TrapWait), s.trapWait = some w →
    (∀ i : Instr, i.agent = .cpu → exec i s = .next s) ∧
    (∀ (f : Frame) (fs : List Arrival) (i : Instr), s.queue = .transaction f :: fs → decode s.cfg s.overlay f = .ok i → i.agent = .cpu →
      ∀ n, Sys2Proof.core.run n s = .next s) ∧
    (s.queue = [] → ∀ n, Sys2Proof.core.run n s = .next s)

/-! ### Steps -/

/-- A step runs the decoded transaction, unless it is a call of the CPU and a trap waits; a frame that is no transaction is
refused by name (an edge of a third channel among them, U10); with nothing to do the block stays as it is. A renderer read
answers the byte of RAM and changes nothing else, in every state, a trap wait among them (10_state.md R45, 20_memory.md R81,
60_exceptions.md R291, R296). -/
def Obligations.AStepRunsTheDecodedTransaction : Prop :=
  (∀ (s : State) (f : Frame) (fs : List Arrival) (i : Instr), s.queue = .transaction f :: fs → decode s.cfg s.overlay f = .ok i →
    (s.trapWait = none ∨ i.agent ≠ .cpu → step s = exec i { s with queue := fs }) ∧
    (s.trapWait ≠ none → i.agent = .cpu → step s = .next s)) ∧
  (∀ (s : State) (f : Frame) (fs : List Arrival) (e : DecodeError), s.queue = .transaction f :: fs → decode s.cfg s.overlay f = .error e →
    step s = .refused (.illFormed e)) ∧
  (∀ s : State, s.queue = [] → step s = .next s) ∧
  (∀ (s : State) (fs : List Arrival) (c : Long), c ≠ 1 → c ≠ 2 →
    s.queue = .transaction { head := 3#7 ++ 0#25, arg0 := c, arg1 := 0 } :: fs →
    step s = .refused (.illFormed (.edgeChannel c))) ∧
  ∀ (s : State) (k : Nat) (fs : List Arrival), s.queue = .render k :: fs →
    step s = .next { s with
      queue := fs
      trace := s.trace ++
        if k < s.cfg.fbBytes ∧ s.cfg.fbBase + k < s.cfg.ramSize then [.rendered k (s.ram.read (s.cfg.fbBase + k))] else [] }

/-- State.reset meets the invariant. -/
def Obligations.ResetMeetsTheInvariant : Prop := State.reset.Inv

/-- Every machine that bring-up constructs meets the invariant. -/
def Obligations.BringUpMeetsTheInvariant : Prop :=
  ∀ (cfg : Config) (image : List Byte) (s : State), bringUp cfg image = .ok s → s.Inv

/-- 10_state.md R22, R23, R26, R27, R30, 43_debug.md R267 and 60_exceptions.md R281, together as `State.Inv`: every step keeps
them. -/
def Obligations.EveryStepKeepsTheInvariant : Prop :=
  ∀ s t : State, s.Inv → step s = .next t → t.Inv

/-- 10_state.md R22 and 00_scope.md R6: no step changes ROM or the configuration; and the cells `regs[13]` to `regs[15]` are never
written (10_state.md R25). -/
def Obligations.NoStepChangesRomConfigOrUnusedCells : Prop :=
  ∀ s t : State, step s = .next t →
    t.rom = s.rom ∧ t.cfg = s.cfg ∧ ∀ i : RegIdx, i ∈ [(13 : RegIdx), 14, 15] → t.via.get i = s.via.get i

/-- 10_state.md R24, R37: the overlay is one-way: no step sets it, and a step that clears it emits a `PortAChanged` whose value has
`OVERLAY_BIT` clear. -/
def Obligations.TheOverlayIsOneWay : Prop :=
  ∀ s t : State, step s = .next t →
    (s.overlay = false → t.overlay = false) ∧
    ∃ new, t.trace = s.trace ++ new ∧
      (s.overlay = true → t.overlay = false → ∃ v, Event.portAChanged v ∈ new ∧ v.getLsbD s.cfg.overlayBit = false)

/-- 41_via.md R215, over a whole step: the levels a step emits alternate, from the level before it to the level after it, so that
each event is a change. -/
def Obligations.IrqLevelEventsAlternate : Prop :=
  ∀ s t : State, step s = .next t →
    ∃ new, t.trace = s.trace ++ new ∧ Alternates s.via.irqStatus (irqLevels new) t.via.irqStatus

/-- 43_debug.md R266: only an answer writes the single-step flag. -/
def Obligations.OnlyAnswersWriteTheSingleStepFlag : Prop :=
  ∀ (s t : State) (i : Instr), i.agent ≠ .operator → exec i s = .next t → t.singleStepArmed = s.singleStepArmed

/-- 60_exceptions.md R296, R289: a device event changes the VIA, the trace and what the consumers have seen, and nothing else: not
a trap wait, in particular; and while a trap waits, no transaction but an answer ends or changes the wait. -/
def Obligations.DeviceEventsLeaveATrapWaiting : Prop :=
  (∀ (s t : State) (i : Instr), i.agent = .device → exec i s = .next t →
    t = { s with via := t.via, trace := t.trace, consumers := t.consumers }) ∧
  ∀ (s t : State) (i : Instr) (w : TrapWait), i.agent ≠ .operator → s.trapWait = some w → exec i s = .next t →
    t.trapWait = some w

/-! ### Calls that stop in a trap -/

/-- 60_exceptions.md R286, R288: a wide call does its bytes in turn, with what other agents do between them, up to the first
that traps, and waits there; what it has read, and the bytes it has still to do, wait with it (log 21). -/
def Obligations.WideCallsStopAtTheirFirstTrappingByte : Prop :=
  ∀ (s u t : State) (w : TrapWait), s.Ready → t.trapWait = some w →
    (∀ (addr : Long), ∀ x ∈ [(Instr.rw addr, Width.word, [addr, addr + 1]),
        (Instr.rl addr, Width.long, [addr, addr + 1, addr + 2, addr + 3])],
      ∀ (pre post : List Long) (a : Long) (bs : List Byte), x.2.2 = pre ++ a :: post → ReadsBytes pre s bs u →
        exec (.rb a) u = .next t →
        exec x.1 s = .next { t with trapWait := some { w with resume := .read x.2.1 (bs.foldl shiftIn 0) post } }) ∧
    (∀ (addr : Long) (b0 b1 b2 b3 : Byte), ∀ x ∈ [(Instr.ww addr (b0 ++ b1), [(addr, b0), (addr + 1, b1)]),
        (Instr.wl addr (b0 ++ b1 ++ b2 ++ b3), [(addr, b0), (addr + 1, b1), (addr + 2, b2), (addr + 3, b3)])],
      ∀ (pre post : List (Long × Byte)) (y : Long × Byte), x.2 = pre ++ y :: post → WritesBytes pre s u →
        exec (.wb y.1 y.2) u = .next t →
        exec x.1 s = .next { t with trapWait := some { w with resume := .write post } })

/-- 43_debug.md R263, 60_exceptions.md R288: after the operator's answer, whichever it is (D24, log 33), the wait is over and the
call it stopped goes on: the byte that trapped answers 0xFF or is dropped and is not tried again, the bytes after it follow in
turn, with what other agents do before each, and the call returns after the last, or waits again at the next byte that traps. -/
def Obligations.StoppedCallsGoOnWithTheirOtherBytes : Prop :=
  ∀ (s : State) (w : TrapWait) (resp : Answer), s.consumers = .quiet → s.trapWait = some w →
    (∀ (width : Width) (acc : Long), w.resume = .read width acc [] →
      exec resp.instr s = .next { s.answered resp with
        replies := (s.answered resp).replies ++ [width.reply (shiftIn acc 0xFF#8)] }) ∧
    (w.resume = .write [] →
      exec resp.instr s = .next { s.answered resp with replies := (s.answered resp).replies ++ [.done] }) ∧
    (∀ (width : Width) (acc : Long) (pre post : List Long) (a : Long) (bs : List Byte) (v u t : State),
      w.resume = .read width acc (pre ++ a :: post) →
      Between (s.answered resp) v → ReadsBytes pre v bs u → exec (.rb a) u = .next t →
      (∀ b : Byte, post = [] → t.trapWait = none → t.replies = u.replies ++ [.u8 b] →
        exec resp.instr s = .next { t with
          replies := u.replies ++ [width.reply ((0xFF#8 :: bs ++ [b]).foldl shiftIn acc)] }) ∧
      ∀ w' : TrapWait, t.trapWait = some w' →
        exec resp.instr s = .next { t with
          trapWait := some { w' with resume := .read width ((0xFF#8 :: bs).foldl shiftIn acc) post } }) ∧
    ∀ (pre post : List (Long × Byte)) (y : Long × Byte) (v u t : State),
      w.resume = .write (pre ++ y :: post) →
      Between (s.answered resp) v → WritesBytes pre v u → exec (.wb y.1 y.2) u = .next t →
      (post = [] → t.trapWait = none → exec resp.instr s = .next t) ∧
      ∀ w' : TrapWait, t.trapWait = some w' →
        exec resp.instr s = .next { t with trapWait := some { w' with resume := .write post } }
end

