-- ==== Sys2Proof/Laws/Region.lean ====
section
/-! SUPPORT. The region decoder: the address masks as ranges, and which region an address falls into. -/

namespace Sys2Proof

/-- A bit of an address as arithmetic. -/
theorem getLsbD_iff (a : BusAddr) (i : Nat) : a.getLsbD i = true ↔ a.toNat / 2 ^ i % 2 = 1 := by
  rw [BitVec.getLsbD, Nat.testBit_eq_decide_div_mod_eq]; simp

/-- The top four bits of an address, in place. -/
theorem and_top4 (a : BusAddr) : a &&& 0xF00000#24 = (a >>> 20) <<< 20 := by
  apply BitVec.eq_of_getLsbD_eq
  intro i hi
  interval_cases i <;> simp

theorem toNat_and_top4 (a : BusAddr) : (a &&& 0xF00000#24).toNat = a.toNat / 2 ^ 20 * 2 ^ 20 := by
  have h := a.isLt
  rw [and_top4, BitVec.toNat_shiftLeft, BitVec.toNat_ushiftRight, Nat.shiftRight_eq_div_pow, Nat.shiftLeft_eq]
  omega

/-- The SCC read window as a range (20_memory.md R64). -/
theorem sccR_iff (a : BusAddr) : a &&& 0xF00000#24 = 0x900000#24 ↔ 0x900000 ≤ a.toNat ∧ a.toNat ≤ 0x9FFFFF := by
  rw [← BitVec.toNat_inj, toNat_and_top4, show (0x900000#24).toNat = 9 * 2 ^ 20 from rfl]
  omega

/-- The SCC write window as a range. -/
theorem sccW_iff (a : BusAddr) : a &&& 0xF00000#24 = 0xB00000#24 ↔ 0xB00000 ≤ a.toNat ∧ a.toNat ≤ 0xBFFFFF := by
  rw [← BitVec.toNat_inj, toNat_and_top4, show (0xB00000#24).toNat = 11 * 2 ^ 20 from rfl]
  omega

theorem via_iff_bits (a : BusAddr) : a &&& 0xE80000#24 = 0xE80000#24 ↔
    a.getLsbD 23 = true ∧ a.getLsbD 22 = true ∧ a.getLsbD 21 = true ∧ a.getLsbD 19 = true := by
  constructor
  · intro h
    have bit (i : Nat) (hi : (0xE80000#24).getLsbD i = true) : a.getLsbD i = true := by
      have := congrArg (·.getLsbD i) h
      simpa [hi] using this
    exact ⟨bit 23 rfl, bit 22 rfl, bit 21 rfl, bit 19 rfl⟩
  · rintro ⟨h23, h22, h21, h19⟩
    apply BitVec.eq_of_getLsbD_eq
    intro i hi
    rw [BitVec.getLsbD_and]
    interval_cases i <;> simp [h23, h22, h21, h19]

/-- The VIA window as two ranges (20_memory.md R64). -/
theorem via_iff (a : BusAddr) : a &&& 0xE80000#24 = 0xE80000#24 ↔
    (0xE80000 ≤ a.toNat ∧ a.toNat ≤ 0xEFFFFF) ∨ (0xF80000 ≤ a.toNat ∧ a.toNat ≤ 0xFFFFFF) := by
  have h := a.isLt
  rw [via_iff_bits, getLsbD_iff, getLsbD_iff, getLsbD_iff, getLsbD_iff]
  omega

/-- The index field as arithmetic (30_encoding.md R103). -/
theorem regIndex_toNat (a : BusAddr) : (regIndex a).toNat = a.toNat / 2 ^ 9 % 16 := by
  simp [regIndex, Nat.shiftRight_eq_div_pow]

/-! ### One lemma per region: when an address falls into it -/

variable (cfg : Config) (overlay : Bool) (a : BusAddr)

theorem decodeRegion_iwm (h : 0xDFE1FF ≤ a.toNat ∧ a.toNat ≤ 0xE001FE) :
    decodeRegion cfg overlay a = .iwm (regIndex a) := by
  unfold decodeRegion; rw [if_pos (by omega)]

theorem decodeRegion_sccR (h : a &&& 0xF00000#24 = 0x900000#24) : decodeRegion cfg overlay a = .sccR := by
  have := (sccR_iff a).mp h
  unfold decodeRegion; rw [if_neg (by omega), if_pos h]

theorem decodeRegion_sccW (h : a &&& 0xF00000#24 = 0xB00000#24) : decodeRegion cfg overlay a = .sccW := by
  have := (sccW_iff a).mp h
  have hr : ¬ a &&& 0xF00000#24 = 0x900000#24 := by rw [sccR_iff]; omega
  unfold decodeRegion; rw [if_neg (by omega), if_neg hr, if_pos h]

theorem decodeRegion_via (h : a &&& 0xE80000#24 = 0xE80000#24) : decodeRegion cfg overlay a = .via (regIndex a) := by
  have := (via_iff a).mp h
  have hr : ¬ a &&& 0xF00000#24 = 0x900000#24 := by rw [sccR_iff]; omega
  have hw : ¬ a &&& 0xF00000#24 = 0xB00000#24 := by rw [sccW_iff]; omega
  unfold decodeRegion; rw [if_neg (by omega), if_neg hr, if_neg hw, if_pos h]

/-- The address lies in none of the four fixed windows. -/
def NoWindow (a : BusAddr) : Prop :=
  ¬(0xDFE1FF ≤ a.toNat ∧ a.toNat ≤ 0xE001FE) ∧ ¬ a &&& 0xF00000#24 = 0x900000#24 ∧ ¬ a &&& 0xF00000#24 = 0xB00000#24
    ∧ ¬ a &&& 0xE80000#24 = 0xE80000#24

theorem decodeRegion_of_noWindow (h : NoWindow a) :
    decodeRegion cfg overlay a =
      if overlay = true ∧ a.toNat < cfg.romSize then .romOvl a.toNat
      else if cfg.romAliasBase ≤ a.toNat ∧ a.toNat < cfg.romAliasBase + cfg.romSize then .romAlias (a.toNat - cfg.romAliasBase)
      else if a.toNat < cfg.ramSize then .ram a.toNat
      else .unmapped := by
  obtain ⟨h1, h2, h3, h4⟩ := h
  unfold decodeRegion; rw [if_neg (by omega), if_neg h2, if_neg h3, if_neg h4]

/-- Everything the region decoder can answer, and when (20_memory.md R63): the one case analysis later proofs cite. -/
theorem decodeRegion_cases :
    (0xDFE1FF ≤ a.toNat ∧ a.toNat ≤ 0xE001FE ∧ decodeRegion cfg overlay a = .iwm (regIndex a)) ∨
    (a &&& 0xF00000#24 = 0x900000#24 ∧ decodeRegion cfg overlay a = .sccR) ∨
    (a &&& 0xF00000#24 = 0xB00000#24 ∧ decodeRegion cfg overlay a = .sccW) ∨
    (a &&& 0xE80000#24 = 0xE80000#24 ∧ decodeRegion cfg overlay a = .via (regIndex a)) ∨
    (NoWindow a ∧ (overlay = true ∧ a.toNat < cfg.romSize) ∧ decodeRegion cfg overlay a = .romOvl a.toNat) ∨
    (NoWindow a ∧ ¬(overlay = true ∧ a.toNat < cfg.romSize) ∧
      (cfg.romAliasBase ≤ a.toNat ∧ a.toNat < cfg.romAliasBase + cfg.romSize) ∧
      decodeRegion cfg overlay a = .romAlias (a.toNat - cfg.romAliasBase)) ∨
    (NoWindow a ∧ ¬(overlay = true ∧ a.toNat < cfg.romSize) ∧
      ¬(cfg.romAliasBase ≤ a.toNat ∧ a.toNat < cfg.romAliasBase + cfg.romSize) ∧
      a.toNat < cfg.ramSize ∧ decodeRegion cfg overlay a = .ram a.toNat) ∨
    (NoWindow a ∧ ¬(overlay = true ∧ a.toNat < cfg.romSize) ∧
      ¬(cfg.romAliasBase ≤ a.toNat ∧ a.toNat < cfg.romAliasBase + cfg.romSize) ∧
      ¬ a.toNat < cfg.ramSize ∧ decodeRegion cfg overlay a = .unmapped) := by
  by_cases h1 : 0xDFE1FF ≤ a.toNat ∧ a.toNat ≤ 0xE001FE
  · exact .inl ⟨h1.1, h1.2, decodeRegion_iwm cfg overlay a h1⟩
  by_cases h2 : a &&& 0xF00000#24 = 0x900000#24
  · exact .inr (.inl ⟨h2, decodeRegion_sccR cfg overlay a h2⟩)
  by_cases h3 : a &&& 0xF00000#24 = 0xB00000#24
  · exact .inr (.inr (.inl ⟨h3, decodeRegion_sccW cfg overlay a h3⟩))
  by_cases h4 : a &&& 0xE80000#24 = 0xE80000#24
  · exact .inr (.inr (.inr (.inl ⟨h4, decodeRegion_via cfg overlay a h4⟩)))
  have hn : NoWindow a := ⟨h1, h2, h3, h4⟩
  have e := decodeRegion_of_noWindow cfg overlay a hn
  by_cases h5 : overlay = true ∧ a.toNat < cfg.romSize
  · rw [if_pos h5] at e; exact .inr (.inr (.inr (.inr (.inl ⟨hn, h5, e⟩))))
  by_cases h6 : cfg.romAliasBase ≤ a.toNat ∧ a.toNat < cfg.romAliasBase + cfg.romSize
  · rw [if_neg h5, if_pos h6] at e; exact .inr (.inr (.inr (.inr (.inr (.inl ⟨hn, h5, h6, e⟩)))))
  by_cases h7 : a.toNat < cfg.ramSize
  · rw [if_neg h5, if_neg h6, if_pos h7] at e; exact .inr (.inr (.inr (.inr (.inr (.inr (.inl ⟨hn, h5, h6, h7, e⟩))))))
  · rw [if_neg h5, if_neg h6, if_neg h7] at e; exact .inr (.inr (.inr (.inr (.inr (.inr (.inr ⟨hn, h5, h6, h7, e⟩))))))

end Sys2Proof
end

