-- ==== Sys2Proof/Laws/Decode.lean ====
section
/-! SUPPORT. Frames and their fields, and the rows' conditions of WellFormed.lean beside the decoder's regions. -/

namespace Sys2Proof

/-! ### Fields of a frame -/

theorem getLsbD_head (t : BitVec 7) (l : BitVec 25) (i : Nat) :
    BitVec.getLsbD (w := 32) (t ++ l) i = if i < 25 then l.getLsbD i else t.getLsbD (i - 25) := by
  rw [← BitVec.getLsbD_append]

theorem getLsbD_word (t : BitVec 1) (a : BusAddr) (i : Nat) :
    BitVec.getLsbD (w := 25) (t ++ a) i = if i < 24 then a.getLsbD i else t.getLsbD (i - 24) := by
  rw [← BitVec.getLsbD_append]

@[simp] theorem tag_append (t : BitVec 7) (l : BitVec 25) (x y : Long) : Frame.tag ⟨t ++ l, x, y⟩ = t := by
  apply BitVec.eq_of_getLsbD_eq
  intro i hi
  rw [Frame.tag, BitVec.getLsbD_extractLsb', getLsbD_head, if_neg (by omega)]
  simp [hi]

@[simp] theorem low_append (t : BitVec 7) (l : BitVec 25) (x y : Long) : Frame.low ⟨t ++ l, x, y⟩ = l := by
  apply BitVec.eq_of_getLsbD_eq
  intro i hi
  rw [Frame.low, BitVec.getLsbD_extractLsb', getLsbD_head, if_pos (by omega)]
  simp [hi]

/-- A frame's head is its format and its low part. -/
theorem head_eq (f : Frame) : f.head = f.tag ++ f.low := by
  apply BitVec.eq_of_getLsbD_eq
  intro i hi
  rw [getLsbD_head, Frame.tag, Frame.low, BitVec.getLsbD_extractLsb', BitVec.getLsbD_extractLsb']
  split
  · simp [*]
  · rw [show 25 + (i - 25) = i by omega]
    simp [show i - 25 < 7 by omega]

/-- The bit of a decode word that says write. -/
def Dir.bit : Dir → BitVec 1
  | .read => 0#1
  | .write => 1#1

theorem decodeWord_eq (d : Dir) (a : BusAddr) : decodeWord d a = d.bit ++ a := by cases d <;> rfl

theorem getLsbD_decodeWord (d : Dir) (a : BusAddr) (i : Nat) :
    (decodeWord d a).getLsbD i = if i < 24 then a.getLsbD i else d.bit.getLsbD (i - 24) := by
  rw [decodeWord_eq, getLsbD_word]

/-- The address of a decode word (30_encoding.md R101). -/
@[simp] theorem decodeWord_addr (d : Dir) (a : BusAddr) : (decodeWord d a).extractLsb' 0 24 = a := by
  apply BitVec.eq_of_getLsbD_eq
  intro i hi
  rw [BitVec.getLsbD_extractLsb', getLsbD_decodeWord, if_pos (by omega)]
  simp [hi]

/-- Bit 24 of a decode word says write. -/
theorem decodeWord_bit (d : Dir) (a : BusAddr) : (decodeWord d a).getLsbD 24 = (d == .write) := by
  rw [getLsbD_decodeWord]; cases d <;> rfl

/-- A 25-bit word is the decode word of its bit 24 and its low bits. -/
theorem decodeWord_eta (w : BitVec 25) :
    w = decodeWord (if w.getLsbD 24 = true then .write else .read) (w.extractLsb' 0 24) := by
  apply BitVec.eq_of_getLsbD_eq
  intro i hi
  rw [getLsbD_decodeWord, BitVec.getLsbD_extractLsb']
  by_cases h : i < 24
  · simp [h]
  · obtain rfl : i = 24 := by omega
    rw [if_neg h]
    split
    · next hw => rw [hw]; rfl
    · next hw => rw [Bool.not_eq_true] at hw; rw [hw]; rfl

@[simp] theorem setWidth_setWidth_byte (v : Byte) : (v.setWidth 32).setWidth 8 = v := by
  apply BitVec.eq_of_getLsbD_eq; intro i hi; simp [hi]

@[simp] theorem setWidth_setWidth_half (v : Half) : (v.setWidth 32).setWidth 16 = v := by
  apply BitVec.eq_of_getLsbD_eq; intro i hi; simp [hi]

/-! ### The decoder on encoded frames -/

theorem decode_encodeRead (cfg : Config) (overlay : Bool) (a : BusAddr) :
    decode cfg overlay (encodeRead a) = .ok (readRow cfg overlay a) := by
  have h : ¬ (decodeWord .read a).getLsbD 24 = true := by rw [decodeWord_bit]; decide
  simp only [decode, decodeByte, encodeRead, tag_append, low_append, decodeWord_addr, if_neg h]
  rfl

theorem decode_encodeWrite (cfg : Config) (overlay : Bool) (a : BusAddr) (v : Byte) :
    decode cfg overlay (encodeWrite a v) = .ok (writeRow cfg overlay a v) := by
  have h : (decodeWord .write a).getLsbD 24 = true := by rw [decodeWord_bit]; rfl
  simp only [decode, decodeByte, encodeWrite, tag_append, low_append, decodeWord_addr, if_pos h, setWidth_setWidth_byte]
  rfl

@[simp] theorem tag_encodeMem (op : BitVec 25) (addr data : Long) : (encodeMem op addr data).tag = 1#7 := tag_append ..

@[simp] theorem low_encodeMem (op : BitVec 25) (addr data : Long) : (encodeMem op addr data).low = op := low_append ..

@[simp] theorem tag_encodeArg0 (t : BitVec 7) (x : Long) : (encodeArg0 t x).tag = t := tag_append ..

@[simp] theorem low_encodeArg0 (t : BitVec 7) (x : Long) : (encodeArg0 t x).low = 0#25 := low_append ..

theorem decode_encodeMem (cfg : Config) (overlay : Bool) (op : BitVec 25) (addr data : Long) :
    decode cfg overlay (encodeMem op addr data) = decodeMem (encodeMem op addr data) := by
  simp only [decode, tag_encodeMem]
  rfl

theorem whenOnlyArg0_encodeArg0 (t : BitVec 7) (x : Long) (k : Frame → Except DecodeError Instr) :
    whenOnlyArg0 (encodeArg0 t x) k = k (encodeArg0 t x) := by
  rw [whenOnlyArg0, low_encodeArg0, if_pos ⟨rfl, rfl⟩]

/-! ### The rows' conditions and the regions -/

theorem iwmRow_iff (a : BusAddr) : a.iwmRow = true ↔ 0xDFE1FF ≤ a.toNat ∧ a.toNat ≤ 0xE001FE := by simp [BusAddr.iwmRow]

theorem noWindow_iff (a : BusAddr) : a.noWindow = true ↔ NoWindow a := by
  simp only [BusAddr.noWindow, NoWindow, ← iwmRow_iff, BusAddr.sccRRow, BusAddr.sccWRow, Bool.and_eq_true, Bool.not_eq_true',
    beq_eq_false_iff_ne, ne_eq, Bool.not_eq_true, and_assoc]

theorem iwmRowIdx_eq (a : BusAddr) : a.iwmRowIdx = regIndex a := by
  apply BitVec.eq_of_getLsbD_eq
  intro i hi
  simp [BusAddr.iwmRowIdx, regIndex, hi]

/-- A VIA row's mask and match say: the VIA window, and the row's index. -/
theorem viaRow_iff (a : BusAddr) (k : RegIdx) :
    a.viaRow k = true ↔ a &&& 0xE80000#24 = 0xE80000#24 ∧ regIndex a = k := by
  have hk := k.isLt
  simp only [BusAddr.viaRow, beq_iff_eq]
  constructor
  · intro h
    constructor
    · have : a &&& 0xE80000#24 = (a &&& 0xE81E00#24) &&& 0xE80000#24 := by rw [BitVec.and_assoc]; rfl
      rw [this, h]
      apply BitVec.eq_of_getLsbD_eq
      intro i hi
      interval_cases i <;> simp
    · apply BitVec.eq_of_getLsbD_eq
      intro i hi
      have hb := congrArg (·.getLsbD (9 + i)) h
      interval_cases i <;> simpa [regIndex] using hb
  · rintro ⟨hw, rfl⟩
    rw [via_iff_bits] at hw
    obtain ⟨h23, h22, h21, h19⟩ := hw
    apply BitVec.eq_of_getLsbD_eq
    intro i hi
    rw [BitVec.getLsbD_and]
    interval_cases i <;> simp [regIndex, h23, h22, h21, h19]

/-- The overlay answers at an address outside the windows (20_memory.md R63 (e)). -/
def InOverlay (cfg : Config) (overlay : Bool) (a : BusAddr) : Prop := overlay = true ∧ a.toNat < cfg.romSize

/-- The alias covers an address (R63 (f)). -/
def InAlias (cfg : Config) (a : BusAddr) : Prop :=
  cfg.romAliasBase ≤ a.toNat ∧ a.toNat < cfg.romAliasBase + cfg.romSize

theorem romOvlRow_iff (cfg : Config) (overlay : Bool) (a : BusAddr) :
    a.romOvlRow cfg overlay = true ↔ NoWindow a ∧ InOverlay cfg overlay a := by
  simp only [BusAddr.romOvlRow, InOverlay, Bool.and_eq_true, decide_eq_true_eq, noWindow_iff]; tauto

theorem romAliasRow_iff (cfg : Config) (overlay : Bool) (a : BusAddr) :
    a.romAliasRow cfg overlay = true ↔ NoWindow a ∧ ¬InOverlay cfg overlay a ∧ InAlias cfg a := by
  simp only [BusAddr.romAliasRow, InAlias, Bool.and_eq_true, decide_eq_true_eq, noWindow_iff, Bool.not_eq_true',
    ← Bool.not_eq_true, romOvlRow_iff]
  tauto

theorem ramRow_iff (cfg : Config) (overlay : Bool) (a : BusAddr) :
    a.ramRow cfg overlay = true ↔
      NoWindow a ∧ ¬InOverlay cfg overlay a ∧ ¬InAlias cfg a ∧ a.toNat < cfg.ramSize := by
  simp only [BusAddr.ramRow, Bool.and_eq_true, decide_eq_true_eq, noWindow_iff, Bool.not_eq_true',
    ← Bool.not_eq_true, romOvlRow_iff, romAliasRow_iff]
  tauto

theorem unmappedRow_iff (cfg : Config) (overlay : Bool) (a : BusAddr) :
    a.unmappedRow cfg overlay = true ↔
      NoWindow a ∧ ¬InOverlay cfg overlay a ∧ ¬InAlias cfg a ∧ ¬ a.toNat < cfg.ramSize := by
  simp only [BusAddr.unmappedRow, Bool.and_eq_true, noWindow_iff, Bool.not_eq_true', ← Bool.not_eq_true, romOvlRow_iff,
    romAliasRow_iff, ramRow_iff]
  tauto

/-! ### The region of a row -/

theorem decodeRegion_of_iwmRow (cfg : Config) (overlay : Bool) {a : BusAddr} (h : a.iwmRow = true) :
    decodeRegion cfg overlay a = .iwm (regIndex a) :=
  decodeRegion_iwm cfg overlay a ((iwmRow_iff a).mp h)

theorem decodeRegion_of_viaRow (cfg : Config) (overlay : Bool) {a : BusAddr} {k : RegIdx} (h : a.viaRow k = true) :
    decodeRegion cfg overlay a = .via k := by
  obtain ⟨hw, hk⟩ := (viaRow_iff a k).mp h
  rw [decodeRegion_via cfg overlay a hw, hk]

theorem decodeRegion_of_romOvlRow {cfg : Config} {overlay : Bool} {a : BusAddr} (h : a.romOvlRow cfg overlay = true) :
    decodeRegion cfg overlay a = .romOvl a.toNat := by
  obtain ⟨hn, ho⟩ := (romOvlRow_iff cfg overlay a).mp h
  exact (decodeRegion_of_noWindow cfg overlay a hn).trans (if_pos ho)

theorem decodeRegion_of_romAliasRow {cfg : Config} {overlay : Bool} {a : BusAddr}
    (h : a.romAliasRow cfg overlay = true) :
    decodeRegion cfg overlay a = .romAlias (a.toNat - cfg.romAliasBase) := by
  obtain ⟨hn, ho, ha⟩ := (romAliasRow_iff cfg overlay a).mp h
  exact (decodeRegion_of_noWindow cfg overlay a hn).trans ((if_neg ho).trans (if_pos ha))

theorem decodeRegion_of_ramRow {cfg : Config} {overlay : Bool} {a : BusAddr} (h : a.ramRow cfg overlay = true) :
    decodeRegion cfg overlay a = .ram a.toNat := by
  obtain ⟨hn, ho, ha, hr⟩ := (ramRow_iff cfg overlay a).mp h
  exact (decodeRegion_of_noWindow cfg overlay a hn).trans ((if_neg ho).trans ((if_neg ha).trans (if_pos hr)))

theorem decodeRegion_of_unmappedRow {cfg : Config} {overlay : Bool} {a : BusAddr}
    (h : a.unmappedRow cfg overlay = true) : decodeRegion cfg overlay a = .unmapped := by
  obtain ⟨hn, ho, ha, hr⟩ := (unmappedRow_iff cfg overlay a).mp h
  exact (decodeRegion_of_noWindow cfg overlay a hn).trans ((if_neg ho).trans ((if_neg ha).trans (if_neg hr)))

/-! ### The row an address selects is well-formed -/

/-- The condition of the VIA row an index selects. -/
theorem viaRow_of_index {a : BusAddr} {n : Nat} (h : a &&& 0xE80000#24 = 0xE80000#24) (hn : (regIndex a).toNat = n)
    (k : RegIdx) (hk : k.toNat = n) : a.viaRow k = true :=
  (viaRow_iff a k).mpr ⟨h, BitVec.eq_of_toNat_eq (by omega)⟩

theorem readRow_wf (cfg : Config) (overlay : Bool) (a : BusAddr) : (readRow cfg overlay a).wf cfg overlay = true := by
  rcases decodeRegion_cases cfg overlay a with ⟨h1, h2, e⟩ | ⟨h, e⟩ | ⟨h, e⟩ | ⟨h, e⟩ | ⟨hn, h, e⟩ | ⟨hn, h, h', e⟩ |
    ⟨hn, h, h', h'', e⟩ | ⟨hn, h, h', h'', e⟩ <;> simp only [readRow, e]
  · split
    · next hi => simp [Instr.wf, iwmRow_iff, iwmRowIdx_eq, h1, h2, hi]
    · split
      · next hi hj => simp_all [Instr.wf, iwmRow_iff, iwmRowIdx_eq]
      · next hi hj => simp [Instr.wf, iwmRow_iff, iwmRowIdx_eq, h1, h2, hi, hj]
  · simp [Instr.wf, BusAddr.sccRRow, h]
  · simp [Instr.wf, BusAddr.sccWRow, h]
  · have := (regIndex a).isLt
    unfold viaReadRow
    split <;> first
      | next hn => exact viaRow_of_index h hn _ rfl
      | next h0 h1 h2 h3 h4 h5 h6 h7 h8 h9 h10 h11 h12 h13 h14 => simp only [imp_false] at *; exact viaRow_of_index (n := 15) h (by omega) _ rfl
  · exact (romOvlRow_iff cfg overlay a).mpr ⟨hn, h⟩
  · exact (romAliasRow_iff cfg overlay a).mpr ⟨hn, h, h'⟩
  · exact (ramRow_iff cfg overlay a).mpr ⟨hn, h, h', h''⟩
  · exact (unmappedRow_iff cfg overlay a).mpr ⟨hn, h, h', h''⟩

theorem writeRow_wf (cfg : Config) (overlay : Bool) (a : BusAddr) (v : Byte) :
    (writeRow cfg overlay a v).wf cfg overlay = true := by
  rcases decodeRegion_cases cfg overlay a with ⟨h1, h2, e⟩ | ⟨h, e⟩ | ⟨h, e⟩ | ⟨h, e⟩ | ⟨hn, h, e⟩ | ⟨hn, h, h', e⟩ |
    ⟨hn, h, h', h'', e⟩ | ⟨hn, h, h', h'', e⟩ <;> simp only [writeRow, e]
  · exact (iwmRow_iff a).mpr ⟨h1, h2⟩
  · simp [Instr.wf, BusAddr.sccRRow, h]
  · simp [Instr.wf, BusAddr.sccWRow, h]
  · have := (regIndex a).isLt
    unfold viaWriteRow
    split <;> first
      | next hn => exact viaRow_of_index h hn _ rfl
      | next h0 h1 h2 h3 h4 h5 h6 h7 h8 h9 h10 h11 h12 h13 h14 => simp only [imp_false] at *; exact viaRow_of_index (n := 15) h (by omega) _ rfl
  · exact (romOvlRow_iff cfg overlay a).mpr ⟨hn, h⟩
  · exact (romAliasRow_iff cfg overlay a).mpr ⟨hn, h, h'⟩
  · exact (ramRow_iff cfg overlay a).mpr ⟨hn, h, h', h''⟩
  · exact (unmappedRow_iff cfg overlay a).mpr ⟨hn, h, h', h''⟩

theorem encode_viaReadRow (i : RegIdx) (a : BusAddr) : encode (viaReadRow i a) = encodeRead a := by
  unfold viaReadRow; split <;> rfl

theorem encode_viaWriteRow (i : RegIdx) (a : BusAddr) (v : Byte) : encode (viaWriteRow i a v) = encodeWrite a v := by
  unfold viaWriteRow; split <;> rfl

/-- The row a read selects is encoded as the read. -/
theorem encode_readRow (cfg : Config) (overlay : Bool) (a : BusAddr) : encode (readRow cfg overlay a) = encodeRead a := by
  unfold readRow
  split
  · split
    · rfl
    · split <;> rfl
  all_goals first | rfl | exact encode_viaReadRow _ a

/-- The row a write selects is encoded as the write. -/
theorem encode_writeRow (cfg : Config) (overlay : Bool) (a : BusAddr) (v : Byte) :
    encode (writeRow cfg overlay a v) = encodeWrite a v := by
  unfold writeRow
  split <;> first | rfl | exact encode_viaWriteRow _ a v

end Sys2Proof
end

