-- ==== Sys2Proof/Laws/State.lean ====
section
/-! SUPPORT. What the shared updates of State do to each field, by rfl. -/

namespace Sys2Proof.Machine

variable (s : State)

@[simp] theorem State.emit_cfg (e : Event) : (s.emit e).cfg = s.cfg := rfl
@[simp] theorem State.emit_rom (e : Event) : (s.emit e).rom = s.rom := rfl
@[simp] theorem State.emit_ram (e : Event) : (s.emit e).ram = s.ram := rfl
@[simp] theorem State.emit_overlay (e : Event) : (s.emit e).overlay = s.overlay := rfl
@[simp] theorem State.emit_via (e : Event) : (s.emit e).via = s.via := rfl
@[simp] theorem State.emit_iwm (e : Event) : (s.emit e).iwm = s.iwm := rfl
@[simp] theorem State.emit_singleStepArmed (e : Event) : (s.emit e).singleStepArmed = s.singleStepArmed := rfl
@[simp] theorem State.emit_trapWait (e : Event) : (s.emit e).trapWait = s.trapWait := rfl
@[simp] theorem State.emit_trace (e : Event) : (s.emit e).trace = s.trace ++ [e] := rfl
@[simp] theorem State.emit_replies (e : Event) : (s.emit e).replies = s.replies := rfl
@[simp] theorem State.emit_queue (e : Event) : (s.emit e).queue = s.queue := rfl
@[simp] theorem State.emit_agenda (e : Event) : (s.emit e).agenda = s.agenda := rfl
@[simp] theorem State.emit_portA (e : Event) : (s.emit e).portA = s.portA := rfl
@[simp] theorem State.emit_portB (e : Event) : (s.emit e).portB = s.portB := rfl
@[simp] theorem State.emit_queries (e : Event) : (s.emit e).queries = s.queries := rfl
@[simp] theorem State.emit_consumers (e : Event) : (s.emit e).consumers = s.consumers := rfl

@[simp] theorem State.diag_cfg (k : DiagKind) (a : BusAddr) : (s.diag k a).cfg = s.cfg := rfl
@[simp] theorem State.diag_rom (k : DiagKind) (a : BusAddr) : (s.diag k a).rom = s.rom := rfl
@[simp] theorem State.diag_ram (k : DiagKind) (a : BusAddr) : (s.diag k a).ram = s.ram := rfl
@[simp] theorem State.diag_overlay (k : DiagKind) (a : BusAddr) : (s.diag k a).overlay = s.overlay := rfl
@[simp] theorem State.diag_via (k : DiagKind) (a : BusAddr) : (s.diag k a).via = s.via := rfl
@[simp] theorem State.diag_iwm (k : DiagKind) (a : BusAddr) : (s.diag k a).iwm = s.iwm := rfl
@[simp] theorem State.diag_singleStepArmed (k : DiagKind) (a : BusAddr) : (s.diag k a).singleStepArmed = s.singleStepArmed := rfl
@[simp] theorem State.diag_trapWait (k : DiagKind) (a : BusAddr) : (s.diag k a).trapWait = s.trapWait := rfl
@[simp] theorem State.diag_trace (k : DiagKind) (a : BusAddr) : (s.diag k a).trace = s.trace ++ [.diag k a] := rfl
@[simp] theorem State.diag_replies (k : DiagKind) (a : BusAddr) : (s.diag k a).replies = s.replies := rfl
@[simp] theorem State.diag_queue (k : DiagKind) (a : BusAddr) : (s.diag k a).queue = s.queue := rfl
@[simp] theorem State.diag_agenda (k : DiagKind) (a : BusAddr) : (s.diag k a).agenda = s.agenda := rfl
@[simp] theorem State.diag_portA (k : DiagKind) (a : BusAddr) : (s.diag k a).portA = s.portA := rfl
@[simp] theorem State.diag_portB (k : DiagKind) (a : BusAddr) : (s.diag k a).portB = s.portB := rfl
@[simp] theorem State.diag_queries (k : DiagKind) (a : BusAddr) : (s.diag k a).queries = s.queries := rfl
@[simp] theorem State.diag_consumers (k : DiagKind) (a : BusAddr) : (s.diag k a).consumers = s.consumers := rfl

@[simp] theorem State.emitVia_cfg (e : Event) : (s.emitVia e).cfg = s.cfg := rfl
@[simp] theorem State.emitVia_rom (e : Event) : (s.emitVia e).rom = s.rom := rfl
@[simp] theorem State.emitVia_ram (e : Event) : (s.emitVia e).ram = s.ram := rfl
@[simp] theorem State.emitVia_overlay (e : Event) : (s.emitVia e).overlay = s.overlay := rfl
@[simp] theorem State.emitVia_via (e : Event) : (s.emitVia e).via = s.via := rfl
@[simp] theorem State.emitVia_iwm (e : Event) : (s.emitVia e).iwm = s.iwm := rfl
@[simp] theorem State.emitVia_singleStepArmed (e : Event) : (s.emitVia e).singleStepArmed = s.singleStepArmed := rfl
@[simp] theorem State.emitVia_trapWait (e : Event) : (s.emitVia e).trapWait = s.trapWait := rfl
@[simp] theorem State.emitVia_trace (e : Event) : (s.emitVia e).trace = s.trace ++ [e] := rfl
@[simp] theorem State.emitVia_replies (e : Event) : (s.emitVia e).replies = s.replies := rfl
@[simp] theorem State.emitVia_queue (e : Event) : (s.emitVia e).queue = s.queue := rfl
@[simp] theorem State.emitVia_agenda (e : Event) : (s.emitVia e).agenda = s.agenda := rfl
@[simp] theorem State.emitVia_portA (e : Event) : (s.emitVia e).portA = s.portA := rfl
@[simp] theorem State.emitVia_portB (e : Event) : (s.emitVia e).portB = s.portB := rfl
@[simp] theorem State.emitVia_queries (e : Event) : (s.emitVia e).queries = s.queries := rfl
@[simp] theorem State.emitVia_consumers (e : Event) : (s.emitVia e).consumers = s.consumers.next := rfl

@[simp] theorem State.reply_cfg (r : Reply) : (s.reply r).cfg = s.cfg := rfl
@[simp] theorem State.reply_rom (r : Reply) : (s.reply r).rom = s.rom := rfl
@[simp] theorem State.reply_ram (r : Reply) : (s.reply r).ram = s.ram := rfl
@[simp] theorem State.reply_overlay (r : Reply) : (s.reply r).overlay = s.overlay := rfl
@[simp] theorem State.reply_via (r : Reply) : (s.reply r).via = s.via := rfl
@[simp] theorem State.reply_iwm (r : Reply) : (s.reply r).iwm = s.iwm := rfl
@[simp] theorem State.reply_singleStepArmed (r : Reply) : (s.reply r).singleStepArmed = s.singleStepArmed := rfl
@[simp] theorem State.reply_trapWait (r : Reply) : (s.reply r).trapWait = s.trapWait := rfl
@[simp] theorem State.reply_trace (r : Reply) : (s.reply r).trace = s.trace := rfl
@[simp] theorem State.reply_replies (r : Reply) : (s.reply r).replies = s.replies ++ [r] := rfl
@[simp] theorem State.reply_queue (r : Reply) : (s.reply r).queue = s.queue := rfl
@[simp] theorem State.reply_agenda (r : Reply) : (s.reply r).agenda = s.agenda := rfl
@[simp] theorem State.reply_portA (r : Reply) : (s.reply r).portA = s.portA := rfl
@[simp] theorem State.reply_portB (r : Reply) : (s.reply r).portB = s.portB := rfl
@[simp] theorem State.reply_queries (r : Reply) : (s.reply r).queries = s.queries := rfl
@[simp] theorem State.reply_consumers (r : Reply) : (s.reply r).consumers = s.consumers := rfl

@[simp] theorem trapReturn_step_cfg : (trapReturn .step s).cfg = s.cfg := rfl
@[simp] theorem trapReturn_step_rom : (trapReturn .step s).rom = s.rom := rfl
@[simp] theorem trapReturn_step_ram : (trapReturn .step s).ram = s.ram := rfl
@[simp] theorem trapReturn_step_overlay : (trapReturn .step s).overlay = s.overlay := rfl
@[simp] theorem trapReturn_step_via : (trapReturn .step s).via = s.via := rfl
@[simp] theorem trapReturn_step_iwm : (trapReturn .step s).iwm = s.iwm := rfl
@[simp] theorem trapReturn_step_singleStepArmed : (trapReturn .step s).singleStepArmed = true := rfl
@[simp] theorem trapReturn_step_trapWait : (trapReturn .step s).trapWait = none := rfl
@[simp] theorem trapReturn_step_trace : (trapReturn .step s).trace = s.trace := rfl
@[simp] theorem trapReturn_step_replies : (trapReturn .step s).replies = s.replies ++ [.trapReturned false] := rfl
@[simp] theorem trapReturn_step_queue : (trapReturn .step s).queue = s.queue := rfl
@[simp] theorem trapReturn_step_agenda : (trapReturn .step s).agenda = s.agenda := rfl
@[simp] theorem trapReturn_step_portA : (trapReturn .step s).portA = s.portA := rfl
@[simp] theorem trapReturn_step_portB : (trapReturn .step s).portB = s.portB := rfl
@[simp] theorem trapReturn_step_queries : (trapReturn .step s).queries = s.queries := rfl
@[simp] theorem trapReturn_step_consumers : (trapReturn .step s).consumers = s.consumers := rfl

@[simp] theorem trapReturn_other_cfg : (trapReturn .other s).cfg = s.cfg := rfl
@[simp] theorem trapReturn_other_rom : (trapReturn .other s).rom = s.rom := rfl
@[simp] theorem trapReturn_other_ram : (trapReturn .other s).ram = s.ram := rfl
@[simp] theorem trapReturn_other_overlay : (trapReturn .other s).overlay = s.overlay := rfl
@[simp] theorem trapReturn_other_via : (trapReturn .other s).via = s.via := rfl
@[simp] theorem trapReturn_other_iwm : (trapReturn .other s).iwm = s.iwm := rfl
@[simp] theorem trapReturn_other_singleStepArmed : (trapReturn .other s).singleStepArmed = false := rfl
@[simp] theorem trapReturn_other_trapWait : (trapReturn .other s).trapWait = none := rfl
@[simp] theorem trapReturn_other_trace : (trapReturn .other s).trace = s.trace := rfl
@[simp] theorem trapReturn_other_replies : (trapReturn .other s).replies = s.replies ++ [.trapReturned true] := rfl
@[simp] theorem trapReturn_other_queue : (trapReturn .other s).queue = s.queue := rfl
@[simp] theorem trapReturn_other_agenda : (trapReturn .other s).agenda = s.agenda := rfl
@[simp] theorem trapReturn_other_portA : (trapReturn .other s).portA = s.portA := rfl
@[simp] theorem trapReturn_other_portB : (trapReturn .other s).portB = s.portB := rfl
@[simp] theorem trapReturn_other_queries : (trapReturn .other s).queries = s.queries := rfl
@[simp] theorem trapReturn_other_consumers : (trapReturn .other s).consumers = s.consumers := rfl

@[simp] theorem Consumers.next_quiet : Consumers.quiet.next = .quiet := rfl

/-- The whole effect of a reply. -/
theorem State.reply_eq (r : Reply) : s.reply r = { s with replies := s.replies ++ [r] } := rfl

/-- The whole effect of an output event to a quiet consumer. -/
theorem State.emitVia_eq_of_quiet (e : Event) (h : s.consumers = .quiet) :
    s.emitVia e = { s with trace := s.trace ++ [e] } := by
  simp [State.emitVia, State.emit, h]

end Sys2Proof.Machine
end

