-- ==== Sys2Proof/Laws/Via.lean ====
section
/-! SUPPORT. The VIA: its registers, its masks bit by bit, and what the reassessment and the register operations do to a block
whose consumers are quiet. -/

namespace Sys2Proof.Machine

/-! ### Registers -/

@[simp] theorem Via.get_set (v : Via) (i j : RegIdx) (x : Byte) : (v.set i x).get j = if j = i then x else v.get j := by
  unfold Via.get Via.set
  rw [Vector.getElem_set]
  by_cases h : i = j
  · subst h; simp
  · have : ¬ i.toNat = j.toNat := fun e => h (BitVec.eq_of_toNat_eq e)
    simp [this, Ne.symm h]

@[simp] theorem Via.set_irqEnable (v : Via) (i : RegIdx) (x : Byte) : (v.set i x).irqEnable = v.irqEnable := rfl
@[simp] theorem Via.set_irqActive (v : Via) (i : RegIdx) (x : Byte) : (v.set i x).irqActive = v.irqActive := rfl
@[simp] theorem Via.set_irqStatus (v : Via) (i : RegIdx) (x : Byte) : (v.set i x).irqStatus = v.irqStatus := rfl
@[simp] theorem Via.set_shiftPending (v : Via) (i : RegIdx) (x : Byte) : (v.set i x).shiftPending = v.shiftPending := rfl
@[simp] theorem Via.set_level (v : Via) (i : RegIdx) (x : Byte) : (v.set i x).level = v.level := rfl

/-- A register store leaves the status settled. -/
theorem Via.Settled.set {v : Via} (h : v.Settled) (i : RegIdx) (x : Byte) : (v.set i x).Settled := h

/-! ### Masks -/

/-- A source mask has its one bit. -/
theorem sourceMask_bit (n k : Nat) (hk : k < 8) : (sourceMask n).getLsbD k = decide (k = n) := by
  simp only [sourceMask, BitVec.getLsbD_shiftLeft, hk, decide_true, Bool.true_and, BitVec.getLsbD_one]
  by_cases h : k < n
  · simp [h]; omega
  · by_cases h' : k = n
    · subst h'; simp
    · simp [h, h']; omega

/-- A byte and a source mask share nothing exactly if the byte lacks the source's bit. -/
theorem and_sourceMask_eq_zero (b : Byte) (n : Nat) : b &&& sourceMask n = 0#8 ↔ b.getLsbD n = false := by
  constructor
  · intro h
    by_cases hn : n < 8
    · have := congrArg (·.getLsbD n) h
      simpa [sourceMask_bit n n hn] using this
    · exact BitVec.getLsbD_of_ge b n (by omega)
  · intro h
    apply BitVec.eq_of_getLsbD_eq
    intro k hk
    rw [BitVec.getLsbD_and, sourceMask_bit n k hk]
    by_cases hkn : k = n
    · subst hkn; simp [h]
    · simp [hkn]

/-- The low-seven-bits mask. -/
theorem mask7_bit (k : Nat) (hk : k < 8) : (0x7F#8).getLsbD k = decide (k < 7) := by
  interval_cases k <;> rfl

theorem mask8_bit (k : Nat) (hk : k < 8) : (0x80#8).getLsbD k = decide (k = 7) := by
  interval_cases k <;> rfl

/-- Latching sets exactly the bits of the mask. -/
theorem Via.latch_bit (v : Via) (n k : Nat) (hk : k < 8) :
    (v.latch (sourceMask n)).irqActive.getLsbD k = (v.irqActive.getLsbD k || decide (k = n)) := by
  rw [Via.latch, BitVec.getLsbD_or, sourceMask_bit n k hk]

/-- The level is high exactly if some enabled source is active. -/
theorem Via.level_iff (v : Via) :
    v.level = true ↔ ∃ k, k < 7 ∧ v.irqEnable.getLsbD k = true ∧ v.irqActive.getLsbD k = true := by
  simp only [Via.level, bne_iff_ne, ne_eq]
  constructor
  · intro h
    by_contra hc
    push Not at hc
    apply h
    apply BitVec.eq_of_getLsbD_eq
    intro k hk
    rw [BitVec.getLsbD_and, BitVec.getLsbD_and, mask7_bit k hk]
    by_cases h7 : k < 7
    · have := hc k h7
      cases he : v.irqEnable.getLsbD k
      · simp
      · simp [this he]
    · simp [h7]
  · rintro ⟨k, hk, he, ha⟩ h
    have := congrArg (·.getLsbD k) h
    simp only [BitVec.getLsbD_and, mask7_bit k (by omega), he, ha] at this
    simp [hk] at this

/-! ### The reassessment -/

/-- A settled block is left as it is (41_via.md R182: "State written: none"). -/
theorem reassess_of_settled {s : State} (h : s.via.Settled) : reassess s = s := if_pos (Eq.symm h)

/-- The reassessment of a block whose consumers are quiet: the status becomes the level, and the change is emitted (R215). -/
theorem reassess_of_quiet {s : State} (h : s.consumers = .quiet) :
    reassess s = { s with
      via := { s.via with irqStatus := s.via.level }, trace := s.trace ++ levelChange s.via.irqStatus s.via } := by
  unfold reassess levelChange
  split
  · next he => simp [he]
  · exact State.emitVia_eq_of_quiet _ _ h

/-! ### Outcomes -/

theorem finish_of_quiet {s : State} (h : s.consumers = .quiet) : finish s = .next s := by simp [finish, h]

/-- A transaction that ends in a next state ends in the state it ran to, and no consumer re-entered. -/
theorem finish_eq_next {s t : State} (h : finish s = .next t) : t = s ∧ s.consumers ≠ .reentered := by
  unfold finish at h
  split at h
  · cases h
  · next hc => cases h; exact ⟨rfl, hc⟩

theorem onThread_of_ready {s : State} (h : s.Ready) (call : State → Host.Outcome State Fault Refusal) :
    onThread s call = call s := by simp [onThread, h.1]

/-- What a call of the emulation thread can do: nothing while a trap waits, or run. -/
theorem onThread_eq_next {s t : State} {call : State → Host.Outcome State Fault Refusal} (h : onThread s call = .next t) :
    (∃ w, s.trapWait = some w ∧ t = s) ∨ (s.trapWait = none ∧ call s = .next t) := by
  unfold onThread at h
  split at h
  · next w hw => cases h; exact .inl ⟨w, hw, rfl⟩
  · next hw => exact .inr ⟨hw, h⟩

end Sys2Proof.Machine
end

