-- ==== Sys2Proof/Laws/Evolves.lean ====
section
/-! SUPPORT. What the operations of the block can do at most: which state they never write, and what the events they emit say.
One lemma for each operation, up to the multi-byte accesses. -/

namespace Sys2Proof.Machine

/-! ### Event sequences -/

@[simp] theorem irqLevels_append (a b : List Event) : irqLevels (a ++ b) = irqLevels a ++ irqLevels b := by
  induction a with
  | nil => rfl
  | cons e a ih => cases e <;> simp [irqLevels, ih]

theorem Alternates.trans {a b c : Bool} {l m : List Bool} (h : Alternates a l b) (h' : Alternates b m c) :
    Alternates a (l ++ m) c := by
  induction l generalizing a with
  | nil => simp only [Alternates] at h; subst h; exact h'
  | cons x l ih => exact ⟨h.1, ih h.2⟩

/-- Some events say why the overlay was cleared, if it was (40_bus.md R155). -/
def Explains (new : List Event) (s t : State) : Prop :=
  s.overlay = true → t.overlay = false → ∃ v, Event.portAChanged v ∈ new ∧ v.getLsbD s.cfg.overlayBit = false

theorem Explains.same {new : List Event} {s t : State} (h : t.overlay = s.overlay) : Explains new s t := by
  intro hs ht
  rw [h, hs] at ht
  cases ht

/-- What every operation of the block that is no trap return can do at most. -/
structure Evolves (s t : State) : Prop where
  cfg : t.cfg = s.cfg
  rom : t.rom = s.rom
  unused : ∀ i : RegIdx, 13 ≤ i.toNat → t.via.get i = s.via.get i
  armed : t.singleStepArmed = s.singleStepArmed
  queue : t.queue = s.queue
  quiet : s.consumers = .quiet → t.consumers = .quiet
  overlay : s.overlay = false → t.overlay = false
  replies : ∃ more, t.replies = s.replies ++ more
  trace : ∃ new, t.trace = s.trace ++ new ∧ Explains new s t ∧
    Alternates s.via.irqStatus (irqLevels new) t.via.irqStatus

theorem Evolves.refl (s : State) : Evolves s s where
  cfg := rfl
  rom := rfl
  unused _ _ := rfl
  armed := rfl
  queue := rfl
  quiet h := h
  overlay h := h
  replies := ⟨[], (List.append_nil _).symm⟩
  trace := ⟨[], (List.append_nil _).symm, .same rfl, rfl⟩

theorem Evolves.trans {s t u : State} (h : Evolves s t) (h' : Evolves t u) : Evolves s u where
  cfg := h'.cfg.trans h.cfg
  rom := h'.rom.trans h.rom
  unused i hi := (h'.unused i hi).trans (h.unused i hi)
  armed := h'.armed.trans h.armed
  queue := h'.queue.trans h.queue
  quiet q := h'.quiet (h.quiet q)
  overlay o := h'.overlay (h.overlay o)
  replies := by
    obtain ⟨a, ha⟩ := h.replies
    obtain ⟨b, hb⟩ := h'.replies
    exact ⟨a ++ b, by rw [hb, ha, List.append_assoc]⟩
  trace := by
    obtain ⟨a, ha, ea, la⟩ := h.trace
    obtain ⟨b, hb, eb, lb⟩ := h'.trace
    refine ⟨a ++ b, by rw [hb, ha, List.append_assoc], fun hs hu => ?_, by rw [irqLevels_append]; exact la.trans lb⟩
    cases ht : t.overlay
    · obtain ⟨v, hv, hb⟩ := ea hs ht
      exact ⟨v, List.mem_append_left b hv, hb⟩
    · obtain ⟨v, hv, hb⟩ := eb ht hu
      exact ⟨v, List.mem_append_right a hv, h.cfg ▸ hb⟩

/-- An operation that emits events with no level among them, and writes none of these fields otherwise. -/
theorem Evolves.of_fields {s t : State} (new : List Event) (hcfg : t.cfg = s.cfg) (hrom : t.rom = s.rom)
    (hun : ∀ i : RegIdx, 13 ≤ i.toNat → t.via.get i = s.via.get i) (harm : t.singleStepArmed = s.singleStepArmed)
    (hq : t.queue = s.queue) (hc : s.consumers = .quiet → t.consumers = .quiet) (ho : t.overlay = s.overlay)
    (hr : t.replies = s.replies) (ht : t.trace = s.trace ++ new) (hl : irqLevels new = [])
    (hst : t.via.irqStatus = s.via.irqStatus) : Evolves s t where
  cfg := hcfg
  rom := hrom
  unused := hun
  armed := harm
  queue := hq
  quiet := hc
  overlay h := ho.trans h
  replies := ⟨[], by rw [hr, List.append_nil]⟩
  trace := ⟨new, ht, .same ho, by rw [hl]; exact hst.symm⟩

/-! ### Output, replies, traps -/

theorem evolves_emit (e : Event) (he : irqLevels [e] = []) (s : State) : Evolves s (s.emit e) :=
  .of_fields [e] rfl rfl (fun _ _ => rfl) rfl rfl id rfl rfl rfl he rfl

theorem evolves_diag (k : DiagKind) (a : BusAddr) (s : State) : Evolves s (s.diag k a) := evolves_emit _ rfl s

theorem evolves_emitVia (e : Event) (he : irqLevels [e] = []) (s : State) : Evolves s (s.emitVia e) :=
  .of_fields [e] rfl rfl (fun _ _ => rfl) rfl rfl (fun h => by simp [State.emitVia, h]) rfl rfl rfl he rfl

theorem evolves_reply (r : Reply) (s : State) : Evolves s (s.reply r) where
  cfg := rfl
  rom := rfl
  unused _ _ := rfl
  armed := rfl
  queue := rfl
  quiet h := h
  overlay h := h
  replies := ⟨[r], rfl⟩
  trace := ⟨[], (List.append_nil _).symm, .same rfl, rfl⟩

theorem evolves_trap (label : TrapLabel) (addr : Long) (resume : Resume) (s : State) :
    Evolves s (trap label addr resume s).2 := by
  unfold trap
  split
  · exact .refl s
  · exact .of_fields [.trap (s.display label addr)] rfl rfl (fun _ _ => rfl) rfl rfl id rfl rfl rfl rfl rfl

/-! ### The VIA -/

theorem evolves_reassess (s : State) : Evolves s (reassess s) := by
  unfold reassess
  split
  · exact .refl s
  · next h =>
    exact {
      cfg := rfl
      rom := rfl
      unused _ _ := rfl
      armed := rfl
      queue := rfl
      quiet h := by simp [State.emitVia, h]
      overlay h := h
      replies := ⟨[], (List.append_nil _).symm⟩
      trace := ⟨[.irqLevel s.via.level], rfl, .same rfl, h, rfl⟩ }

/-- A write of VIA fields other than the status and the unused cells. -/
theorem evolves_via (s : State) (via : Via) (hun : ∀ i : RegIdx, 13 ≤ i.toNat → via.get i = s.via.get i)
    (hst : via.irqStatus = s.via.irqStatus) : Evolves s { s with via := via } :=
  .of_fields [] rfl rfl hun rfl rfl id rfl rfl (List.append_nil _).symm rfl hst

theorem evolves_set (s : State) (i : RegIdx) (x : Byte) (hi : i.toNat < 13) : Evolves s { s with via := s.via.set i x } := by
  refine evolves_via s _ (fun j hj => ?_) rfl
  rw [Via.get_set, if_neg]
  rintro rfl
  omega

theorem evolves_readRegister (i : RegIdx) (s : State) : Evolves s (readRegister i s).2 := by
  have hA : Evolves s (readPortA s).2 :=
    .of_fields [] rfl rfl (fun _ _ => rfl) rfl rfl id rfl rfl (List.append_nil _).symm rfl rfl
  have hB : Evolves s (readPortB s).2 :=
    .of_fields [] rfl rfl (fun _ _ => rfl) rfl rfl id rfl rfl (List.append_nil _).symm rfl rfl
  unfold readRegister
  split
  · exact hB
  · exact hA
  · exact evolves_via s _ (fun _ _ => rfl) rfl
  · exact .refl s
  · exact .refl s
  · exact hA
  · exact .refl s

theorem evolves_viaRead (i : RegIdx) (s : State) : Evolves s (viaRead i s).2 :=
  (evolves_readRegister i s).trans (evolves_reassess _)

theorem evolves_portAChanged (v : Byte) (s : State) : Evolves s (portAChanged v s) := by
  unfold portAChanged remap
  split
  · next h => exact {
      cfg := rfl
      rom := rfl
      unused _ _ := rfl
      armed := rfl
      queue := rfl
      quiet h := by simp [State.emitVia, h]
      overlay _ := rfl
      replies := ⟨[], (List.append_nil _).symm⟩
      trace := ⟨[.portAChanged v], rfl, fun _ _ => ⟨v, List.mem_singleton_self _, h.2⟩, rfl⟩ }
  · exact evolves_emitVia _ rfl s

theorem evolves_writePortA (v : Byte) (s : State) : Evolves s (writePortA v s) := by
  unfold writePortA
  refine Evolves.trans ?_ (evolves_set _ regOra v (by decide))
  split
  · exact .refl s
  · exact evolves_portAChanged v s

theorem evolves_writePortB (v : Byte) (s : State) : Evolves s (writePortB v s) := by
  unfold writePortB
  refine Evolves.trans ?_ (evolves_set _ regOrb v (by decide))
  split
  · exact .refl s
  · exact evolves_emitVia _ rfl s

theorem evolves_writeSr (a : BusAddr) (v : Byte) (s : State) : Evolves s (writeSr a v s) := by
  unfold writeSr
  split
  · unfold writeSrOut
    refine Evolves.trans ?_ (evolves_via _ _ (fun _ _ => rfl) rfl)
    split
    · exact .refl s
    · exact evolves_diag _ _ s
  · exact evolves_set s regSr _ (by decide)
  · exact .refl s
  · exact .refl s

theorem evolves_releasePending (s : State) : Evolves s (releasePending s) := by
  unfold releasePending
  split
  · exact (evolves_via s { s.via with shiftPending := none } (fun _ _ => rfl) rfl).trans (evolves_emitVia _ rfl _)
  · exact .refl s

theorem evolves_writeIfr (v : Byte) (s : State) : Evolves s (writeIfr v s) := by
  have h : Evolves s { s with via := s.via.unlatch (s.via.acked v) } := evolves_via s _ (fun _ _ => rfl) rfl
  unfold writeIfr
  dsimp only
  split
  · exact h
  · exact h.trans (evolves_releasePending _)

theorem evolves_writeRegister (i : RegIdx) (a : BusAddr) (v : Byte) (s : State) : Evolves s (writeRegister i a v s) := by
  unfold writeRegister
  split
  · exact evolves_writePortB v s
  · exact evolves_writePortA v s
  · exact evolves_writeSr a v s
  · exact evolves_writeIfr v s
  · exact evolves_via s _ (fun _ _ => rfl) rfl
  · exact evolves_writePortA v s
  · next h13 h14 h15 =>
    simp only [imp_false] at *
    exact evolves_set s i v (by have := i.isLt; omega)

theorem evolves_viaWrite (i : RegIdx) (a : BusAddr) (v : Byte) (s : State) : Evolves s (viaWrite i a v s) :=
  (evolves_writeRegister i a v s).trans (evolves_reassess _)

theorem evolves_notifyEdge (line : EdgeLine) (s : State) : Evolves s (notifyEdge line s) :=
  (evolves_via s (s.via.latch (edgeMask s.cfg line)) (fun _ _ => rfl) rfl).trans (evolves_reassess _)

theorem evolves_receiveShiftByte (b : Byte) (s : State) : Evolves s (receiveShiftByte b s) := by
  unfold receiveShiftByte
  split
  · exact ((evolves_set s regSr b (by decide)).trans (evolves_via _ ((s.via.set regSr b).latch (srMask s.cfg))
      (fun _ _ => rfl) rfl)).trans (evolves_reassess _)
  · exact evolves_diag _ _ s

/-! ### The byte path and the accesses -/

theorem evolves_sccAccess (label : TrapLabel) (a : BusAddr) (resume : Resume) (s : State) :
    Evolves s (sccAccess label a resume s).2 := (evolves_diag _ _ s).trans (evolves_trap _ _ _ _)

theorem evolves_romWriteRejected (a : BusAddr) (resume : Resume) (s : State) :
    Evolves s (romWriteRejected a resume s).2 := (evolves_diag _ _ s).trans (evolves_trap _ _ _ _)

theorem evolves_iwmWrite (i : RegIdx) (a : BusAddr) (v : Byte) (s : State) : Evolves s (iwmWrite i a v s) := by
  unfold iwmWrite
  split
  · exact .of_fields [] rfl rfl (fun _ _ => rfl) rfl rfl id rfl rfl (List.append_nil _).symm rfl rfl
  · exact .of_fields [.diag .iwmUnhandled a] rfl rfl (fun _ _ => rfl) rfl rfl id rfl rfl rfl rfl rfl

theorem evolves_ramWrite (off : Nat) (v : Byte) (s : State) : Evolves s (ramWrite off v s) :=
  .of_fields [] rfl rfl (fun _ _ => rfl) rfl rfl id rfl rfl (List.append_nil _).symm rfl rfl

theorem evolves_byteRead (addr : Long) (resume : Resume) (s : State) : Evolves s (byteRead addr resume s).2 := by
  unfold byteRead
  dsimp only
  split
  · exact .refl s
  · exact evolves_sccAccess _ _ _ s
  · exact evolves_sccAccess _ _ _ s
  · exact evolves_viaRead _ s
  · exact .refl s
  · exact .refl s
  · exact .refl s
  · exact evolves_diag _ _ s

theorem evolves_byteWrite (addr : Long) (v : Byte) (resume : Resume) (s : State) :
    Evolves s (byteWrite addr v resume s).2 := by
  unfold byteWrite
  dsimp only
  split
  · exact evolves_iwmWrite _ _ _ s
  · exact evolves_sccAccess _ _ _ s
  · exact evolves_sccAccess _ _ _ s
  · exact evolves_viaWrite _ _ _ s
  · exact evolves_romWriteRejected _ _ s
  · exact evolves_romWriteRejected _ _ s
  · exact evolves_ramWrite _ _ s
  · exact evolves_diag _ _ s

theorem evolves_renderRead (index : Nat) (s : State) : Evolves s (renderRead index s) := by
  unfold renderRead
  split
  · exact evolves_emit _ rfl s
  · exact .refl s

theorem evolves_agentEvent (e : AgentEvent) (s : State) : Evolves s (agentEvent e s) := by
  cases e with
  | edge line => exact evolves_notifyEdge line s
  | rxsr b => exact evolves_receiveShiftByte b s
  | render i => exact evolves_renderRead i s

theorem evolves_agentEvents (es : List AgentEvent) (s : State) : Evolves s (agentEvents es s) := by
  induction es generalizing s with
  | nil => exact .refl s
  | cons e es ih => exact (evolves_agentEvent e s).trans (ih _)

theorem evolves_boundary (more : Bool) (s : State) : Evolves s (boundary more s) := by
  unfold boundary
  split
  · next es later _ =>
    have h : Evolves s { s with agenda := later } :=
      .of_fields [] rfl rfl (fun _ _ => rfl) rfl rfl id rfl rfl (List.append_nil _).symm rfl rfl
    exact h.trans (evolves_agentEvents _ _)
  · exact .refl s

theorem evolves_memRead (w : Width) (addrs : List Long) (acc : Long) (s : State) : Evolves s (memRead w addrs acc s) := by
  induction addrs generalizing acc s with
  | nil => exact evolves_reply _ s
  | cons addr rest ih =>
    have h := evolves_byteRead addr (.read w acc rest) s
    unfold memRead
    dsimp only
    split
    · exact (h.trans (evolves_boundary _ _)).trans (ih _ _)
    · exact h

theorem evolves_memWrite (writes : List (Long × Byte)) (s : State) : Evolves s (memWrite writes s) := by
  induction writes generalizing s with
  | nil => exact evolves_reply _ s
  | cons x rest ih =>
    have h := evolves_byteWrite x.1 x.2 (.write rest) s
    unfold memWrite
    dsimp only
    split
    · exact (h.trans (evolves_boundary _ _)).trans (ih _)
    · exact h

theorem evolves_resumeCall (resume : Resume) (s : State) : Evolves s (resumeCall resume s) := by
  cases resume with
  | hook => exact evolves_reply _ s
  | read w acc rest => exact (evolves_boundary _ s).trans (evolves_memRead _ _ _ _)
  | write rest => exact (evolves_boundary _ s).trans (evolves_memWrite _ _)

end Sys2Proof.Machine
end

