-- ==== Sys2Proof/Laws/Memory.lean ====
section
/-! SUPPORT. The byte arrays: reads after writes, and that every operation keeps the canonical form and the bound. -/

namespace Sys2Proof.Machine

@[simp] theorem Memory.read_nil (k : Nat) : Memory.read [] k = 0#8 := rfl

@[simp] theorem Memory.read_cons (k j : Nat) (v : Byte) (m : Memory) :
    Memory.read ((j, v) :: m) k = if j = k then v else Memory.read m k := rfl

/-- Below its first offset an array reads as unlisted. -/
theorem Memory.read_of_wfFrom {m : Memory} {lo k : Nat} (h : Memory.wfFrom lo m = true) (hk : k < lo) : m.read k = 0#8 := by
  induction m generalizing lo with
  | nil => rfl
  | cons c m ih =>
    simp only [Memory.wfFrom, Bool.and_eq_true, decide_eq_true_eq] at h
    rw [Memory.read_cons, if_neg (by omega)]
    exact ih h.2 (by omega)

theorem Memory.wfFrom_mono {m : Memory} {lo lo' : Nat} (h : Memory.wfFrom lo' m = true) (hle : lo ≤ lo') :
    Memory.wfFrom lo m = true := by
  cases m with
  | nil => rfl
  | cons c m =>
    simp only [Memory.wfFrom, Bool.and_eq_true, decide_eq_true_eq] at h ⊢
    exact ⟨⟨by omega, h.1.2⟩, h.2⟩

/-- Listing a byte before an array keeps the form. -/
theorem Memory.wfFrom_cons {m : Memory} {lo k : Nat} (v : Byte) (h : Memory.wfFrom (k + 1) m = true) (hle : lo ≤ k) :
    Memory.wfFrom lo (Memory.cons k v m) = true := by
  unfold Memory.cons
  split
  · exact Memory.wfFrom_mono h (by omega)
  · next hv => simp [Memory.wfFrom, h, hle, hv]

/-- What an array with a byte listed before it reads as. -/
theorem Memory.read_consCell {m : Memory} {k : Nat} (v : Byte) (h : Memory.wfFrom (k + 1) m = true) (j : Nat) :
    (Memory.cons k v m).read j = if k = j then v else m.read j := by
  unfold Memory.cons
  split
  · next hv =>
    split
    · next hkj => rw [← hkj, hv]; exact Memory.read_of_wfFrom h (by omega)
    · rfl
  · rfl

theorem Memory.wfFrom_write {m : Memory} {lo : Nat} (h : Memory.wfFrom lo m = true) (k : Nat) (v : Byte) (hk : lo ≤ k) :
    Memory.wfFrom lo (m.write k v) = true := by
  induction m generalizing lo with
  | nil => exact Memory.wfFrom_cons v rfl hk
  | cons c m ih =>
    obtain ⟨j, b⟩ := c
    have h' := h
    simp only [Memory.wfFrom, Bool.and_eq_true, decide_eq_true_eq] at h
    unfold Memory.write
    split
    · next hj =>
      simp only [Memory.wfFrom, h.1.1, h.1.2, ih h.2 (by omega), decide_true, Bool.and_true]
    · split
      · next hjk => exact Memory.wfFrom_cons v (hjk ▸ h.2) hk
      · next hj hjk =>
        refine Memory.wfFrom_cons v ?_ hk
        simp only [Memory.wfFrom, h.1.2, h.2, Bool.and_true, decide_eq_true_eq]
        omega

/-- A write keeps the canonical form. -/
theorem Memory.wf_write {m : Memory} (h : m.wf = true) (k : Nat) (v : Byte) : (m.write k v).wf = true :=
  Memory.wfFrom_write h k v (Nat.zero_le k)

theorem Memory.read_write_from {m : Memory} {lo : Nat} (h : Memory.wfFrom lo m = true) (k : Nat) (v : Byte) (j : Nat) :
    (m.write k v).read j = if k = j then v else m.read j := by
  induction m generalizing lo with
  | nil => rw [Memory.write, Memory.read_consCell v rfl]
  | cons c m ih =>
    obtain ⟨i, b⟩ := c
    simp only [Memory.wfFrom, Bool.and_eq_true, decide_eq_true_eq] at h
    unfold Memory.write
    split
    · next hi =>
      rw [Memory.read_cons, Memory.read_cons, ih h.2]
      split <;> split <;> first | rfl | omega
    · split
      · next hik =>
        subst hik
        rw [Memory.read_consCell v h.2, Memory.read_cons]
        split <;> rfl
      · next hi hik =>
        have : Memory.wfFrom (k + 1) ((i, b) :: m) = true := by
          simp only [Memory.wfFrom, h.1.2, h.2, Bool.and_true, decide_eq_true_eq]; omega
        rw [Memory.read_consCell v this]

/-- A read after a write: the value at its offset, and every other offset as before. -/
theorem Memory.read_write {m : Memory} (h : m.wf = true) (k : Nat) (v : Byte) (j : Nat) :
    (m.write k v).read j = if k = j then v else m.read j :=
  Memory.read_write_from h k v j

theorem Memory.below_cons {size : Nat} {m : Memory} {k : Nat} (v : Byte) (h : m.below size = true) (hk : k < size) :
    (Memory.cons k v m).below size = true := by
  unfold Memory.cons
  split
  · exact h
  · simp only [Memory.below, List.all_cons, Bool.and_eq_true, decide_eq_true_eq]; exact ⟨hk, h⟩

/-- A write below the bound keeps the bound. -/
theorem Memory.below_write {size : Nat} {m : Memory} (h : m.below size = true) {k : Nat} (v : Byte) (hk : k < size) :
    (m.write k v).below size = true := by
  induction m with
  | nil => exact Memory.below_cons v rfl hk
  | cons c m ih =>
    obtain ⟨j, b⟩ := c
    have h' := h
    simp only [Memory.below, List.all_cons, Bool.and_eq_true, decide_eq_true_eq] at h
    unfold Memory.write
    split
    · simp only [Memory.below, List.all_cons, Bool.and_eq_true, decide_eq_true_eq]; exact ⟨h.1, ih h.2⟩
    · split
      · exact Memory.below_cons v h.2 hk
      · exact Memory.below_cons v h' hk

/-! ### Images -/

theorem Memory.wfFrom_ofBytes (k : Nat) (bs : List Byte) : Memory.wfFrom k (Memory.ofBytes k bs) = true := by
  induction bs generalizing k with
  | nil => rfl
  | cons b bs ih => exact Memory.wfFrom_cons b (ih (k + 1)) (Nat.le_refl k)

theorem Memory.read_ofBytes (k : Nat) (bs : List Byte) (j : Nat) (h : j < bs.length) :
    (Memory.ofBytes k bs).read (k + j) = bs[j] := by
  induction bs generalizing k j with
  | nil => simp at h
  | cons b bs ih =>
    rw [Memory.ofBytes, Memory.read_consCell b (Memory.wfFrom_ofBytes (k + 1) bs)]
    cases j with
    | zero => simp
    | succ j =>
      rw [if_neg (by omega), show k + (j + 1) = k + 1 + j by omega, ih (k + 1) j (by simpa using h)]
      rfl

theorem Memory.below_ofBytes (k : Nat) (bs : List Byte) (size : Nat) (h : k + bs.length ≤ size) :
    (Memory.ofBytes k bs).below size = true := by
  induction bs generalizing k with
  | nil => rfl
  | cons b bs ih =>
    simp only [List.length_cons] at h
    exact Memory.below_cons b (ih (k + 1) (by omega)) (by omega)

end Sys2Proof.Machine
end

