-- ==== Sys2Proof/Laws/Keeps.lean ====
section
/-! SUPPORT. The operations keep the invariant: the canonical form and the bounds of ROM and RAM, the reserved bits of the VIA's
masks, the settled status, and what a trap wait records. -/

namespace Sys2Proof.Machine

/-- The part of the invariant that holds inside an operation of the VIA too, before its reassessment. -/
structure State.Sound (s : State) : Prop where
  cfgOk : s.cfg.wf = true
  romOk : s.rom.wf = true ∧ s.rom.below s.cfg.romSize = true
  ramOk : s.ram.wf = true ∧ s.ram.below s.cfg.ramSize = true
  enableOk : s.via.irqEnable.getLsbD 7 = false
  activeOk : s.via.irqActive &&& ~~~sourcesMask s.cfg = 0#8
  noopOk : s.cfg.debugSink = .noop → s.singleStepArmed = false

/-- An operation that keeps what the machine keeps between two VIA operations, and leaves a trap wait as it is. -/
structure Keeps (s t : State) : Prop where
  sound : s.Sound → t.Sound
  settled : s.via.Settled → t.via.Settled
  trapWait : t.trapWait = s.trapWait

theorem Keeps.refl (s : State) : Keeps s s := ⟨id, id, rfl⟩

theorem Keeps.trans {s t u : State} (h : Keeps s t) (h' : Keeps t u) : Keeps s u :=
  ⟨fun x => h'.sound (h.sound x), fun x => h'.settled (h.settled x), h'.trapWait.trans h.trapWait⟩

/-- An operation that writes none of the fields these rest on. -/
theorem Keeps.of_fields {s t : State} (hcfg : t.cfg = s.cfg) (hrom : t.rom = s.rom) (hram : t.ram = s.ram)
    (he : t.via.irqEnable = s.via.irqEnable) (ha : t.via.irqActive = s.via.irqActive)
    (hs : t.via.irqStatus = s.via.irqStatus) (harm : t.singleStepArmed = s.singleStepArmed)
    (hw : t.trapWait = s.trapWait) : Keeps s t := by
  refine ⟨fun h => ⟨?_, ?_, ?_, ?_, ?_, ?_⟩, fun h => ?_, hw⟩
  · rw [hcfg]; exact h.cfgOk
  · rw [hcfg, hrom]; exact h.romOk
  · rw [hcfg, hram]; exact h.ramOk
  · rw [he]; exact h.enableOk
  · rw [ha, hcfg]; exact h.activeOk
  · rw [hcfg, harm]; exact h.noopOk
  · rw [Via.Settled, hs, Via.level, he, ha]; exact h

/-! ### Masks -/

/-- Latching a modelled source keeps the others clear. -/
theorem latch_active {x m k : Byte} (hx : x &&& k = 0#8) (hm : m &&& k = 0#8) : (x ||| m) &&& k = 0#8 := by
  apply BitVec.eq_of_getLsbD_eq
  intro i _
  have a := congrArg (·.getLsbD i) hx
  have b := congrArg (·.getLsbD i) hm
  simp only [BitVec.getLsbD_and, BitVec.getLsbD_or, BitVec.getLsbD_zero] at a b ⊢
  revert a b
  cases k.getLsbD i <;> cases x.getLsbD i <;> cases m.getLsbD i <;> decide

/-- Clearing sources keeps the clear ones clear. -/
theorem unlatch_active {x m k : Byte} (hx : x &&& k = 0#8) : (x &&& m) &&& k = 0#8 := by
  apply BitVec.eq_of_getLsbD_eq
  intro i _
  have a := congrArg (·.getLsbD i) hx
  simp only [BitVec.getLsbD_and, BitVec.getLsbD_zero] at a ⊢
  revert a
  cases k.getLsbD i <;> cases x.getLsbD i <;> cases m.getLsbD i <;> decide

/-- Each modelled source is among the modelled sources. -/
theorem source_active (a b c : Byte) : a &&& ~~~(a ||| b ||| c) = 0#8 ∧ b &&& ~~~(a ||| b ||| c) = 0#8 ∧
    c &&& ~~~(a ||| b ||| c) = 0#8 := by
  refine ⟨?_, ?_, ?_⟩ <;>
  · apply BitVec.eq_of_getLsbD_eq
    intro i hi
    simp only [BitVec.getLsbD_and, BitVec.getLsbD_or, BitVec.getLsbD_not, hi, decide_true, Bool.true_and, BitVec.getLsbD_zero]
    cases a.getLsbD i <;> cases b.getLsbD i <;> cases c.getLsbD i <;> rfl

theorem srMask_active (cfg : Config) : srMask cfg &&& ~~~sourcesMask cfg = 0#8 := (source_active _ _ _).2.2

theorem edgeMask_active (cfg : Config) (line : EdgeLine) : edgeMask cfg line &&& ~~~sourcesMask cfg = 0#8 := by
  cases line
  · exact (source_active _ _ _).2.1
  · exact (source_active _ _ _).1

theorem enableAfter_bit7 (e v : Byte) (h : e.getLsbD 7 = false) : (enableAfter e v).getLsbD 7 = false := by
  unfold enableAfter
  split <;> simp only [BitVec.getLsbD_or, BitVec.getLsbD_and, h, mask7_bit 7 (by decide)] <;> simp

/-! ### The VIA -/

/-- The reassessment settles the block and keeps the rest. -/
theorem reassess_keeps (s : State) :
    (reassess s).via.Settled ∧ (s.Sound → (reassess s).Sound) ∧ (reassess s).trapWait = s.trapWait := by
  unfold reassess
  split
  · next h => exact ⟨h.symm, id, rfl⟩
  · exact ⟨rfl, fun h => ⟨h.cfgOk, h.romOk, h.ramOk, h.enableOk, h.activeOk, h.noopOk⟩, rfl⟩

/-- A VIA operation, with its closing reassessment, keeps what the machine keeps if its own effect keeps the masks. -/
theorem Keeps.reassess {s t : State} (h : s.Sound → t.Sound) (hw : t.trapWait = s.trapWait) : Keeps s (reassess t) :=
  ⟨fun x => (reassess_keeps t).2.1 (h x), fun _ => (reassess_keeps t).1, (reassess_keeps t).2.2.trans hw⟩

/-- A change of the latched sources among the modelled ones. -/
theorem State.Sound.active {s : State} (h : s.Sound) (via : Via) (he : via.irqEnable = s.via.irqEnable)
    (ha : via.irqActive &&& ~~~sourcesMask s.cfg = 0#8) : State.Sound { s with via := via } :=
  ⟨h.cfgOk, h.romOk, h.ramOk, by rw [← h.enableOk, ← he], ha, h.noopOk⟩

theorem keeps_readRegister (i : RegIdx) (s : State) :
    (s.Sound → (readRegister i s).2.Sound) ∧ (readRegister i s).2.trapWait = s.trapWait := by
  have hA : Keeps s (readPortA s).2 := .of_fields rfl rfl rfl rfl rfl rfl rfl rfl
  have hB : Keeps s (readPortB s).2 := .of_fields rfl rfl rfl rfl rfl rfl rfl rfl
  unfold readRegister
  split
  · exact ⟨hB.sound, rfl⟩
  · exact ⟨hA.sound, rfl⟩
  · exact ⟨fun h => h.active _ rfl (unlatch_active h.activeOk), rfl⟩
  · exact ⟨id, rfl⟩
  · exact ⟨id, rfl⟩
  · exact ⟨hA.sound, rfl⟩
  · exact ⟨id, rfl⟩

theorem keeps_viaRead (i : RegIdx) (s : State) : Keeps s (viaRead i s).2 :=
  .reassess (keeps_readRegister i s).1 (keeps_readRegister i s).2

theorem keeps_portAChanged (v : Byte) (s : State) : Keeps s (portAChanged v s) := by
  unfold portAChanged remap
  split <;> exact .of_fields rfl rfl rfl rfl rfl rfl rfl rfl

theorem keeps_writePortA (v : Byte) (s : State) : Keeps s (writePortA v s) := by
  have hset : ∀ t : State, Keeps t { t with via := t.via.set regOra v } := fun t => .of_fields rfl rfl rfl rfl rfl rfl rfl rfl
  unfold writePortA
  refine Keeps.trans ?_ (hset _)
  split
  · exact .refl s
  · exact keeps_portAChanged v s

theorem keeps_writePortB (v : Byte) (s : State) : Keeps s (writePortB v s) := by
  have hset : ∀ t : State, Keeps t { t with via := t.via.set regOrb v } := fun t => .of_fields rfl rfl rfl rfl rfl rfl rfl rfl
  unfold writePortB
  refine Keeps.trans ?_ (hset _)
  split
  · exact .refl s
  · exact .of_fields rfl rfl rfl rfl rfl rfl rfl rfl

theorem sound_writeSr (a : BusAddr) (v : Byte) (s : State) :
    (s.Sound → (writeSr a v s).Sound) ∧ (writeSr a v s).trapWait = s.trapWait := by
  unfold writeSr
  split
  · unfold writeSrOut
    have hk : Keeps s (if s.via.shiftPending = none then s else s.diag .srOverrun a) := by
      split
      · exact .refl s
      · exact .of_fields rfl rfl rfl rfl rfl rfl rfl rfl
    refine ⟨fun h => (hk.sound h).active _ rfl (latch_active (hk.sound h).activeOk ?_), hk.trapWait⟩
    have hc : (if s.via.shiftPending = none then s else s.diag .srOverrun a).cfg = s.cfg := by split <;> rfl
    rw [hc]
    exact srMask_active s.cfg
  · exact ⟨(Keeps.of_fields (s := s) (t := writeSrClear s) rfl rfl rfl rfl rfl rfl rfl rfl).sound, rfl⟩
  · exact ⟨id, rfl⟩
  · exact ⟨id, rfl⟩

theorem sound_writeIfr (v : Byte) (s : State) :
    (s.Sound → (writeIfr v s).Sound) ∧ (writeIfr v s).trapWait = s.trapWait := by
  have h0 : s.Sound → State.Sound { s with via := s.via.unlatch (s.via.acked v) } :=
    fun h => h.active _ rfl (unlatch_active h.activeOk)
  unfold writeIfr
  dsimp only
  split
  · exact ⟨h0, rfl⟩
  · have hk : ∀ t : State, Keeps t (releasePending t) := by
      intro t
      unfold releasePending
      split
      · exact .of_fields rfl rfl rfl rfl rfl rfl rfl rfl
      · exact .refl t
    exact ⟨fun h => (hk _).sound (h0 h), (hk _).trapWait⟩

theorem sound_writeRegister (i : RegIdx) (a : BusAddr) (v : Byte) (s : State) :
    (s.Sound → (writeRegister i a v s).Sound) ∧ (writeRegister i a v s).trapWait = s.trapWait := by
  unfold writeRegister
  split
  · exact ⟨(keeps_writePortB v s).sound, (keeps_writePortB v s).trapWait⟩
  · exact ⟨(keeps_writePortA v s).sound, (keeps_writePortA v s).trapWait⟩
  · exact sound_writeSr a v s
  · exact sound_writeIfr v s
  · exact ⟨fun h => ⟨h.cfgOk, h.romOk, h.ramOk, enableAfter_bit7 _ _ h.enableOk, h.activeOk, h.noopOk⟩, rfl⟩
  · exact ⟨(keeps_writePortA v s).sound, (keeps_writePortA v s).trapWait⟩
  · exact ⟨(Keeps.of_fields (s := s) (t := writePlain i v s) rfl rfl rfl rfl rfl rfl rfl rfl).sound, rfl⟩

theorem keeps_viaWrite (i : RegIdx) (a : BusAddr) (v : Byte) (s : State) : Keeps s (viaWrite i a v s) :=
  .reassess (sound_writeRegister i a v s).1 (sound_writeRegister i a v s).2

theorem keeps_notifyEdge (line : EdgeLine) (s : State) : Keeps s (notifyEdge line s) :=
  .reassess (fun h => h.active _ rfl (latch_active h.activeOk (edgeMask_active s.cfg line))) rfl

theorem keeps_receiveShiftByte (b : Byte) (s : State) : Keeps s (receiveShiftByte b s) := by
  unfold receiveShiftByte
  split
  · exact .reassess (fun h => h.active _ rfl (latch_active h.activeOk (srMask_active s.cfg))) rfl
  · exact .of_fields rfl rfl rfl rfl rfl rfl rfl rfl

/-! ### Agents between two bytes -/

theorem keeps_renderRead (index : Nat) (s : State) : Keeps s (renderRead index s) := by
  unfold renderRead
  split
  · exact .of_fields rfl rfl rfl rfl rfl rfl rfl rfl
  · exact .refl s

theorem keeps_agentEvents (es : List AgentEvent) (s : State) : Keeps s (agentEvents es s) := by
  induction es generalizing s with
  | nil => exact .refl s
  | cons e es ih =>
    refine Keeps.trans ?_ (ih _)
    cases e with
    | edge line => exact keeps_notifyEdge line s
    | rxsr b => exact keeps_receiveShiftByte b s
    | render i => exact keeps_renderRead i s

theorem keeps_boundary (more : Bool) (s : State) : Keeps s (boundary more s) := by
  unfold boundary
  split
  · next es later _ =>
    have h : Keeps s { s with agenda := later } := .of_fields rfl rfl rfl rfl rfl rfl rfl rfl
    exact h.trans (keeps_agentEvents _ _)
  · exact .refl s

/-! ### The byte path -/

/-- Where the region decoder answers RAM, the offset is below `RAM_SIZE`. -/
theorem ram_offset_lt {cfg : Config} {overlay : Bool} {a : BusAddr} {off : Nat}
    (h : decodeRegion cfg overlay a = .ram off) : off < cfg.ramSize := by
  rcases decodeRegion_cases cfg overlay a with ⟨_, _, e⟩ | ⟨_, e⟩ | ⟨_, e⟩ | ⟨_, e⟩ | ⟨_, _, e⟩ | ⟨_, _, _, e⟩ |
    ⟨_, _, _, hlt, e⟩ | ⟨_, _, _, _, e⟩ <;> rw [e] at h <;> cases h
  exact hlt

/-- A 24-bit address passed as a 32-bit one is the same bus address. -/
theorem busAddr_setWidth (a : BusAddr) : busAddr (a.setWidth 32) = a := by
  apply BitVec.eq_of_toNat_eq
  have := a.isLt
  simp [busAddr]

theorem setWidth_lt (a : BusAddr) : (a.setWidth 32).toNat < 2 ^ 24 := by
  have := a.isLt
  rw [BitVec.toNat_setWidth]
  omega

/-- The outcome of a byte of a call that started with no trap waiting: the byte is done and no trap waits, or its trap waits,
with its cause recorded. -/
structure ByteOutcome (s t : State) (done : Bool) : Prop where
  sound : t.Sound
  settled : t.via.Settled
  running : done = true → t.trapWait = none
  stopped : done = false → s.cfg.debugSink = .interactive ∧ ∃ w, t.trapWait = some w ∧ t.WaitOk w

theorem ByteOutcome.of_keeps {s t : State} (hk : Keeps s t) (hs : s.Sound) (hset : s.via.Settled) (hw : s.trapWait = none) :
    ByteOutcome s t true :=
  ⟨hk.sound hs, hk.settled hset, fun _ => hk.trapWait.trans hw, fun h => by cases h⟩

/-- The trap of a byte access. -/
theorem trap_outcome {s : State} (hs : s.Sound) (hset : s.via.Settled) (hw : s.trapWait = none) (label : TrapLabel)
    (kind : DiagKind) (a : BusAddr) (resume : Resume)
    (hok : s.WaitOk { label := label, addr := a.setWidth 32, resume := resume }) :
    ByteOutcome s (trap label (a.setWidth 32) resume (s.diag kind a)).2
      (trap label (a.setWidth 32) resume (s.diag kind a)).1 := by
  have hd : Keeps s (s.diag kind a) := .of_fields rfl rfl rfl rfl rfl rfl rfl rfl
  have hk := hd.sound hs
  unfold trap
  split
  · exact ByteOutcome.of_keeps hd hs hset hw
  · next hsink =>
    refine ⟨⟨hk.cfgOk, hk.romOk, hk.ramOk, hk.enableOk, hk.activeOk, hk.noopOk⟩, hset, fun h => (by cases h), fun _ => ⟨hsink, _, rfl, ?_⟩⟩
    exact hok

theorem byteRead_outcome (addr : Long) (w : Width) (acc : Long) (rest : List Long) {s : State} (hs : s.Sound)
    (hset : s.via.Settled) (hw : s.trapWait = none) :
    ByteOutcome s (byteRead addr (.read w acc rest) s).2 (byteRead addr (.read w acc rest) s).1.isSome := by
  have hdone : ∀ r : Byte × State, Keeps s r.2 → ByteOutcome s (always r).2 (always r).1.isSome :=
    fun r hk => .of_keeps hk hs hset hw
  unfold byteRead
  dsimp only
  have hscc : ∀ label, s.WaitOk { label := label, addr := (busAddr addr).setWidth 32, resume := .read w acc rest } →
      ByteOutcome s (sccRead label (busAddr addr) (.read w acc rest) s).2
        (sccRead label (busAddr addr) (.read w acc rest) s).1.isSome := by
    intro label hok
    have := trap_outcome hs hset hw label .sccAccess (busAddr addr) (.read w acc rest) hok
    unfold sccRead sccAccess
    dsimp only
    cases h : (trap label ((busAddr addr).setWidth 32) (.read w acc rest) (s.diag .sccAccess (busAddr addr))).1 <;>
      rw [h] at this <;> exact this
  split
  · exact .of_keeps (.refl s) hs hset hw
  · next h => exact hscc .sccRead ⟨by simp, setWidth_lt _, by rw [State.region, busAddr_setWidth]; exact h⟩
  · next h => exact hscc .sccWrite ⟨by simp, setWidth_lt _, by rw [State.region, busAddr_setWidth]; exact h⟩
  · exact hdone _ (keeps_viaRead _ s)
  · exact hdone _ (.refl s)
  · exact hdone _ (.refl s)
  · exact hdone _ (.refl s)
  · exact hdone _ (.of_fields rfl rfl rfl rfl rfl rfl rfl rfl)

theorem byteWrite_outcome (addr : Long) (v : Byte) (rest : List (Long × Byte)) {s : State} (hs : s.Sound)
    (hset : s.via.Settled) (hw : s.trapWait = none) :
    ByteOutcome s (byteWrite addr v (.write rest) s).2 (byteWrite addr v (.write rest) s).1 := by
  unfold byteWrite
  dsimp only
  split
  · refine .of_keeps ?_ hs hset hw
    unfold iwmWrite
    split <;> exact .of_fields rfl rfl rfl rfl rfl rfl rfl rfl
  · next h =>
    exact trap_outcome hs hset hw _ _ _ _ ⟨by simp, setWidth_lt _, by rw [State.region, busAddr_setWidth]; exact h⟩
  · next h =>
    exact trap_outcome hs hset hw _ _ _ _ ⟨by simp, setWidth_lt _, by rw [State.region, busAddr_setWidth]; exact h⟩
  · exact .of_keeps (keeps_viaWrite _ _ _ s) hs hset hw
  · next off h =>
    exact trap_outcome hs hset hw _ _ _ _
      ⟨⟨rest, rfl⟩, setWidth_lt _, off, .inl (by rw [State.region, busAddr_setWidth]; exact h)⟩
  · next off h =>
    exact trap_outcome hs hset hw _ _ _ _
      ⟨⟨rest, rfl⟩, setWidth_lt _, off, .inr (by rw [State.region, busAddr_setWidth]; exact h)⟩
  · next off h =>
    refine .of_keeps ⟨fun hs => ?_, id, rfl⟩ hs hset hw
    exact ⟨hs.cfgOk, hs.romOk, ⟨Memory.wf_write hs.ramOk.1 off v, Memory.below_write hs.ramOk.2 v (ram_offset_lt h)⟩,
      hs.enableOk, hs.activeOk, hs.noopOk⟩
  · exact .of_keeps (.of_fields rfl rfl rfl rfl rfl rfl rfl rfl) hs hset hw

/-! ### The accesses -/

/-- What a call that has run, to its return or into a trap, keeps. -/
structure CallOutcome (s t : State) : Prop where
  sound : t.Sound
  settled : t.via.Settled
  wait : t.trapWait = none ∨ s.cfg.debugSink = .interactive ∧ ∃ w, t.trapWait = some w ∧ t.WaitOk w

theorem memRead_outcome (w : Width) (addrs : List Long) (acc : Long) {s : State} (hs : s.Sound) (hset : s.via.Settled)
    (hw : s.trapWait = none) : CallOutcome s (memRead w addrs acc s) := by
  induction addrs generalizing acc s with
  | nil =>
    have hk : Keeps s (s.reply (w.reply acc)) := .of_fields rfl rfl rfl rfl rfl rfl rfl rfl
    exact ⟨hk.sound hs, hset, .inl hw⟩
  | cons addr rest ih =>
    have ho := byteRead_outcome addr w acc rest hs hset hw
    have he := evolves_byteRead addr (.read w acc rest) s
    unfold memRead
    dsimp only
    split
    · next b hb =>
      rw [hb] at ho
      have hk := keeps_boundary (!rest.isEmpty) (byteRead addr (.read w acc rest) s).2
      have h := ih (shiftIn acc b) (hk.sound ho.sound) (hk.settled ho.settled) (hk.trapWait.trans (ho.running rfl))
      refine ⟨h.sound, h.settled, ?_⟩
      have hc := (he.trans (evolves_boundary (!rest.isEmpty) _)).cfg
      have := h.wait
      rwa [hc] at this
    · next hb =>
      rw [hb] at ho
      exact ⟨ho.sound, ho.settled, .inr (ho.stopped rfl)⟩

theorem memWrite_outcome (writes : List (Long × Byte)) {s : State} (hs : s.Sound) (hset : s.via.Settled)
    (hw : s.trapWait = none) : CallOutcome s (memWrite writes s) := by
  induction writes generalizing s with
  | nil =>
    have hk : Keeps s (s.reply .done) := .of_fields rfl rfl rfl rfl rfl rfl rfl rfl
    exact ⟨hk.sound hs, hset, .inl hw⟩
  | cons x rest ih =>
    have ho := byteWrite_outcome x.1 x.2 rest hs hset hw
    have he := evolves_byteWrite x.1 x.2 (.write rest) s
    unfold memWrite
    dsimp only
    split
    · next hb =>
      rw [hb] at ho
      have hk := keeps_boundary (!rest.isEmpty) (byteWrite x.1 x.2 (.write rest) s).2
      have h := ih (hk.sound ho.sound) (hk.settled ho.settled) (hk.trapWait.trans (ho.running rfl))
      refine ⟨h.sound, h.settled, ?_⟩
      have hc := (he.trans (evolves_boundary (!rest.isEmpty) _)).cfg
      have := h.wait
      rwa [hc] at this
    · next hb =>
      rw [Bool.not_eq_true] at hb
      rw [hb] at ho
      exact ⟨ho.sound, ho.settled, .inr (ho.stopped rfl)⟩

/-- The rest of a call, once its trap has returned. -/
theorem resumeCall_outcome (resume : Resume) {s : State} (hs : s.Sound) (hset : s.via.Settled) (hw : s.trapWait = none) :
    CallOutcome s (resumeCall resume s) := by
  cases resume with
  | hook =>
    have hk : Keeps s (s.reply .done) := .of_fields rfl rfl rfl rfl rfl rfl rfl rfl
    exact ⟨hk.sound hs, hset, .inl hw⟩
  | read w acc rest =>
    have hk := keeps_boundary (!rest.isEmpty) s
    have h := memRead_outcome w rest (shiftIn acc sentinel) (hk.sound hs) (hk.settled hset) (hk.trapWait.trans hw)
    have := h.wait
    rw [(evolves_boundary (!rest.isEmpty) s).cfg] at this
    exact ⟨h.sound, h.settled, this⟩
  | write rest =>
    have hk := keeps_boundary (!rest.isEmpty) s
    have h := memWrite_outcome rest (hk.sound hs) (hk.settled hset) (hk.trapWait.trans hw)
    have := h.wait
    rw [(evolves_boundary (!rest.isEmpty) s).cfg] at this
    exact ⟨h.sound, h.settled, this⟩

end Sys2Proof.Machine
end

