-- ==== Sys2Proof/Laws/Replies.lean ====
section
/-! SUPPORT. The record of what calls returned is only a record: no byte operation reads or writes it, so a byte operation does
the same whatever it holds. -/

namespace Sys2Proof.Machine

/-- The same state with another record of replies. -/
def State.withReplies (s : State) (r : List Reply) : State := { s with replies := r }

@[simp] theorem State.withReplies_replies (s : State) (r : List Reply) : (s.withReplies r).replies = r := rfl
@[simp] theorem State.withReplies_withReplies (s : State) (r r' : List Reply) :
    (s.withReplies r).withReplies r' = s.withReplies r' := rfl
@[simp] theorem State.withReplies_self (s : State) : s.withReplies s.replies = s := rfl

variable (r : List Reply) (s : State)

theorem reassess_withReplies : reassess (s.withReplies r) = (reassess s).withReplies r := by
  show (if s.via.level = s.via.irqStatus then _ else _) = State.withReplies (if s.via.level = s.via.irqStatus then _ else _) r
  split <;> rfl

theorem trap_withReplies (label : TrapLabel) (addr : Long) (resume : Resume) :
    trap label addr resume (s.withReplies r) =
      ((trap label addr resume s).1, (trap label addr resume s).2.withReplies r) := by
  unfold trap
  show (match s.cfg.debugSink with | .noop => _ | .interactive => _) = _
  cases s.cfg.debugSink <;> rfl

theorem readRegister_withReplies (i : RegIdx) :
    readRegister i (s.withReplies r) = ((readRegister i s).1, (readRegister i s).2.withReplies r) := by
  unfold readRegister
  split <;> rfl

theorem viaRead_withReplies (i : RegIdx) :
    viaRead i (s.withReplies r) = ((viaRead i s).1, (viaRead i s).2.withReplies r) := by
  simp only [viaRead, readRegister_withReplies, reassess_withReplies]

theorem portAChanged_withReplies (v : Byte) : portAChanged v (s.withReplies r) = (portAChanged v s).withReplies r := by
  unfold portAChanged remap
  show (if s.overlay = true ∧ v.getLsbD s.cfg.overlayBit = false then _ else _) =
    State.withReplies (if s.overlay = true ∧ v.getLsbD s.cfg.overlayBit = false then _ else _) r
  split <;> rfl

theorem writePortA_withReplies (v : Byte) : writePortA v (s.withReplies r) = (writePortA v s).withReplies r := by
  have h : (if v = s.via.get regOra then s.withReplies r else portAChanged v (s.withReplies r)) =
      State.withReplies (if v = s.via.get regOra then s else portAChanged v s) r := by
    split
    · rfl
    · exact portAChanged_withReplies r s v
  exact congrArg (fun t : State => { t with via := t.via.set regOra v }) h

theorem writePortB_withReplies (v : Byte) : writePortB v (s.withReplies r) = (writePortB v s).withReplies r := by
  have h : (if v = s.via.get regOrb then s.withReplies r else (s.withReplies r).emitVia (.portBChanged v)) =
      State.withReplies (if v = s.via.get regOrb then s else s.emitVia (.portBChanged v)) r := by
    split <;> rfl
  exact congrArg (fun t : State => { t with via := t.via.set regOrb v }) h

theorem writeSr_withReplies (a : BusAddr) (v : Byte) : writeSr a v (s.withReplies r) = (writeSr a v s).withReplies r := by
  unfold writeSr
  show (match srMode s.cfg (s.via.get regAcr) with | .out => _ | .inOrDisabled => _ | .inExt => _ | .other => _) = _
  cases srMode s.cfg (s.via.get regAcr)
  · have h : (if s.via.shiftPending = none then s.withReplies r else (s.withReplies r).diag .srOverrun a) =
        State.withReplies (if s.via.shiftPending = none then s else s.diag .srOverrun a) r := by
      split <;> rfl
    exact congrArg (fun t : State => { t with via := { t.via.latch (srMask s.cfg) with shiftPending := some v } }) h
  · rfl
  · rfl
  · rfl

theorem releasePending_withReplies : releasePending (s.withReplies r) = (releasePending s).withReplies r := by
  unfold releasePending
  show (match s.via.shiftPending with | some b => _ | none => _) = _
  cases s.via.shiftPending <;> rfl

theorem writeIfr_withReplies (v : Byte) : writeIfr v (s.withReplies r) = (writeIfr v s).withReplies r := by
  show (if s.via.acked v &&& srMask s.cfg = 0#8 then State.withReplies { s with via := s.via.unlatch (s.via.acked v) } r
      else releasePending (State.withReplies { s with via := s.via.unlatch (s.via.acked v) } r)) =
    State.withReplies (if s.via.acked v &&& srMask s.cfg = 0#8 then _ else _) r
  split
  · rfl
  · exact releasePending_withReplies r _

theorem writeRegister_withReplies (i : RegIdx) (a : BusAddr) (v : Byte) :
    writeRegister i a v (s.withReplies r) = (writeRegister i a v s).withReplies r := by
  unfold writeRegister
  split
  · exact writePortB_withReplies r s v
  · exact writePortA_withReplies r s v
  · exact writeSr_withReplies r s a v
  · exact writeIfr_withReplies r s v
  · rfl
  · exact writePortA_withReplies r s v
  · rfl

theorem viaWrite_withReplies (i : RegIdx) (a : BusAddr) (v : Byte) :
    viaWrite i a v (s.withReplies r) = (viaWrite i a v s).withReplies r := by
  simp only [viaWrite, writeRegister_withReplies, reassess_withReplies]

theorem sccAccess_withReplies (label : TrapLabel) (a : BusAddr) (resume : Resume) :
    sccAccess label a resume (s.withReplies r) =
      ((sccAccess label a resume s).1, (sccAccess label a resume s).2.withReplies r) :=
  trap_withReplies r (s.diag .sccAccess a) label _ resume

theorem romWriteRejected_withReplies (a : BusAddr) (resume : Resume) :
    romWriteRejected a resume (s.withReplies r) =
      ((romWriteRejected a resume s).1, (romWriteRejected a resume s).2.withReplies r) :=
  trap_withReplies r (s.diag .romWrite a) _ _ resume

theorem sccRead_withReplies (label : TrapLabel) (a : BusAddr) (resume : Resume) :
    sccRead label a resume (s.withReplies r) =
      ((sccRead label a resume s).1, (sccRead label a resume s).2.withReplies r) := by
  simp only [sccRead, sccAccess_withReplies]

theorem iwmWrite_withReplies (i : RegIdx) (a : BusAddr) (v : Byte) :
    iwmWrite i a v (s.withReplies r) = (iwmWrite i a v s).withReplies r := by
  have h : (if i ∈ s.cfg.iwmKnown then s.withReplies r else (s.withReplies r).diag .iwmUnhandled a) =
      State.withReplies (if i ∈ s.cfg.iwmKnown then s else s.diag .iwmUnhandled a) r := by
    split <;> rfl
  exact congrArg (fun t : State => { t with iwm := t.iwm.set i.toNat v i.isLt }) h

/-- A byte read does the same whatever the record holds. -/
theorem byteRead_withReplies (addr : Long) (resume : Resume) :
    byteRead addr resume (s.withReplies r) =
      ((byteRead addr resume s).1, (byteRead addr resume s).2.withReplies r) := by
  unfold byteRead
  dsimp only
  rw [show decodeRegion (s.withReplies r).cfg (s.withReplies r).overlay (busAddr addr)
    = decodeRegion s.cfg s.overlay (busAddr addr) from rfl]
  cases decodeRegion s.cfg s.overlay (busAddr addr) with
  | iwm i => rfl
  | sccR => exact sccRead_withReplies r s _ _ _
  | sccW => exact sccRead_withReplies r s _ _ _
  | via i => simp only [viaRead_withReplies, always]
  | romOvl off => rfl
  | romAlias off => rfl
  | ram off => rfl
  | unmapped => rfl

/-- A byte write does the same whatever the record holds. -/
theorem byteWrite_withReplies (addr : Long) (v : Byte) (resume : Resume) :
    byteWrite addr v resume (s.withReplies r) =
      ((byteWrite addr v resume s).1, (byteWrite addr v resume s).2.withReplies r) := by
  unfold byteWrite
  dsimp only
  rw [show decodeRegion (s.withReplies r).cfg (s.withReplies r).overlay (busAddr addr)
    = decodeRegion s.cfg s.overlay (busAddr addr) from rfl]
  cases decodeRegion s.cfg s.overlay (busAddr addr) with
  | iwm i => simp only [iwmWrite_withReplies]
  | sccR => exact sccAccess_withReplies r s _ _ _
  | sccW => exact sccAccess_withReplies r s _ _ _
  | via i => simp only [viaWrite_withReplies]
  | romOvl off => exact romWriteRejected_withReplies r s _ _
  | romAlias off => exact romWriteRejected_withReplies r s _ _
  | ram off => rfl
  | unmapped => rfl

theorem notifyEdge_withReplies (line : EdgeLine) : notifyEdge line (s.withReplies r) = (notifyEdge line s).withReplies r :=
  reassess_withReplies r { s with via := s.via.latch (edgeMask s.cfg line) }

theorem receiveShiftByte_withReplies (b : Byte) :
    receiveShiftByte b (s.withReplies r) = (receiveShiftByte b s).withReplies r := by
  unfold receiveShiftByte
  show (match srMode s.cfg (s.via.get regAcr) with | .inExt => _ | _ => _) = _
  cases srMode s.cfg (s.via.get regAcr)
  case inExt => exact reassess_withReplies r { s with via := (s.via.set regSr b).latch (srMask s.cfg) }
  all_goals rfl

theorem renderRead_withReplies (index : Nat) : renderRead index (s.withReplies r) = (renderRead index s).withReplies r := by
  unfold renderRead
  show (if index < s.cfg.fbBytes ∧ s.cfg.fbBase + index < s.cfg.ramSize then _ else _) = _
  split <;> rfl

theorem agentEvents_withReplies (es : List AgentEvent) :
    agentEvents es (s.withReplies r) = (agentEvents es s).withReplies r := by
  induction es generalizing s with
  | nil => rfl
  | cons e es ih =>
    have h : agentEvent e (s.withReplies r) = (agentEvent e s).withReplies r := by
      cases e with
      | edge line => exact notifyEdge_withReplies r s line
      | rxsr b => exact receiveShiftByte_withReplies r s b
      | render index => exact renderRead_withReplies r s index
    show agentEvents es (agentEvent e (s.withReplies r)) = _
    rw [h]
    exact ih _

/-- What other agents do between two bytes is the same whatever the record holds. -/
theorem boundary_withReplies (more : Bool) : boundary more (s.withReplies r) = (boundary more s).withReplies r := by
  unfold boundary
  rw [show (s.withReplies r).agenda = s.agenda from rfl]
  split
  · next es later _ => exact agentEvents_withReplies r { s with agenda := later } es
  · rfl

end Sys2Proof.Machine
end

