-- ==== Sys2Proof/Laws/Calls.lean ====
section
/-! SUPPORT. The multi-byte accesses as sequences of byte accesses: what one byte access does does not depend on what its caller
still has to do, and with no other agent between the bytes an access is its bytes in a row. -/

namespace Sys2Proof.Machine

/-! ### Putting bytes together -/

theorem getLsbD_append_byte {n : Nat} (x : BitVec n) (b : Byte) (i : Nat) :
    (x ++ b).getLsbD i = if i < 8 then b.getLsbD i else x.getLsbD (i - 8) := BitVec.getLsbD_append

/-- Shifting a byte in appends it. -/
theorem shiftIn_append {n : Nat} (x : BitVec n) (b : Byte) : shiftIn (x.setWidth 32) b = (x ++ b).setWidth 32 := by
  apply BitVec.eq_of_getLsbD_eq
  intro i hi
  simp only [shiftIn, BitVec.getLsbD_or, BitVec.getLsbD_shiftLeft, BitVec.getLsbD_setWidth, getLsbD_append_byte, hi,
    decide_true, Bool.true_and]
  by_cases h : i < 8
  · simp [h]
  · have h8 : b.getLsbD i = false := BitVec.getLsbD_of_ge b i (by omega)
    simp [h, h8, show i - 8 < 32 by omega]

theorem shiftIn_zero (b : Byte) : shiftIn 0 b = b.setWidth 32 := by simp [shiftIn]

/-- A byte read answers its byte. -/
theorem reply_byte (b : Byte) : Width.reply .byte (shiftIn 0 b) = .u8 b := by simp [Width.reply, shiftIn]

/-- A word read answers its bytes, the first most significant (20_memory.md R67). -/
theorem reply_word (b0 b1 : Byte) : Width.reply .word (shiftIn (shiftIn 0 b0) b1) = .u16 (b0 ++ b1) := by
  rw [shiftIn_zero, shiftIn_append, Width.reply]
  congr 1
  apply BitVec.eq_of_toNat_eq
  have := (b0 ++ b1).isLt
  simp only [BitVec.toNat_setWidth]
  omega

/-- A long read answers its bytes, the first most significant (20_memory.md R67). -/
theorem reply_long (b0 b1 b2 b3 : Byte) :
    Width.reply .long (shiftIn (shiftIn (shiftIn (shiftIn 0 b0) b1) b2) b3) = .u32 (b0 ++ b1 ++ b2 ++ b3) := by
  rw [shiftIn_zero, shiftIn_append, shiftIn_append, shiftIn_append, Width.reply, BitVec.setWidth_eq]

/-- The byte writes of a word, high byte first (40_bus.md R164). -/
theorem byteWrites16_append (addr : Long) (b0 b1 : Byte) : byteWrites16 addr (b0 ++ b1) = [(addr, b0), (addr + 1, b1)] := by
  have x0 : (b0 ++ b1 : Half).extractLsb' 8 8 = b0 := by
    apply BitVec.eq_of_getLsbD_eq
    intro i hi
    simp only [BitVec.getLsbD_extractLsb', getLsbD_append_byte, hi, decide_true, Bool.true_and]
    rw [if_neg (by omega)]; congr 1; omega
  have x1 : (b0 ++ b1 : Half).extractLsb' 0 8 = b1 := by
    apply BitVec.eq_of_getLsbD_eq
    intro i hi
    simp only [BitVec.getLsbD_extractLsb', getLsbD_append_byte, hi, decide_true, Bool.true_and]
    rw [if_pos (by omega)]; congr 1; omega
  simp only [byteWrites16, x0, x1]

/-- The byte writes of a long, most significant byte first (R165). -/
theorem byteWrites32_append (addr : Long) (b0 b1 b2 b3 : Byte) :
    byteWrites32 addr (b0 ++ b1 ++ b2 ++ b3) = [(addr, b0), (addr + 1, b1), (addr + 2, b2), (addr + 3, b3)] := by
  have h : (b0 ++ b1 ++ b2 ++ b3 : Long).extractLsb' 24 8 = b0 ∧ (b0 ++ b1 ++ b2 ++ b3 : Long).extractLsb' 16 8 = b1 ∧
      (b0 ++ b1 ++ b2 ++ b3 : Long).extractLsb' 8 8 = b2 ∧ (b0 ++ b1 ++ b2 ++ b3 : Long).extractLsb' 0 8 = b3 := by
    refine ⟨?_, ?_, ?_, ?_⟩ <;>
    · apply BitVec.eq_of_getLsbD_eq
      intro i hi
      simp only [BitVec.getLsbD_extractLsb', getLsbD_append_byte, hi, decide_true, Bool.true_and]
      repeat' split
      all_goals first | omega | (congr 1; omega)
  simp only [byteWrites32, h]

/-! ### One byte access -/

@[simp] theorem boundary_false (s : State) : boundary false s = s := rfl

/-- With no event due, nothing happens between two bytes. -/
theorem boundary_of_nil (more : Bool) {s : State} (h : s.agenda = []) : boundary more s = s := by
  unfold boundary
  split
  · next h' => rw [h] at h'; cases h'
  · rfl

/-- What an event of another agent is as a transaction or a step is what it does inside a call, and no consumer re-enters in it. -/
theorem AgentEvent.Acts.eq {e : AgentEvent} {s t : State} (h : e.Acts s t) :
    t = agentEvent e s ∧ (s.consumers ≠ .reentered → t.consumers ≠ .reentered) := by
  cases e with
  | edge line => cases line <;> (obtain ⟨rfl, hc⟩ := finish_eq_next h; exact ⟨rfl, fun _ => hc⟩)
  | rxsr b => obtain ⟨rfl, hc⟩ := finish_eq_next h; exact ⟨rfl, fun _ => hc⟩
  | render index =>
    cases h
    refine ⟨rfl, fun hc => ?_⟩
    unfold renderRead
    split <;> exact hc

theorem ActInTurn.eq {es : List AgentEvent} {s t : State} (h : ActInTurn es s t) :
    t = agentEvents es s ∧ (s.consumers ≠ .reentered → t.consumers ≠ .reentered) := by
  induction es generalizing s with
  | nil => exact ⟨h, fun hc => (show t = s from h) ▸ hc⟩
  | cons e es ih =>
    obtain ⟨u, hu, ht⟩ := h
    obtain ⟨rfl, hc⟩ := hu.eq
    exact ⟨(ih ht).1, fun h => (ih ht).2 (hc h)⟩

/-- What happens between two bytes of a call is its boundary, and no consumer re-enters in it. -/
theorem Between.eq_boundary {s t : State} (h : Between s t) :
    t = boundary true s ∧ (s.consumers ≠ .reentered → t.consumers ≠ .reentered) := by
  unfold Between at h
  unfold boundary
  split at h
  · next ha => subst h; exact ⟨by rw [ha], id⟩
  · next es later ha => rw [ha]; exact h.eq

/-- A trap that does not return at once waits. -/
theorem trap_stopped {label : TrapLabel} {addr : Long} {resume : Resume} {s : State}
    (h : (trap label addr resume s).1 = false) : (trap label addr resume s).2.trapWait ≠ none := by
  unfold trap at h ⊢
  split at h
  · cases h
  · next hs => simp

/-- A trap that returns at once does the same whatever its caller still has to do. -/
theorem trap_resume {label : TrapLabel} {addr : Long} {resume : Resume} (resume' : Resume) {s : State}
    (h : (trap label addr resume s).1 = true) : trap label addr resume' s = trap label addr resume s := by
  unfold trap at h ⊢
  split at h
  · rfl
  · cases h

theorem sccRead_stopped {label : TrapLabel} {a : BusAddr} {resume : Resume} {s : State}
    (h : (sccRead label a resume s).1 = none) : (sccRead label a resume s).2.trapWait ≠ none := by
  unfold sccRead sccAccess at h ⊢
  dsimp only at h ⊢
  split at h
  · cases h
  · next hb => exact trap_stopped (Bool.not_eq_true _ ▸ hb)

theorem sccRead_resume {label : TrapLabel} {a : BusAddr} {resume : Resume} (resume' : Resume) {s : State}
    (h : (sccRead label a resume s).1.isSome) : sccRead label a resume' s = sccRead label a resume s := by
  unfold sccRead sccAccess at h ⊢
  dsimp only at h ⊢
  split at h
  · next hb => rw [trap_resume resume' hb]
  · cases h

/-- A byte read with no byte waits in its trap. -/
theorem byteRead_stopped {addr : Long} {resume : Resume} {s : State} (h : (byteRead addr resume s).1 = none) :
    (byteRead addr resume s).2.trapWait ≠ none := by
  unfold byteRead at h ⊢
  dsimp only at h ⊢
  split at h
  · cases h
  · exact sccRead_stopped h
  · exact sccRead_stopped h
  all_goals cases h

/-- A byte read that has its byte does the same whatever its caller still has to do. -/
theorem byteRead_resume {addr : Long} {resume : Resume} (resume' : Resume) {s : State}
    (h : (byteRead addr resume s).1.isSome) : byteRead addr resume' s = byteRead addr resume s := by
  unfold byteRead at h ⊢
  dsimp only at h ⊢
  split at h
  · rfl
  · exact sccRead_resume resume' h
  · exact sccRead_resume resume' h
  all_goals rfl

/-- A byte write that is not complete waits in its trap. -/
theorem byteWrite_stopped {addr : Long} {v : Byte} {resume : Resume} {s : State}
    (h : (byteWrite addr v resume s).1 = false) : (byteWrite addr v resume s).2.trapWait ≠ none := by
  unfold byteWrite sccAccess romWriteRejected at h ⊢
  dsimp only at h ⊢
  split at h
  · cases h
  · exact trap_stopped h
  · exact trap_stopped h
  · cases h
  · exact trap_stopped h
  · exact trap_stopped h
  · cases h
  · cases h

/-- A byte write that is complete does the same whatever its caller still has to do. -/
theorem byteWrite_resume {addr : Long} {v : Byte} {resume : Resume} (resume' : Resume) {s : State}
    (h : (byteWrite addr v resume s).1 = true) : byteWrite addr v resume' s = byteWrite addr v resume s := by
  unfold byteWrite sccAccess romWriteRejected at h ⊢
  dsimp only at h ⊢
  split at h
  · rfl
  · exact trap_resume resume' h
  · exact trap_resume resume' h
  · rfl
  · exact trap_resume resume' h
  · exact trap_resume resume' h
  · rfl
  · rfl

/-- A trap that waits waits in the same state whatever its caller still has to do, which waits with it. -/
theorem trap_waits {label : TrapLabel} {addr : Long} {resume : Resume} (resume' : Resume) {s : State}
    (h : (trap label addr resume s).1 = false) : ∃ w, (trap label addr resume' s).2.trapWait = some w ∧
      (trap label addr resume s).2 = { (trap label addr resume' s).2 with trapWait := some { w with resume := resume } } := by
  unfold trap at h ⊢
  split at h
  · cases h
  · exact ⟨_, rfl, rfl⟩

/-- The same for a byte read that waits in its trap. -/
theorem byteRead_waits {addr : Long} {resume : Resume} (resume' : Resume) {s : State}
    (h : (byteRead addr resume s).1 = none) : ∃ w, (byteRead addr resume' s).2.trapWait = some w ∧
      (byteRead addr resume s).2 = { (byteRead addr resume' s).2 with trapWait := some { w with resume := resume } } := by
  have hscc : ∀ label a, (sccRead label a resume s).1 = none → ∃ w, (sccRead label a resume' s).2.trapWait = some w ∧
      (sccRead label a resume s).2 = { (sccRead label a resume' s).2 with trapWait := some { w with resume := resume } } := by
    intro label a h
    unfold sccRead at h
    dsimp only at h
    split at h
    · cases h
    · next hb => exact trap_waits resume' (Bool.not_eq_true _ ▸ hb)
  unfold byteRead at h ⊢
  dsimp only at h ⊢
  split at h
  · cases h
  · exact hscc _ _ h
  · exact hscc _ _ h
  all_goals cases h

/-- The same for a byte write that waits in its trap. -/
theorem byteWrite_waits {addr : Long} {v : Byte} {resume : Resume} (resume' : Resume) {s : State}
    (h : (byteWrite addr v resume s).1 = false) : ∃ w, (byteWrite addr v resume' s).2.trapWait = some w ∧
      (byteWrite addr v resume s).2 = { (byteWrite addr v resume' s).2 with trapWait := some { w with resume := resume } } := by
  unfold byteWrite sccAccess romWriteRejected at h ⊢
  dsimp only at h ⊢
  split at h
  · cases h
  · exact trap_waits resume' h
  · exact trap_waits resume' h
  · cases h
  · exact trap_waits resume' h
  · exact trap_waits resume' h
  · cases h
  · cases h

/-! ### What a byte access leaves alone -/

theorem reassess_agenda (s : State) : (reassess s).agenda = s.agenda := by
  unfold reassess
  split <;> rfl

theorem viaRead_agenda (i : RegIdx) (s : State) : (viaRead i s).2.agenda = s.agenda := by
  refine (reassess_agenda _).trans ?_
  unfold readRegister
  split <;> rfl

theorem writePortA_agenda (v : Byte) (s : State) : (writePortA v s).agenda = s.agenda := by
  unfold writePortA portAChanged remap
  dsimp only
  split
  · rfl
  · split <;> rfl

theorem viaWrite_agenda (i : RegIdx) (a : BusAddr) (v : Byte) (s : State) : (viaWrite i a v s).agenda = s.agenda := by
  refine (reassess_agenda _).trans ?_
  unfold writeRegister
  split
  · unfold writePortB
    dsimp only
    split <;> rfl
  · exact writePortA_agenda v s
  · unfold writeSr writeSrOut
    split
    · dsimp only
      split <;> rfl
    all_goals rfl
  · unfold writeIfr releasePending
    dsimp only
    split
    · rfl
    · split <;> rfl
  · rfl
  · exact writePortA_agenda v s
  · rfl

theorem trap_agenda (label : TrapLabel) (addr : Long) (resume : Resume) (s : State) :
    (trap label addr resume s).2.agenda = s.agenda := by
  unfold trap
  split <;> rfl

theorem byteRead_agenda (addr : Long) (resume : Resume) (s : State) : (byteRead addr resume s).2.agenda = s.agenda := by
  unfold byteRead
  dsimp only
  split
  · rfl
  · exact trap_agenda _ _ _ _
  · exact trap_agenda _ _ _ _
  · exact viaRead_agenda _ s
  all_goals rfl

theorem byteWrite_agenda (addr : Long) (v : Byte) (resume : Resume) (s : State) :
    (byteWrite addr v resume s).2.agenda = s.agenda := by
  unfold byteWrite
  dsimp only
  split
  · unfold iwmWrite
    dsimp only
    split <;> rfl
  · exact trap_agenda _ _ _ _
  · exact trap_agenda _ _ _ _
  · exact viaWrite_agenda _ _ _ s
  · exact trap_agenda _ _ _ _
  · exact trap_agenda _ _ _ _
  · rfl
  · rfl

theorem byteRead_replies (addr : Long) (resume : Resume) (s : State) :
    (byteRead addr resume s).2.replies = s.replies := by
  have h := congrArg (·.2.replies) (byteRead_withReplies s.replies s addr resume)
  exact h

theorem byteWrite_replies (addr : Long) (v : Byte) (resume : Resume) (s : State) :
    (byteWrite addr v resume s).2.replies = s.replies := by
  have h := congrArg (·.2.replies) (byteWrite_withReplies s.replies s addr v resume)
  exact h

/-! ### Bytes in a row -/

/-- The bytes at some addresses, read one after another with no other agent between them; `none` if one of them traps. -/
def readSeq : List Long → State → Option (List Byte × State)
  | [], s => some ([], s)
  | a :: as, s =>
    let r := byteRead a .hook s
    match r.1 with
    | some b => (readSeq as r.2).map fun p => (b :: p.1, p.2)
    | none => none

/-- Bytes written one after another with no other agent between them; `none` if one of them traps. -/
def writeSeq : List (Long × Byte) → State → Option State
  | [], s => some s
  | x :: xs, s =>
    let r := byteWrite x.1 x.2 .hook s
    if r.1 then writeSeq xs r.2 else none

theorem readSeq_append (as bs : List Long) (s : State) :
    readSeq (as ++ bs) s = (readSeq as s).bind fun p => (readSeq bs p.2).map fun q => (p.1 ++ q.1, q.2) := by
  induction as generalizing s with
  | nil => simp [readSeq]
  | cons a as ih =>
    simp only [List.cons_append, readSeq]
    split
    · rw [ih]
      cases readSeq as (byteRead a .hook s).2 with
      | none => rfl
      | some p => cases h : readSeq bs p.2 <;> simp [h]
    · rfl

theorem writeSeq_append (xs ys : List (Long × Byte)) (s : State) :
    writeSeq (xs ++ ys) s = (writeSeq xs s).bind (writeSeq ys) := by
  induction xs generalizing s with
  | nil => rfl
  | cons x xs ih =>
    simp only [List.cons_append, writeSeq]
    split
    · exact ih _
    · rfl

theorem readSeq_withReplies (r : List Reply) (as : List Long) (s : State) :
    readSeq as (s.withReplies r) = (readSeq as s).map fun p => (p.1, p.2.withReplies r) := by
  induction as generalizing s with
  | nil => rfl
  | cons a as ih =>
    simp only [readSeq, byteRead_withReplies]
    split
    · rw [ih]
      cases readSeq as (byteRead a .hook s).2 <;> rfl
    · rfl

theorem writeSeq_withReplies (r : List Reply) (xs : List (Long × Byte)) (s : State) :
    writeSeq xs (s.withReplies r) = (writeSeq xs s).map (·.withReplies r) := by
  induction xs generalizing s with
  | nil => rfl
  | cons x xs ih =>
    simp only [writeSeq, byteWrite_withReplies]
    split
    · exact ih _
    · rfl

/-- What a read of some bytes does, when no event of another agent is due: it returns what they are put together to, or it
waits in a trap. -/
theorem memRead_of_nil (w : Width) (as : List Long) (acc : Long) {s : State} (h : s.agenda = []) :
    match readSeq as s with
    | some p => memRead w as acc s = p.2.reply (w.reply (p.1.foldl shiftIn acc)) ∧ p.2.replies = s.replies ∧ p.2.agenda = []
    | none => (memRead w as acc s).trapWait ≠ none := by
  induction as generalizing acc s with
  | nil => exact ⟨rfl, rfl, h⟩
  | cons a as ih =>
    simp only [readSeq, memRead]
    cases hb : (byteRead a (.read w acc as) s).1 with
    | none =>
      have : (byteRead a .hook s).1 = none := by
        cases hk : (byteRead a .hook s).1 with
        | none => rfl
        | some b => rw [byteRead_resume (.read w acc as) (by rw [hk]; rfl), hk] at hb; cases hb
      rw [this]
      exact byteRead_stopped hb
    | some b =>
      rw [byteRead_resume .hook (by rw [hb]; rfl), hb]
      have ha : (byteRead a (.read w acc as) s).2.agenda = [] := (byteRead_agenda _ _ s).trans h
      rw [boundary_of_nil _ ha]
      have := ih (shiftIn acc b) ha
      dsimp only
      revert this
      cases readSeq as (byteRead a (.read w acc as) s).2 with
      | none => exact id
      | some p => exact fun t => ⟨t.1, t.2.1.trans (byteRead_replies _ _ s), t.2.2⟩

/-- What a write of some bytes does, when no event of another agent is due: it is complete, or it waits in a trap. -/
theorem memWrite_of_nil (xs : List (Long × Byte)) {s : State} (h : s.agenda = []) :
    match writeSeq xs s with
    | some t => memWrite xs s = t.reply .done ∧ t.replies = s.replies ∧ t.agenda = []
    | none => (memWrite xs s).trapWait ≠ none := by
  induction xs generalizing s with
  | nil => exact ⟨rfl, rfl, h⟩
  | cons x xs ih =>
    simp only [writeSeq, memWrite]
    cases hb : (byteWrite x.1 x.2 (.write xs) s).1 with
    | false =>
      have : (byteWrite x.1 x.2 .hook s).1 = false := by
        cases hk : (byteWrite x.1 x.2 .hook s).1 with
        | false => rfl
        | true => rw [byteWrite_resume (.write xs) hk, hk] at hb; cases hb
      rw [this]
      exact byteWrite_stopped hb
    | true =>
      rw [byteWrite_resume .hook hb, hb]
      have ha : (byteWrite x.1 x.2 (.write xs) s).2.agenda = [] := (byteWrite_agenda _ _ _ s).trans h
      simp only [if_true]
      rw [boundary_of_nil _ ha]
      have := ih ha
      revert this
      cases writeSeq xs (byteWrite x.1 x.2 (.write xs) s).2 with
      | none => exact id
      | some t => exact fun u => ⟨u.1, u.2.1.trans (byteWrite_replies _ _ _ s), u.2.2⟩

/-! ### How a call ends -/

theorem reassess_replies (s : State) : (reassess s).replies = s.replies := by
  unfold reassess
  split <;> rfl

/-- The whole effect of a renderer read: the byte is recorded, if there is one (10_state.md R45). -/
theorem renderRead_eq (index : Nat) (s : State) :
    renderRead index s = { s with
      trace := s.trace ++ if index < s.cfg.fbBytes ∧ s.cfg.fbBase + index < s.cfg.ramSize
        then [.rendered index (s.ram.read (s.cfg.fbBase + index))] else [] } := by
  unfold renderRead
  split
  · rfl
  · simp

theorem agentEvents_replies (es : List AgentEvent) (s : State) : (agentEvents es s).replies = s.replies := by
  induction es generalizing s with
  | nil => rfl
  | cons e es ih =>
    refine (ih _).trans ?_
    cases e with
    | edge line => exact reassess_replies _
    | rxsr b =>
      unfold agentEvent receiveShiftByte
      dsimp only
      split
      · exact reassess_replies _
      · rfl
    | render i =>
      show (renderRead i s).replies = s.replies
      rw [renderRead_eq]

theorem boundary_replies (more : Bool) (s : State) : (boundary more s).replies = s.replies := by
  unfold boundary
  split
  · exact agentEvents_replies _ _
  · rfl

theorem trap_running {label : TrapLabel} {addr : Long} {resume : Resume} {s : State}
    (h : (trap label addr resume s).1 = true) : (trap label addr resume s).2.trapWait = s.trapWait := by
  unfold trap at h ⊢
  split at h
  · rfl
  · cases h

/-- A byte read that has its byte leaves the trap wait as it is. -/
theorem byteRead_running {addr : Long} {resume : Resume} {s : State} (h : (byteRead addr resume s).1.isSome) :
    (byteRead addr resume s).2.trapWait = s.trapWait := by
  have hscc : ∀ label, (sccRead label (busAddr addr) resume s).1.isSome →
      (sccRead label (busAddr addr) resume s).2.trapWait = s.trapWait := by
    intro label h
    unfold sccRead sccAccess at h ⊢
    dsimp only at h ⊢
    split at h
    · next hb => exact trap_running hb
    · cases h
  unfold byteRead at h ⊢
  dsimp only at h ⊢
  split at h
  · rfl
  · exact hscc _ h
  · exact hscc _ h
  · exact (keeps_viaRead _ s).trapWait
  all_goals rfl

/-- A byte write that is complete leaves the trap wait as it is. -/
theorem byteWrite_running {addr : Long} {v : Byte} {resume : Resume} {s : State}
    (h : (byteWrite addr v resume s).1 = true) : (byteWrite addr v resume s).2.trapWait = s.trapWait := by
  unfold byteWrite sccAccess romWriteRejected at h ⊢
  dsimp only at h ⊢
  split at h
  · unfold iwmWrite
    dsimp only
    split <;> rfl
  · exact trap_running h
  · exact trap_running h
  · exact (keeps_viaWrite _ _ _ s).trapWait
  · exact trap_running h
  · exact trap_running h
  · rfl
  · rfl

/-- How a read ends: it has returned one value, or it waits in a trap and has returned nothing. -/
theorem memRead_returns (w : Width) (as : List Long) (acc : Long) {s : State} (hw : s.trapWait = none) :
    (∃ r, (memRead w as acc s).trapWait = none ∧ (memRead w as acc s).replies = s.replies ++ [r]) ∨
      ∃ x, (memRead w as acc s).trapWait = some x ∧ (memRead w as acc s).replies = s.replies := by
  induction as generalizing acc s with
  | nil => exact .inl ⟨_, hw, rfl⟩
  | cons a as ih =>
    have hr := byteRead_replies a (.read w acc as) s
    unfold memRead
    dsimp only
    split
    · next b hb =>
      have hk := keeps_boundary (!as.isEmpty) (byteRead a (.read w acc as) s).2
      have h := ih (shiftIn acc b) ((hk.trapWait.trans (byteRead_running (by rw [hb]; rfl))).trans hw)
      rw [boundary_replies, hr] at h
      exact h
    · next hb =>
      obtain ⟨x, hx⟩ := Option.ne_none_iff_exists'.mp (byteRead_stopped hb)
      exact .inr ⟨x, hx, hr⟩

/-- How a write ends: it has returned, or it waits in a trap and has not. -/
theorem memWrite_returns (xs : List (Long × Byte)) {s : State} (hw : s.trapWait = none) :
    (∃ r, (memWrite xs s).trapWait = none ∧ (memWrite xs s).replies = s.replies ++ [r]) ∨
      ∃ x, (memWrite xs s).trapWait = some x ∧ (memWrite xs s).replies = s.replies := by
  induction xs generalizing s with
  | nil => exact .inl ⟨_, hw, rfl⟩
  | cons x xs ih =>
    have hr := byteWrite_replies x.1 x.2 (.write xs) s
    unfold memWrite
    dsimp only
    split
    · next hb =>
      have hk := keeps_boundary (!xs.isEmpty) (byteWrite x.1 x.2 (.write xs) s).2
      have h := ih ((hk.trapWait.trans (byteWrite_running hb)).trans hw)
      rw [boundary_replies, hr] at h
      exact h
    · next hb =>
      obtain ⟨x', hx⟩ := Option.ne_none_iff_exists'.mp (byteWrite_stopped (Bool.not_eq_true _ ▸ hb))
      exact .inr ⟨x', hx, hr⟩

/-- Bytes that are read without a trap, and what follows them: their values and the state after the last of them, whatever the
record of replies holds and whatever call they are part of. -/
theorem memRead_append {w : Width} (as : List Long) {acc : Long} {s : State} (hs : s.trapWait = none) (hne : as ≠ [])
    (h : (memRead w as acc s).trapWait = none) :
    ∃ (bs : List Byte) (p : State), bs.length = as.length ∧ p.replies = s.replies ∧ p.trapWait = none ∧
      ∀ r w' acc' rest, memRead w' (as ++ rest) acc' (s.withReplies r) =
        memRead w' rest (bs.foldl shiftIn acc') (boundary (!rest.isEmpty) (p.withReplies r)) := by
  induction as generalizing acc s with
  | nil => exact absurd rfl hne
  | cons a as ih =>
    unfold memRead at h
    dsimp only at h
    split at h
    · next b hb =>
      have hsome : (byteRead a (.read w acc as) s).1.isSome := by rw [hb]; rfl
      have hbyte : ∀ r w' acc' rest, memRead w' (a :: rest) acc' (s.withReplies r) =
          memRead w' rest (shiftIn acc' b) (boundary (!rest.isEmpty) ((byteRead a (.read w acc as) s).2.withReplies r)) := by
        intro r w' acc' rest
        conv => lhs; unfold memRead
        dsimp only
        rw [byteRead_withReplies, byteRead_resume (.read w' acc' rest) hsome, hb]
      have hp : (byteRead a (.read w acc as) s).2.trapWait = none := (byteRead_running hsome).trans hs
      cases as with
      | nil => exact ⟨[b], _, rfl, byteRead_replies _ _ _, hp, hbyte⟩
      | cons a' as =>
        have hk := (keeps_boundary true (byteRead a (.read w acc (a' :: as)) s).2).trapWait
        obtain ⟨bs, p, hl, hr, hw, hrest⟩ := ih (hk.trans hp) (by simp) h
        refine ⟨b :: bs, p, by simp [hl], hr.trans ((boundary_replies _ _).trans (byteRead_replies _ _ _)), hw, ?_⟩
        intro r w' acc' rest
        rw [List.cons_append, hbyte, boundary_withReplies]
        exact hrest r w' (shiftIn acc' b) rest
    · next hb => exact absurd h (byteRead_stopped hb)

/-- The same for bytes that are written. -/
theorem memWrite_append (xs : List (Long × Byte)) {s : State} (hs : s.trapWait = none) (hne : xs ≠ [])
    (h : (memWrite xs s).trapWait = none) :
    ∃ p : State, p.replies = s.replies ∧ p.trapWait = none ∧
      ∀ r rest, memWrite (xs ++ rest) (s.withReplies r) = memWrite rest (boundary (!rest.isEmpty) (p.withReplies r)) := by
  induction xs generalizing s with
  | nil => exact absurd rfl hne
  | cons x xs ih =>
    unfold memWrite at h
    dsimp only at h
    split at h
    · next hb =>
      have hbyte : ∀ r rest, memWrite (x :: rest) (s.withReplies r) =
          memWrite rest (boundary (!rest.isEmpty) ((byteWrite x.1 x.2 (.write xs) s).2.withReplies r)) := by
        intro r rest
        conv => lhs; unfold memWrite
        dsimp only
        rw [byteWrite_withReplies, byteWrite_resume (.write rest) hb, if_pos hb]
      have hp : (byteWrite x.1 x.2 (.write xs) s).2.trapWait = none := (byteWrite_running hb).trans hs
      cases xs with
      | nil => exact ⟨_, byteWrite_replies _ _ _ _, hp, hbyte⟩
      | cons x' xs =>
        have hk := (keeps_boundary true (byteWrite x.1 x.2 (.write (x' :: xs)) s).2).trapWait
        obtain ⟨p, hr, hw, hrest⟩ := ih (hk.trans hp) (by simp) h
        refine ⟨p, hr.trans ((boundary_replies _ _).trans (byteWrite_replies _ _ _ _)), hw, ?_⟩
        intro r rest
        rw [List.cons_append, hbyte, boundary_withReplies]
        exact hrest r rest
    · next hb => exact absurd h (byteWrite_stopped (Bool.not_eq_true _ ▸ hb))

/-! ### The emulation thread -/

theorem onThread_blocked {s : State} {w : TrapWait} (h : s.trapWait = some w)
    (call : State → Host.Outcome State Fault Refusal) : onThread s call = .next s := by simp [onThread, h]

/-- Every transaction of the CPU is a call of the emulation thread. -/
theorem exec_cpu (i : Instr) (h : i.agent = .cpu) :
    ∃ call : State → Host.Outcome State Fault Refusal, ∀ s, exec i s = onThread s call := by
  cases i <;> first | exact ⟨_, fun _ => rfl⟩ | cases h

end Sys2Proof.Machine
end

