-- ==== Sys2Proof/Laws/Consumers.lean ====
section
/-! SUPPORT. What the consumers of the VIA's output events change: nothing but themselves, until a transaction ends. One lemma for
each operation: with other consumers it does the same, and the consumers have seen the VIA events it emitted. -/

namespace Sys2Proof.Machine

/-- The consumers after some VIA events. -/
def Consumers.after (c : Consumers) : Nat → Consumers
  | 0 => c
  | n + 1 => c.next.after n

theorem Consumers.after_add (c : Consumers) (m n : Nat) : c.after (m + n) = (c.after m).after n := by
  induction m generalizing c with
  | zero => rw [Nat.zero_add]; rfl
  | succ m ih => rw [Nat.succ_add]; exact ih c.next

theorem Consumers.after_reentered (n : Nat) : Consumers.reentered.after n = .reentered := by
  induction n with
  | zero => rfl
  | succ n ih => exact ih

/-- A consumer that re-enters at event `n` has done so after more than `n` events. -/
theorem Consumers.after_reenterAfter (n k : Nat) :
    (Consumers.reenterAfter n).after k = if n < k then .reentered else .reenterAfter (n - k) := by
  induction k generalizing n with
  | zero => rfl
  | succ k ih =>
    cases n with
    | zero => exact Consumers.after_reentered k
    | succ n =>
      rw [show (Consumers.reenterAfter (n + 1)).after (k + 1) = (Consumers.reenterAfter n).after k from rfl, ih]
      simp only [Nat.add_lt_add_iff_right, Nat.add_sub_add_right]

/-- The same state with other consumers. -/
def State.withConsumers (s : State) (c : Consumers) : State := { s with consumers := c }

@[simp] theorem State.withConsumers_self (s : State) : s.withConsumers s.consumers = s := rfl

/-- From `s` an operation ran to `t`; with consumers `c` it runs to `t'`, which is `t` but for what the consumers saw. -/
structure Sees (s t : State) (c : Consumers) (t' : State) : Prop where
  events : ∃ new, t.trace = s.trace ++ new ∧ t' = t.withConsumers (c.after (new.countP Event.isVia))

/-- An operation sees other consumers only through what they have seen. -/
def SeesConsumers (f : State → State) : Prop := ∀ s c, Sees s (f s) c (f (s.withConsumers c))

/-- The same for an operation with an answer. -/
def AnswersBlindly {α : Type} (f : State → α × State) : Prop :=
  ∀ s c, (f (s.withConsumers c)).1 = (f s).1 ∧ Sees s (f s).2 c (f (s.withConsumers c)).2

theorem Sees.silent {s t t' : State} {c : Consumers} {new : List Event} (ht : t.trace = s.trace ++ new)
    (hn : new.countP Event.isVia = 0) (h : t' = t.withConsumers c) : Sees s t c t' :=
  ⟨new, ht, by rw [hn]; exact h⟩

theorem Sees.none {s t t' : State} {c : Consumers} (ht : t.trace = s.trace) (h : t' = t.withConsumers c) :
    Sees s t c t' := .silent (new := []) (by rw [ht, List.append_nil]) rfl h

/-- One operation after another. -/
theorem Sees.trans {s t t' u : State} {c : Consumers} {g : State → State} (h : Sees s t c t')
    (hg : SeesConsumers g) (hu : g t = u) : Sees s u c (g t') := by
  obtain ⟨a, ha, rfl⟩ := h
  obtain ⟨b, hb, hs⟩ := hg t (c.after (a.countP Event.isVia))
  subst hu
  exact ⟨a ++ b, by rw [hb, ha, List.append_assoc], by rw [hs, List.countP_append, Consumers.after_add]⟩

/-- An operation with an answer after another. -/
theorem Sees.first {α : Type} {s t t' : State} {c : Consumers} {g : State → α × State} (h : Sees s t c t')
    (hg : AnswersBlindly g) : Sees s (g t).2 c (g t').2 := .trans (g := fun s => (g s).2) h (fun s c => (hg s c).2) rfl

theorem SeesConsumers.id : SeesConsumers fun s => s := fun _ _ => .none rfl rfl

theorem SeesConsumers.comp {f g : State → State} (hf : SeesConsumers f) (hg : SeesConsumers g) :
    SeesConsumers fun s => g (f s) := fun s c => .trans (hf s c) hg rfl

theorem AnswersBlindly.then {α : Type} {f : State → α × State} {g : State → State} (hf : AnswersBlindly f)
    (hg : SeesConsumers g) : AnswersBlindly fun s => ((f s).1, g (f s).2) :=
  fun s c => ⟨(hf s c).1, .trans (hf s c).2 hg rfl⟩

theorem AnswersBlindly.map {α β : Type} {f : State → α × State} (x : α → β) (hf : AnswersBlindly f) :
    AnswersBlindly fun s => (x (f s).1, (f s).2) :=
  fun s c => ⟨congrArg x (hf s c).1, (hf s c).2⟩

/-! ### Output, traps -/

theorem sees_emitVia (e : Event) (he : e.isVia = true) : SeesConsumers fun s => s.emitVia e := fun s c =>
  ⟨[e], rfl, by simp only [List.countP_cons, he, List.countP_nil]; rfl⟩

theorem sees_diag (k : DiagKind) (a : BusAddr) : SeesConsumers fun s => s.diag k a := fun _ _ =>
  .silent (new := [.diag k a]) rfl rfl rfl

theorem sees_reply (r : Reply) : SeesConsumers fun s => s.reply r := fun _ _ => .none rfl rfl

theorem sees_trapReturn (resp : Answer) : SeesConsumers (trapReturn resp) := fun _ _ => by
  cases resp <;> exact .none rfl rfl

theorem blind_trap (label : TrapLabel) (addr : Long) (resume : Resume) : AnswersBlindly (trap label addr resume) := by
  intro s c
  unfold trap
  rw [show (s.withConsumers c).cfg.debugSink = s.cfg.debugSink from rfl]
  cases s.cfg.debugSink with
  | noop => exact ⟨rfl, .none rfl rfl⟩
  | interactive => exact ⟨rfl, .silent (new := [.trap (s.display label addr)]) rfl rfl rfl⟩

/-! ### The VIA -/

theorem sees_reassess : SeesConsumers reassess := by
  intro s c
  unfold reassess
  rw [show (s.withConsumers c).via = s.via from rfl]
  split
  · exact .none rfl rfl
  · exact ⟨[.irqLevel s.via.level], rfl, rfl⟩

theorem blind_readRegister (i : RegIdx) : AnswersBlindly (readRegister i) := by
  intro s c
  unfold readRegister
  split <;> exact ⟨rfl, .none rfl rfl⟩

theorem blind_viaRead (i : RegIdx) : AnswersBlindly (viaRead i) := (blind_readRegister i).then sees_reassess

theorem sees_remap (v : Byte) : SeesConsumers (remap v) := by
  intro s c
  unfold remap
  rw [show (s.withConsumers c).overlay = s.overlay from rfl, show (s.withConsumers c).cfg = s.cfg from rfl]
  split <;> exact .none rfl rfl

theorem sees_set (i : RegIdx) (v : Byte) : SeesConsumers fun s => { s with via := s.via.set i v } :=
  fun _ _ => .none rfl rfl

/-- A choice that does not read the consumers. -/
theorem SeesConsumers.ite (p : State → Prop) [DecidablePred p] (hp : ∀ s c, p (s.withConsumers c) ↔ p s)
    {f g : State → State} (hf : SeesConsumers f) (hg : SeesConsumers g) :
    SeesConsumers fun s => if p s then f s else g s := by
  intro s c
  dsimp only
  by_cases h : p s
  · rw [if_pos h, if_pos ((hp s c).mpr h)]; exact hf s c
  · rw [if_neg h, if_neg (fun x => h ((hp s c).mp x))]; exact hg s c

theorem sees_writePortA (v : Byte) : SeesConsumers (writePortA v) :=
  SeesConsumers.comp (f := fun s => if v = s.via.get regOra then s else portAChanged v s)
    (.ite _ (fun _ _ => Iff.rfl) .id ((sees_emitVia (.portAChanged v) rfl).comp (sees_remap v))) (sees_set regOra v)

theorem sees_writePortB (v : Byte) : SeesConsumers (writePortB v) :=
  SeesConsumers.comp (f := fun s => if v = s.via.get regOrb then s else s.emitVia (.portBChanged v))
    (.ite _ (fun _ _ => Iff.rfl) .id (sees_emitVia (.portBChanged v) rfl)) (sees_set regOrb v)

theorem sees_writeSrOut (a : BusAddr) (v : Byte) : SeesConsumers (writeSrOut a v) := by
  intro s c
  unfold writeSrOut
  rw [show (s.withConsumers c).via = s.via from rfl]
  split
  · exact .none rfl rfl
  · exact .silent (new := [.diag .srOverrun a]) rfl rfl rfl

theorem sees_writeSr (a : BusAddr) (v : Byte) : SeesConsumers (writeSr a v) := by
  intro s c
  unfold writeSr
  rw [show (s.withConsumers c).via = s.via from rfl, show (s.withConsumers c).cfg = s.cfg from rfl]
  cases srMode s.cfg (s.via.get regAcr) with
  | out => exact sees_writeSrOut a v s c
  | inOrDisabled => exact .none rfl rfl
  | inExt => exact .none rfl rfl
  | other => exact .none rfl rfl

theorem sees_releasePending : SeesConsumers releasePending := by
  intro s c
  unfold releasePending
  rw [show (s.withConsumers c).via = s.via from rfl]
  cases s.via.shiftPending with
  | none => exact .none rfl rfl
  | some b => exact ⟨[.shiftTx b], rfl, rfl⟩

theorem sees_writeIfr (v : Byte) : SeesConsumers (writeIfr v) :=
  .ite (fun s => s.via.acked v &&& srMask s.cfg = 0#8) (fun _ _ => Iff.rfl) (fun _ _ => .none rfl rfl)
    (.comp (f := fun s => { s with via := s.via.unlatch (s.via.acked v) }) (fun _ _ => .none rfl rfl) sees_releasePending)

theorem sees_writeRegister (i : RegIdx) (a : BusAddr) (v : Byte) : SeesConsumers (writeRegister i a v) := by
  intro s c
  unfold writeRegister
  split
  · exact sees_writePortB v s c
  · exact sees_writePortA v s c
  · exact sees_writeSr a v s c
  · exact sees_writeIfr v s c
  · exact .none rfl rfl
  · exact sees_writePortA v s c
  · exact .none rfl rfl

theorem sees_viaWrite (i : RegIdx) (a : BusAddr) (v : Byte) : SeesConsumers (viaWrite i a v) :=
  SeesConsumers.comp (f := writeRegister i a v) (sees_writeRegister i a v) sees_reassess

theorem sees_notifyEdge (line : EdgeLine) : SeesConsumers (notifyEdge line) :=
  .comp (f := fun s => { s with via := s.via.latch (edgeMask s.cfg line) }) (fun _ _ => .none rfl rfl) sees_reassess

theorem sees_receiveShiftByte (b : Byte) : SeesConsumers (receiveShiftByte b) := by
  intro s c
  unfold receiveShiftByte
  rw [show (s.withConsumers c).via = s.via from rfl, show (s.withConsumers c).cfg = s.cfg from rfl]
  cases srMode s.cfg (s.via.get regAcr) with
  | inExt =>
    exact SeesConsumers.comp (f := fun s => { s with via := (s.via.set regSr b).latch (srMask s.cfg) })
      (fun _ _ => .none rfl rfl) sees_reassess s c
  | out => exact sees_diag _ _ s c
  | inOrDisabled => exact sees_diag _ _ s c
  | other => exact sees_diag _ _ s c

/-! ### The byte path and the accesses -/

theorem blind_sccAccess (label : TrapLabel) (a : BusAddr) (resume : Resume) : AnswersBlindly (sccAccess label a resume) := by
  intro s c
  exact ⟨(blind_trap label _ resume (s.diag .sccAccess a) c).1,
    .first (t := s.diag .sccAccess a) (sees_diag .sccAccess a s c) (blind_trap label (a.setWidth 32) resume)⟩

theorem blind_romWriteRejected (a : BusAddr) (resume : Resume) : AnswersBlindly (romWriteRejected a resume) := by
  intro s c
  exact ⟨(blind_trap .romWrite _ resume (s.diag .romWrite a) c).1,
    .first (t := s.diag .romWrite a) (sees_diag .romWrite a s c) (blind_trap .romWrite (a.setWidth 32) resume)⟩

theorem blind_sccRead (label : TrapLabel) (a : BusAddr) (resume : Resume) : AnswersBlindly (sccRead label a resume) :=
  (blind_sccAccess label a resume).map fun b => if b then some sentinel else none

theorem sees_iwmWrite (i : RegIdx) (a : BusAddr) (v : Byte) : SeesConsumers (iwmWrite i a v) := by
  intro s c
  unfold iwmWrite
  rw [show (s.withConsumers c).cfg = s.cfg from rfl]
  split
  · exact .none rfl rfl
  · exact .silent (new := [.diag .iwmUnhandled a]) rfl rfl rfl

theorem sees_ramWrite (off : Nat) (v : Byte) : SeesConsumers (ramWrite off v) := fun _ _ => .none rfl rfl

theorem blind_byteRead (addr : Long) (resume : Resume) : AnswersBlindly (byteRead addr resume) := by
  intro s c
  unfold byteRead
  dsimp only
  rw [show (s.withConsumers c).cfg = s.cfg from rfl, show (s.withConsumers c).overlay = s.overlay from rfl]
  cases decodeRegion s.cfg s.overlay (busAddr addr) with
  | iwm i => exact ⟨rfl, .none rfl rfl⟩
  | sccR => exact blind_sccRead _ _ _ s c
  | sccW => exact blind_sccRead _ _ _ s c
  | via i => exact (blind_viaRead i).map some s c
  | romOvl off => exact ⟨rfl, .none rfl rfl⟩
  | romAlias off => exact ⟨rfl, .none rfl rfl⟩
  | ram off => exact ⟨rfl, .none rfl rfl⟩
  | unmapped => exact ⟨rfl, sees_diag _ _ s c⟩

theorem blind_byteWrite (addr : Long) (v : Byte) (resume : Resume) : AnswersBlindly (byteWrite addr v resume) := by
  intro s c
  unfold byteWrite
  dsimp only
  rw [show (s.withConsumers c).cfg = s.cfg from rfl, show (s.withConsumers c).overlay = s.overlay from rfl]
  cases decodeRegion s.cfg s.overlay (busAddr addr) with
  | iwm i => exact ⟨rfl, sees_iwmWrite _ _ _ s c⟩
  | sccR => exact blind_sccAccess _ _ _ s c
  | sccW => exact blind_sccAccess _ _ _ s c
  | via i => exact ⟨rfl, sees_viaWrite _ _ _ s c⟩
  | romOvl off => exact blind_romWriteRejected _ _ s c
  | romAlias off => exact blind_romWriteRejected _ _ s c
  | ram off => exact ⟨rfl, .none rfl rfl⟩
  | unmapped => exact ⟨rfl, sees_diag _ _ s c⟩

theorem sees_renderRead (index : Nat) : SeesConsumers (renderRead index) := by
  intro s c
  unfold renderRead
  rw [show (s.withConsumers c).cfg = s.cfg from rfl]
  split
  · exact .silent (new := [.rendered index (s.ram.read (s.cfg.fbBase + index))]) rfl rfl rfl
  · exact .none rfl rfl

theorem sees_agentEvents (es : List AgentEvent) : SeesConsumers (agentEvents es) := by
  induction es with
  | nil => exact .id
  | cons e es ih =>
    refine SeesConsumers.comp (f := agentEvent e) ?_ ih
    cases e with
    | edge line => exact sees_notifyEdge line
    | rxsr b => exact sees_receiveShiftByte b
    | render i => exact sees_renderRead i

theorem sees_boundary (more : Bool) : SeesConsumers (boundary more) := by
  intro s c
  unfold boundary
  rw [show (s.withConsumers c).agenda = s.agenda from rfl]
  split
  · next es later _ =>
    exact SeesConsumers.comp (f := fun s => { s with agenda := later }) (fun _ _ => .none rfl rfl) (sees_agentEvents es) s c
  · exact .none rfl rfl

theorem sees_memRead (w : Width) (addrs : List Long) (acc : Long) : SeesConsumers (memRead w addrs acc) := by
  induction addrs generalizing acc with
  | nil => exact sees_reply _
  | cons a as ih =>
    intro s c
    obtain ⟨hb, hs⟩ := blind_byteRead a (.read w acc as) s c
    unfold memRead
    dsimp only
    rw [hb]
    cases (byteRead a (.read w acc as) s).1 with
    | none => exact hs
    | some b => exact .trans (.trans hs (sees_boundary _) rfl) (ih _) rfl

theorem sees_memWrite (xs : List (Long × Byte)) : SeesConsumers (memWrite xs) := by
  induction xs with
  | nil => exact sees_reply _
  | cons x xs ih =>
    intro s c
    obtain ⟨hb, hs⟩ := blind_byteWrite x.1 x.2 (.write xs) s c
    unfold memWrite
    dsimp only
    rw [hb]
    cases (byteWrite x.1 x.2 (.write xs) s).1 with
    | false => exact hs
    | true =>
      rw [if_pos rfl, if_pos rfl]
      exact .trans (.trans hs (sees_boundary _) rfl) ih rfl

theorem sees_resumeCall (resume : Resume) : SeesConsumers (resumeCall resume) := by
  cases resume with
  | hook => exact sees_reply _
  | read w acc rest => exact SeesConsumers.comp (f := boundary _) (sees_boundary _) (sees_memRead _ _ _)
  | write rest => exact SeesConsumers.comp (f := boundary _) (sees_boundary _) (sees_memWrite _)

end Sys2Proof.Machine
end

