-- ==== Sys2Proof/Laws/PerInstr.lean ====
section
/-! SUPPORT. A statement per transaction, about its encoding: the decode word of every well-formed BYTE transaction carries the
mask and match that spec/opcode_table.json gives its row. -/

namespace Sys2Proof.Laws.TablePattern

/-- The columns mask and match of spec/opcode_table.json; a row that is a call and no decode word has none. -/
def pattern : Instr → Option (BitVec 25 × BitVec 25)
  | .rb _ => none
  | .rw _ => none
  | .rl _ => none
  | .wb _ _ => none
  | .ww _ _ => none
  | .wl _ _ => none
  | .iwmRdSenseOnes _ => some (0x1000000#25, 0x0000000#25)
  | .iwmRdSenseNib _ => some (0x1000000#25, 0x0000000#25)
  | .iwmRd _ => some (0x1000000#25, 0x0000000#25)
  | .iwmWr _ _ => some (0x1000000#25, 0x1000000#25)
  | .sccRRd _ => some (0x1F00000#25, 0x0900000#25)
  | .sccRWr _ _ => some (0x1F00000#25, 0x1900000#25)
  | .sccWRd _ => some (0x1F00000#25, 0x0B00000#25)
  | .sccWWr _ _ => some (0x1F00000#25, 0x1B00000#25)
  | .viaRdOrb _ => some (0x1E81E00#25, 0x0E80000#25)
  | .viaRdOra _ => some (0x1E81E00#25, 0x0E80200#25)
  | .viaRdDdrb _ => some (0x1E81E00#25, 0x0E80400#25)
  | .viaRdDdra _ => some (0x1E81E00#25, 0x0E80600#25)
  | .viaRdT1cl _ => some (0x1E81E00#25, 0x0E80800#25)
  | .viaRdT1ch _ => some (0x1E81E00#25, 0x0E80A00#25)
  | .viaRdT1ll _ => some (0x1E81E00#25, 0x0E80C00#25)
  | .viaRdT1lh _ => some (0x1E81E00#25, 0x0E80E00#25)
  | .viaRdT2cl _ => some (0x1E81E00#25, 0x0E81000#25)
  | .viaRdT2ch _ => some (0x1E81E00#25, 0x0E81200#25)
  | .viaRdSr _ => some (0x1E81E00#25, 0x0E81400#25)
  | .viaRdAcr _ => some (0x1E81E00#25, 0x0E81600#25)
  | .viaRdPcr _ => some (0x1E81E00#25, 0x0E81800#25)
  | .viaRdIfr _ => some (0x1E81E00#25, 0x0E81A00#25)
  | .viaRdIer _ => some (0x1E81E00#25, 0x0E81C00#25)
  | .viaRdOraAlias _ => some (0x1E81E00#25, 0x0E81E00#25)
  | .viaWrOrb _ _ => some (0x1E81E00#25, 0x1E80000#25)
  | .viaWrOra _ _ => some (0x1E81E00#25, 0x1E80200#25)
  | .viaWrDdrb _ _ => some (0x1E81E00#25, 0x1E80400#25)
  | .viaWrDdra _ _ => some (0x1E81E00#25, 0x1E80600#25)
  | .viaWrT1cl _ _ => some (0x1E81E00#25, 0x1E80800#25)
  | .viaWrT1ch _ _ => some (0x1E81E00#25, 0x1E80A00#25)
  | .viaWrT1ll _ _ => some (0x1E81E00#25, 0x1E80C00#25)
  | .viaWrT1lh _ _ => some (0x1E81E00#25, 0x1E80E00#25)
  | .viaWrT2cl _ _ => some (0x1E81E00#25, 0x1E81000#25)
  | .viaWrT2ch _ _ => some (0x1E81E00#25, 0x1E81200#25)
  | .viaWrSr _ _ => some (0x1E81E00#25, 0x1E81400#25)
  | .viaWrAcr _ _ => some (0x1E81E00#25, 0x1E81600#25)
  | .viaWrPcr _ _ => some (0x1E81E00#25, 0x1E81800#25)
  | .viaWrIfr _ _ => some (0x1E81E00#25, 0x1E81A00#25)
  | .viaWrIer _ _ => some (0x1E81E00#25, 0x1E81C00#25)
  | .viaWrOraAlias _ _ => some (0x1E81E00#25, 0x1E81E00#25)
  | .romOvlRd _ => some (0x1000000#25, 0x0000000#25)
  | .romOvlWr _ _ => some (0x1000000#25, 0x1000000#25)
  | .romAliasRd _ => some (0x1000000#25, 0x0000000#25)
  | .romAliasWr _ _ => some (0x1000000#25, 0x1000000#25)
  | .ramRd _ => some (0x1000000#25, 0x0000000#25)
  | .ramWr _ _ => some (0x1000000#25, 0x1000000#25)
  | .unmappedRd _ => some (0x1000000#25, 0x0000000#25)
  | .unmappedWr _ _ => some (0x1000000#25, 0x1000000#25)
  | .hook _ => none
  | .viaEdge1 => none
  | .viaEdge2 => none
  | .viaRxsr _ => none
  | .answerStep => none
  | .answerOther => none

/-- What the family states. -/
def Statement (i : Instr) : Prop :=
  ∀ cfg overlay, i.wf cfg overlay = true → ∀ p, pattern i = some p → (encode i).low &&& p.1 = p.2

/-- A mask on a decode word that includes bit 24. -/
theorem decodeWord_and (d : Dir) (a m : BusAddr) : decodeWord d a &&& decodeWord .write m = decodeWord d (a &&& m) := by
  apply BitVec.eq_of_getLsbD_eq
  intro i hi
  rw [BitVec.getLsbD_and, getLsbD_decodeWord, getLsbD_decodeWord, getLsbD_decodeWord]
  split
  · rw [BitVec.getLsbD_and]
  · obtain rfl : i = 24 := by omega
    cases d <;> rfl

/-- A read row whose address has the row's pattern. -/
theorem of_read {i : Instr} {a m p : BusAddr} (he : encode i = encodeRead a) (h : a &&& m = p)
    (hi : pattern i = some (decodeWord .write m, decodeWord .read p)) : Statement i := by
  intro _ _ _ q hq
  rw [hi] at hq
  cases hq
  rw [he, encodeRead, low_append, decodeWord_and, h]

/-- A write row whose address has the row's pattern. -/
theorem of_write {i : Instr} {a m p : BusAddr} {v : Byte} (he : encode i = encodeWrite a v) (h : a &&& m = p)
    (hi : pattern i = some (decodeWord .write m, decodeWord .write p)) : Statement i := by
  intro _ _ _ q hq
  rw [hi] at hq
  cases hq
  rw [he, encodeWrite, low_append, decodeWord_and, h]

/-- A row with no decode word. -/
theorem of_none {i : Instr} (hi : pattern i = none) : Statement i := by
  intro _ _ _ q hq
  rw [hi] at hq
  cases hq

theorem and_zero (a : BusAddr) : a &&& 0#24 = 0#24 := BitVec.and_zero

theorem rb (addr : Long) : Statement (.rb addr) := of_none rfl
theorem rw (addr : Long) : Statement (.rw addr) := of_none rfl
theorem rl (addr : Long) : Statement (.rl addr) := of_none rfl
theorem wb (addr : Long) (v : Byte) : Statement (.wb addr v) := of_none rfl
theorem ww (addr : Long) (v : Half) : Statement (.ww addr v) := of_none rfl
theorem wl (addr : Long) (v : Long) : Statement (.wl addr v) := of_none rfl
theorem iwmRdSenseOnes (a : BusAddr) : Statement (.iwmRdSenseOnes a) := of_read rfl (and_zero a) rfl
theorem iwmRdSenseNib (a : BusAddr) : Statement (.iwmRdSenseNib a) := of_read rfl (and_zero a) rfl
theorem iwmRd (a : BusAddr) : Statement (.iwmRd a) := of_read rfl (and_zero a) rfl
theorem iwmWr (a : BusAddr) (v : Byte) : Statement (.iwmWr a v) := of_write rfl (and_zero a) rfl
theorem sccRRd (a : BusAddr) : Statement (.sccRRd a) := by
  intro cfg overlay h
  exact of_read (m := 0xf00000#24) (p := 0x900000#24) rfl (by simpa [Instr.wf, BusAddr.sccRRow, BusAddr.sccWRow, BusAddr.viaRow] using h) rfl cfg overlay h
theorem sccRWr (a : BusAddr) (v : Byte) : Statement (.sccRWr a v) := by
  intro cfg overlay h
  exact of_write (m := 0xf00000#24) (p := 0x900000#24) rfl (by simpa [Instr.wf, BusAddr.sccRRow, BusAddr.sccWRow, BusAddr.viaRow] using h) rfl cfg overlay h
theorem sccWRd (a : BusAddr) : Statement (.sccWRd a) := by
  intro cfg overlay h
  exact of_read (m := 0xf00000#24) (p := 0xb00000#24) rfl (by simpa [Instr.wf, BusAddr.sccRRow, BusAddr.sccWRow, BusAddr.viaRow] using h) rfl cfg overlay h
theorem sccWWr (a : BusAddr) (v : Byte) : Statement (.sccWWr a v) := by
  intro cfg overlay h
  exact of_write (m := 0xf00000#24) (p := 0xb00000#24) rfl (by simpa [Instr.wf, BusAddr.sccRRow, BusAddr.sccWRow, BusAddr.viaRow] using h) rfl cfg overlay h
theorem viaRdOrb (a : BusAddr) : Statement (.viaRdOrb a) := by
  intro cfg overlay h
  exact of_read (m := 0xe81e00#24) (p := 0xe80000#24) rfl (by simpa [Instr.wf, BusAddr.sccRRow, BusAddr.sccWRow, BusAddr.viaRow] using h) rfl cfg overlay h
theorem viaRdOra (a : BusAddr) : Statement (.viaRdOra a) := by
  intro cfg overlay h
  exact of_read (m := 0xe81e00#24) (p := 0xe80200#24) rfl (by simpa [Instr.wf, BusAddr.sccRRow, BusAddr.sccWRow, BusAddr.viaRow] using h) rfl cfg overlay h
theorem viaRdDdrb (a : BusAddr) : Statement (.viaRdDdrb a) := by
  intro cfg overlay h
  exact of_read (m := 0xe81e00#24) (p := 0xe80400#24) rfl (by simpa [Instr.wf, BusAddr.sccRRow, BusAddr.sccWRow, BusAddr.viaRow] using h) rfl cfg overlay h
theorem viaRdDdra (a : BusAddr) : Statement (.viaRdDdra a) := by
  intro cfg overlay h
  exact of_read (m := 0xe81e00#24) (p := 0xe80600#24) rfl (by simpa [Instr.wf, BusAddr.sccRRow, BusAddr.sccWRow, BusAddr.viaRow] using h) rfl cfg overlay h
theorem viaRdT1cl (a : BusAddr) : Statement (.viaRdT1cl a) := by
  intro cfg overlay h
  exact of_read (m := 0xe81e00#24) (p := 0xe80800#24) rfl (by simpa [Instr.wf, BusAddr.sccRRow, BusAddr.sccWRow, BusAddr.viaRow] using h) rfl cfg overlay h
theorem viaRdT1ch (a : BusAddr) : Statement (.viaRdT1ch a) := by
  intro cfg overlay h
  exact of_read (m := 0xe81e00#24) (p := 0xe80a00#24) rfl (by simpa [Instr.wf, BusAddr.sccRRow, BusAddr.sccWRow, BusAddr.viaRow] using h) rfl cfg overlay h
theorem viaRdT1ll (a : BusAddr) : Statement (.viaRdT1ll a) := by
  intro cfg overlay h
  exact of_read (m := 0xe81e00#24) (p := 0xe80c00#24) rfl (by simpa [Instr.wf, BusAddr.sccRRow, BusAddr.sccWRow, BusAddr.viaRow] using h) rfl cfg overlay h
theorem viaRdT1lh (a : BusAddr) : Statement (.viaRdT1lh a) := by
  intro cfg overlay h
  exact of_read (m := 0xe81e00#24) (p := 0xe80e00#24) rfl (by simpa [Instr.wf, BusAddr.sccRRow, BusAddr.sccWRow, BusAddr.viaRow] using h) rfl cfg overlay h
theorem viaRdT2cl (a : BusAddr) : Statement (.viaRdT2cl a) := by
  intro cfg overlay h
  exact of_read (m := 0xe81e00#24) (p := 0xe81000#24) rfl (by simpa [Instr.wf, BusAddr.sccRRow, BusAddr.sccWRow, BusAddr.viaRow] using h) rfl cfg overlay h
theorem viaRdT2ch (a : BusAddr) : Statement (.viaRdT2ch a) := by
  intro cfg overlay h
  exact of_read (m := 0xe81e00#24) (p := 0xe81200#24) rfl (by simpa [Instr.wf, BusAddr.sccRRow, BusAddr.sccWRow, BusAddr.viaRow] using h) rfl cfg overlay h
theorem viaRdSr (a : BusAddr) : Statement (.viaRdSr a) := by
  intro cfg overlay h
  exact of_read (m := 0xe81e00#24) (p := 0xe81400#24) rfl (by simpa [Instr.wf, BusAddr.sccRRow, BusAddr.sccWRow, BusAddr.viaRow] using h) rfl cfg overlay h
theorem viaRdAcr (a : BusAddr) : Statement (.viaRdAcr a) := by
  intro cfg overlay h
  exact of_read (m := 0xe81e00#24) (p := 0xe81600#24) rfl (by simpa [Instr.wf, BusAddr.sccRRow, BusAddr.sccWRow, BusAddr.viaRow] using h) rfl cfg overlay h
theorem viaRdPcr (a : BusAddr) : Statement (.viaRdPcr a) := by
  intro cfg overlay h
  exact of_read (m := 0xe81e00#24) (p := 0xe81800#24) rfl (by simpa [Instr.wf, BusAddr.sccRRow, BusAddr.sccWRow, BusAddr.viaRow] using h) rfl cfg overlay h
theorem viaRdIfr (a : BusAddr) : Statement (.viaRdIfr a) := by
  intro cfg overlay h
  exact of_read (m := 0xe81e00#24) (p := 0xe81a00#24) rfl (by simpa [Instr.wf, BusAddr.sccRRow, BusAddr.sccWRow, BusAddr.viaRow] using h) rfl cfg overlay h
theorem viaRdIer (a : BusAddr) : Statement (.viaRdIer a) := by
  intro cfg overlay h
  exact of_read (m := 0xe81e00#24) (p := 0xe81c00#24) rfl (by simpa [Instr.wf, BusAddr.sccRRow, BusAddr.sccWRow, BusAddr.viaRow] using h) rfl cfg overlay h
theorem viaRdOraAlias (a : BusAddr) : Statement (.viaRdOraAlias a) := by
  intro cfg overlay h
  exact of_read (m := 0xe81e00#24) (p := 0xe81e00#24) rfl (by simpa [Instr.wf, BusAddr.sccRRow, BusAddr.sccWRow, BusAddr.viaRow] using h) rfl cfg overlay h
theorem viaWrOrb (a : BusAddr) (v : Byte) : Statement (.viaWrOrb a v) := by
  intro cfg overlay h
  exact of_write (m := 0xe81e00#24) (p := 0xe80000#24) rfl (by simpa [Instr.wf, BusAddr.sccRRow, BusAddr.sccWRow, BusAddr.viaRow] using h) rfl cfg overlay h
theorem viaWrOra (a : BusAddr) (v : Byte) : Statement (.viaWrOra a v) := by
  intro cfg overlay h
  exact of_write (m := 0xe81e00#24) (p := 0xe80200#24) rfl (by simpa [Instr.wf, BusAddr.sccRRow, BusAddr.sccWRow, BusAddr.viaRow] using h) rfl cfg overlay h
theorem viaWrDdrb (a : BusAddr) (v : Byte) : Statement (.viaWrDdrb a v) := by
  intro cfg overlay h
  exact of_write (m := 0xe81e00#24) (p := 0xe80400#24) rfl (by simpa [Instr.wf, BusAddr.sccRRow, BusAddr.sccWRow, BusAddr.viaRow] using h) rfl cfg overlay h
theorem viaWrDdra (a : BusAddr) (v : Byte) : Statement (.viaWrDdra a v) := by
  intro cfg overlay h
  exact of_write (m := 0xe81e00#24) (p := 0xe80600#24) rfl (by simpa [Instr.wf, BusAddr.sccRRow, BusAddr.sccWRow, BusAddr.viaRow] using h) rfl cfg overlay h
theorem viaWrT1cl (a : BusAddr) (v : Byte) : Statement (.viaWrT1cl a v) := by
  intro cfg overlay h
  exact of_write (m := 0xe81e00#24) (p := 0xe80800#24) rfl (by simpa [Instr.wf, BusAddr.sccRRow, BusAddr.sccWRow, BusAddr.viaRow] using h) rfl cfg overlay h
theorem viaWrT1ch (a : BusAddr) (v : Byte) : Statement (.viaWrT1ch a v) := by
  intro cfg overlay h
  exact of_write (m := 0xe81e00#24) (p := 0xe80a00#24) rfl (by simpa [Instr.wf, BusAddr.sccRRow, BusAddr.sccWRow, BusAddr.viaRow] using h) rfl cfg overlay h
theorem viaWrT1ll (a : BusAddr) (v : Byte) : Statement (.viaWrT1ll a v) := by
  intro cfg overlay h
  exact of_write (m := 0xe81e00#24) (p := 0xe80c00#24) rfl (by simpa [Instr.wf, BusAddr.sccRRow, BusAddr.sccWRow, BusAddr.viaRow] using h) rfl cfg overlay h
theorem viaWrT1lh (a : BusAddr) (v : Byte) : Statement (.viaWrT1lh a v) := by
  intro cfg overlay h
  exact of_write (m := 0xe81e00#24) (p := 0xe80e00#24) rfl (by simpa [Instr.wf, BusAddr.sccRRow, BusAddr.sccWRow, BusAddr.viaRow] using h) rfl cfg overlay h
theorem viaWrT2cl (a : BusAddr) (v : Byte) : Statement (.viaWrT2cl a v) := by
  intro cfg overlay h
  exact of_write (m := 0xe81e00#24) (p := 0xe81000#24) rfl (by simpa [Instr.wf, BusAddr.sccRRow, BusAddr.sccWRow, BusAddr.viaRow] using h) rfl cfg overlay h
theorem viaWrT2ch (a : BusAddr) (v : Byte) : Statement (.viaWrT2ch a v) := by
  intro cfg overlay h
  exact of_write (m := 0xe81e00#24) (p := 0xe81200#24) rfl (by simpa [Instr.wf, BusAddr.sccRRow, BusAddr.sccWRow, BusAddr.viaRow] using h) rfl cfg overlay h
theorem viaWrSr (a : BusAddr) (v : Byte) : Statement (.viaWrSr a v) := by
  intro cfg overlay h
  exact of_write (m := 0xe81e00#24) (p := 0xe81400#24) rfl (by simpa [Instr.wf, BusAddr.sccRRow, BusAddr.sccWRow, BusAddr.viaRow] using h) rfl cfg overlay h
theorem viaWrAcr (a : BusAddr) (v : Byte) : Statement (.viaWrAcr a v) := by
  intro cfg overlay h
  exact of_write (m := 0xe81e00#24) (p := 0xe81600#24) rfl (by simpa [Instr.wf, BusAddr.sccRRow, BusAddr.sccWRow, BusAddr.viaRow] using h) rfl cfg overlay h
theorem viaWrPcr (a : BusAddr) (v : Byte) : Statement (.viaWrPcr a v) := by
  intro cfg overlay h
  exact of_write (m := 0xe81e00#24) (p := 0xe81800#24) rfl (by simpa [Instr.wf, BusAddr.sccRRow, BusAddr.sccWRow, BusAddr.viaRow] using h) rfl cfg overlay h
theorem viaWrIfr (a : BusAddr) (v : Byte) : Statement (.viaWrIfr a v) := by
  intro cfg overlay h
  exact of_write (m := 0xe81e00#24) (p := 0xe81a00#24) rfl (by simpa [Instr.wf, BusAddr.sccRRow, BusAddr.sccWRow, BusAddr.viaRow] using h) rfl cfg overlay h
theorem viaWrIer (a : BusAddr) (v : Byte) : Statement (.viaWrIer a v) := by
  intro cfg overlay h
  exact of_write (m := 0xe81e00#24) (p := 0xe81c00#24) rfl (by simpa [Instr.wf, BusAddr.sccRRow, BusAddr.sccWRow, BusAddr.viaRow] using h) rfl cfg overlay h
theorem viaWrOraAlias (a : BusAddr) (v : Byte) : Statement (.viaWrOraAlias a v) := by
  intro cfg overlay h
  exact of_write (m := 0xe81e00#24) (p := 0xe81e00#24) rfl (by simpa [Instr.wf, BusAddr.sccRRow, BusAddr.sccWRow, BusAddr.viaRow] using h) rfl cfg overlay h
theorem romOvlRd (a : BusAddr) : Statement (.romOvlRd a) := of_read rfl (and_zero a) rfl
theorem romOvlWr (a : BusAddr) (v : Byte) : Statement (.romOvlWr a v) := of_write rfl (and_zero a) rfl
theorem romAliasRd (a : BusAddr) : Statement (.romAliasRd a) := of_read rfl (and_zero a) rfl
theorem romAliasWr (a : BusAddr) (v : Byte) : Statement (.romAliasWr a v) := of_write rfl (and_zero a) rfl
theorem ramRd (a : BusAddr) : Statement (.ramRd a) := of_read rfl (and_zero a) rfl
theorem ramWr (a : BusAddr) (v : Byte) : Statement (.ramWr a v) := of_write rfl (and_zero a) rfl
theorem unmappedRd (a : BusAddr) : Statement (.unmappedRd a) := of_read rfl (and_zero a) rfl
theorem unmappedWr (a : BusAddr) (v : Byte) : Statement (.unmappedWr a v) := of_write rfl (and_zero a) rfl
theorem hook (pc : Long) : Statement (.hook pc) := of_none rfl
theorem viaEdge1 : Statement (.viaEdge1) := of_none rfl
theorem viaEdge2 : Statement (.viaEdge2) := of_none rfl
theorem viaRxsr (b : Byte) : Statement (.viaRxsr b) := of_none rfl
theorem answerStep : Statement (.answerStep) := of_none rfl
theorem answerOther : Statement (.answerOther) := of_none rfl

end Sys2Proof.Laws.TablePattern
end

