-- ==== Sys2Proof/Laws/Steps.lean ====
section
/-! SUPPORT. What a step can do, said once. -/

namespace Sys2Proof.Machine

/-- A step that answers a next state left everything as it was, or was a renderer read, or ran the transaction the next frame
decodes to: one that is no call of the CPU, if a trap waits. -/
theorem step_cases {s t : State} (h : step s = .next t) :
    t = s ∨ (∃ index rest, s.queue = .render index :: rest ∧ t = renderRead index { s with queue := rest }) ∨
      ∃ f rest i, s.queue = .transaction f :: rest ∧ decode s.cfg s.overlay f = .ok i ∧
        (s.trapWait = none ∨ i.agent ≠ .cpu) ∧ exec i { s with queue := rest } = .next t := by
  unfold step at h
  split at h
  · cases h; exact .inl rfl
  · next index rest hq => cases h; exact .inr (.inl ⟨index, rest, hq, rfl⟩)
  · next f rest hq =>
    split at h
    · cases h
    · next i hd =>
      split at h
      · cases h; exact .inl rfl
      · next hn =>
        refine .inr (.inr ⟨f, rest, i, hq, hd, ?_, h⟩)
        cases hw : s.trapWait with
        | none => exact .inl rfl
        | some w => exact .inr fun ha => hn ⟨by rw [hw]; rfl, ha⟩

end Sys2Proof.Machine
end

