-- ==== Sys2Proof/Tests/Slice0.lean ====
section
/-! SUPPORT. Tests. The words are written out from 30_encoding.md R101, R105 and R106 and from spec/opcode_table.json; the expected
results are those of 95_test_vectors.md (their numbers stand in the comments) or computed from the rules by hand. The theorems
`witness_…` show that the hypotheses of each statement can be met together. -/

namespace Sys2Proof.Tests

open Sys2Proof.Machine

/-! ### Helpers -/

/-- The next state, if there is one. -/
def after : Host.Outcome State Fault Refusal → Option State
  | .next s => some s
  | _ => none

/-- What a transaction returned, and the events it emitted, from a state whose records are empty. -/
def result (i : Instr) (s : State) : Option (List Reply × List Event) :=
  (after (exec i s)).map fun t => (t.replies, t.trace)

/-- The diagnostics a transaction logged and the trap it waits in. -/
def trapOf (i : Instr) (s : State) : Option (List Event × Option (TrapLabel × Long)) :=
  (after (exec i s)).map fun t => (t.trace.take 1, t.trapWait.map fun x => (x.label, x.addr))

/-- What the decoder makes of a frame after reset. -/
def decoded (head arg0 arg1 : Long) : Option Instr :=
  (decode Config.standard true { head := head, arg0 := arg0, arg1 := arg1 }).toOption

/-- Each word, its decode word of 32 bits, selects its transaction. -/
def selects (ps : List (Nat × Instr)) : Bool := ps.all fun p => decide (decodeTableWord 32 p.1 = some p.2)

/-- Some bytes of the image `ROM_T`: `ROM[i] = i mod 256`. -/
def romT : Memory := [(1, 1), (2, 2), (3, 3), (0x10, 0x10), (0x1234, 0x34), (0xFFFE, 0xFE), (0xFFFF, 0xFF)]

/-- Reset, with ROM_T. -/
def atReset : State := { State.reset with rom := romT }

/-- The same with the overlay cleared. -/
def cleared : State := { atReset with overlay := false }

/-- Reset with a VIA register written. -/
def viaReg (i : RegIdx) (v : Byte) : State := { State.reset with via := State.reset.via.set i v }

/-- Reset with the VIA's masks, the status settled. -/
def irq (enable active : Byte) : State :=
  { State.reset with via := { State.reset.via with
      irqEnable := enable, irqActive := active, irqStatus := enable &&& active &&& 0x7F#8 != 0#8 } }

/-- Mode OUT, with the byte 0x42 pending and its source latched. -/
def pending : State :=
  { State.reset with via := { State.reset.via.set 11 0x10 with irqActive := 0x04, shiftPending := some 0x42 } }

/-- A read of one byte waits in an SCC trap. -/
def waitingRead : State :=
  { State.reset with trapWait := some { label := .sccRead, addr := 0x900000, resume := .read .byte 0 [] } }

/-- A byte write waits in a ROM-write trap. -/
def waitingWrite : State :=
  { State.reset with trapWait := some { label := .romWrite, addr := 0x000010, resume := .write [] } }

/-- Reset under the no-op sink. -/
def noop : State := { State.reset with cfg := { Config.standard with debugSink := .noop } }

/-- Reset with single-step armed. -/
def armed : State := { State.reset with singleStepArmed := true }

/-! ### Well-formed terms, and an ill-formed one for each check -/

/-- The IWM window and its neighbours (L2.1). -/
theorem test_wf_iwm : Instr.wf Config.standard true (.iwmWr 0xDFE1FF 1) = true ∧ Instr.wf Config.standard true (.iwmWr 0xE001FE 1) = true
    ∧ Instr.wf Config.standard true (.iwmWr 0xDFE1FE 1) = false ∧ Instr.wf Config.standard true (.iwmWr 0xE001FF 1) = false := by decide

/-- The sense rows: S1 = 8 is at 0xDFF1FF and S2 = 14 at 0xDFFDFF (R105). -/
theorem test_wf_iwm_sense : Instr.wf Config.standard true (.iwmRdSenseOnes 0xDFF1FF) = true ∧ Instr.wf Config.standard true (.iwmRdSenseOnes 0xDFFDFF) = false
    ∧ Instr.wf Config.standard true (.iwmRdSenseNib 0xDFFDFF) = true ∧ Instr.wf Config.standard true (.iwmRdSenseNib 0xDFF1FF) = false
    ∧ Instr.wf Config.standard true (.iwmRd 0xDFE3FF) = true ∧ Instr.wf Config.standard true (.iwmRd 0xDFF1FF) = false
    ∧ Instr.wf Config.standard true (.iwmRd 0xDFFDFF) = false := by decide

theorem test_wf_scc : Instr.wf Config.standard true (.sccRRd 0x9FFFFF) = true ∧ Instr.wf Config.standard true (.sccRWr 0xA00000 1) = false
    ∧ Instr.wf Config.standard true (.sccWWr 0xB00000 1) = true ∧ Instr.wf Config.standard true (.sccWRd 0xC00000) = false := by decide

/-- The index, and the gap between the two halves of the window (L2.1). -/
theorem test_wf_via : Instr.wf Config.standard true (.viaRdOra 0xE80200) = true ∧ Instr.wf Config.standard true (.viaRdOra 0xE80400) = false
    ∧ Instr.wf Config.standard true (.viaWrOrb 0xF80000 1) = true ∧ Instr.wf Config.standard true (.viaWrOrb 0xF00000 1) = false := by decide

theorem test_wf_rom_overlay : Instr.wf Config.standard true (.romOvlRd 0x00FFFF) = true ∧ Instr.wf Config.standard true (.romOvlRd 0x010000) = false
    ∧ Instr.wf Config.standard false (.romOvlWr 0x00FFFF 1) = false := by decide

theorem test_wf_rom_alias : Instr.wf Config.standard true (.romAliasRd 0x400000) = true ∧ Instr.wf Config.standard true (.romAliasWr 0x3FFFFF 1) = false
    ∧ Instr.wf Config.standard true (.romAliasRd 0x410000) = false := by decide

theorem test_wf_ram : Instr.wf Config.standard false (.ramRd 0x000000) = true ∧ Instr.wf Config.standard true (.ramRd 0x000000) = false
    ∧ Instr.wf Config.standard true (.ramWr 0x01FFFF 1) = true ∧ Instr.wf Config.standard true (.ramWr 0x020000 1) = false := by decide

theorem test_wf_unmapped : Instr.wf Config.standard true (.unmappedRd 0x020000) = true ∧ Instr.wf Config.standard true (.unmappedWr 0x01FFFF 1) = false
    ∧ Instr.wf Config.standard true (.unmappedRd 0x900000) = false := by decide

/-- With a RAM over the whole space the fixed windows still come first (R64). -/
theorem test_wf_windows_first : Instr.wf { Config.standard with ramSize := 0x1000000 } false (.ramRd 0x8FFFFF) = true
    ∧ Instr.wf { Config.standard with ramSize := 0x1000000 } false (.ramRd 0x900000) = false := by decide

/-- Each constraint of R7, and of log 15, broken alone. -/
theorem test_config_wf : Config.standard.wf = true
    ∧ ({ Config.standard with iwmSenseNib := 8#4 }).wf = false
    ∧ ({ Config.standard with iwmSenseNibVal := 0xF1 }).wf = false
    ∧ ({ Config.standard with overlayBit := 8 }).wf = false
    ∧ ({ Config.standard with viaOraInit := 0xEF }).wf = false
    ∧ ({ Config.standard with romSize := 0 }).wf = false
    ∧ ({ Config.standard with ramSize := 0 }).wf = false
    ∧ ({ Config.standard with romAliasBase := 0xFF0001 }).wf = false
    ∧ ({ Config.standard with ifrCa2 := 7 }).wf = false
    ∧ ({ Config.standard with ifrCa1 := 7 }).wf = false
    ∧ ({ Config.standard with ifrSr := 7 }).wf = false
    ∧ ({ Config.standard with ifrCa1 := 0 }).wf = false
    ∧ ({ Config.standard with ifrSr := 0 }).wf = false
    ∧ ({ Config.standard with ifrSr := 1 }).wf = false
    ∧ ({ Config.standard with srDecode := .table [] }).wf = false := by decide

/-! ### Decoding: the words, bit by bit -/

/-- `0xEFE1FE + 0x200 n` is VIA register n (R106), W = 0. -/
theorem test_decode_via_reads : selects [
    (0x0EFE1FE, .viaRdOrb 0xEFE1FE),
    (0x0EFE3FE, .viaRdOra 0xEFE3FE),
    (0x0EFE5FE, .viaRdDdrb 0xEFE5FE),
    (0x0EFE7FE, .viaRdDdra 0xEFE7FE),
    (0x0EFE9FE, .viaRdT1cl 0xEFE9FE),
    (0x0EFEBFE, .viaRdT1ch 0xEFEBFE),
    (0x0EFEDFE, .viaRdT1ll 0xEFEDFE),
    (0x0EFEFFE, .viaRdT1lh 0xEFEFFE),
    (0x0EFF1FE, .viaRdT2cl 0xEFF1FE),
    (0x0EFF3FE, .viaRdT2ch 0xEFF3FE),
    (0x0EFF5FE, .viaRdSr 0xEFF5FE),
    (0x0EFF7FE, .viaRdAcr 0xEFF7FE),
    (0x0EFF9FE, .viaRdPcr 0xEFF9FE),
    (0x0EFFBFE, .viaRdIfr 0xEFFBFE),
    (0x0EFFDFE, .viaRdIer 0xEFFDFE),
    (0x0EFFFFE, .viaRdOraAlias 0xEFFFFE)] = true := by decide

/-- The `match` words of the table, `0x1E80000 | n << 9`, W = 1. -/
theorem test_decode_via_writes : selects [
    (0x1E80000, .viaWrOrb 0xE80000 0),
    (0x1E80200, .viaWrOra 0xE80200 0),
    (0x1E80400, .viaWrDdrb 0xE80400 0),
    (0x1E80600, .viaWrDdra 0xE80600 0),
    (0x1E80800, .viaWrT1cl 0xE80800 0),
    (0x1E80A00, .viaWrT1ch 0xE80A00 0),
    (0x1E80C00, .viaWrT1ll 0xE80C00 0),
    (0x1E80E00, .viaWrT1lh 0xE80E00 0),
    (0x1E81000, .viaWrT2cl 0xE81000 0),
    (0x1E81200, .viaWrT2ch 0xE81200 0),
    (0x1E81400, .viaWrSr 0xE81400 0),
    (0x1E81600, .viaWrAcr 0xE81600 0),
    (0x1E81800, .viaWrPcr 0xE81800 0),
    (0x1E81A00, .viaWrIfr 0xE81A00 0),
    (0x1E81C00, .viaWrIer 0xE81C00 0),
    (0x1E81E00, .viaWrOraAlias 0xE81E00 0)] = true := by decide

/-- The window base, its end, the two sense indices, and writes (R105). -/
theorem test_decode_iwm : selects [
    (0x0DFF1FF, .iwmRdSenseOnes 0xDFF1FF),
    (0x0DFFDFF, .iwmRdSenseNib 0xDFFDFF),
    (0x0DFE1FF, .iwmRd 0xDFE1FF),
    (0x0DFE200, .iwmRd 0xDFE200),
    (0x0E00000, .iwmRd 0xE00000),
    (0x0E001FE, .iwmRd 0xE001FE),
    (0x1DFFFFF, .iwmWr 0xDFFFFF 0),
    (0x1DFF1FF, .iwmWr 0xDFF1FF 0)] = true := by decide

/-- Both directions of both windows (D4). -/
theorem test_decode_scc : selects [
    (0x0900000, .sccRRd 0x900000),
    (0x19FFFFF, .sccRWr 0x9FFFFF 0),
    (0x0BFFFFF, .sccWRd 0xBFFFFF),
    (0x1B00000, .sccWWr 0xB00000 0)] = true := by decide

/-- The edges of L2.1. -/
theorem test_decode_rom_ram_unmapped : selects [
    (0x0000000, .romOvlRd 0x000000),
    (0x100FFFF, .romOvlWr 0x00FFFF 0),
    (0x0400000, .romAliasRd 0x400000),
    (0x140FFFF, .romAliasWr 0x40FFFF 0),
    (0x0010000, .ramRd 0x010000),
    (0x101FFFF, .ramWr 0x01FFFF 0),
    (0x0020000, .unmappedRd 0x020000),
    (0x1F7FFFF, .unmappedWr 0xF7FFFF 0)] = true := by decide

/-- With the overlay cleared the low addresses are RAM (L2.1). -/
theorem test_decode_overlay_cleared : readRow Config.standard false 0x00FFFF = .ramRd 0x00FFFF ∧ writeRow Config.standard false 0x000000 5 = .ramWr 0x000000 5 := by decide

/-- A BYTE write of 0x10 to DDRA: W and A in the head, the value in the second word. -/
theorem test_decode_byte_value : decoded 0x01EFE7FE 0x10 0 = some (.viaWrDdra 0xEFE7FE 0x10) := by decide

/-- The MEM calls of R100 in the layout of log 1: the format 1 in bits 31:25, the op in bits 24:0. -/
theorem test_decode_mem : decoded 0x02000000 0x01000010 0 = some (.rb 0x01000010) ∧ decoded 0x02000001 0xFFFFFF 0 = some (.rw 0xFFFFFF)
    ∧ decoded 0x02000002 0x400000 0 = some (.rl 0x400000) ∧ decoded 0x02000003 0x100 0x55 = some (.wb 0x100 0x55)
    ∧ decoded 0x02000004 0xEFE1FE 0x1234 = some (.ww 0xEFE1FE 0x1234)
    ∧ decoded 0x02000005 0 0xDEADBEEF = some (.wl 0 0xDEADBEEF) := by decide

/-- HOOK, EDGE, RXSR and ANSWER in the layout of log 1. -/
theorem test_decode_events : decoded 0x04000000 0x400120 0 = some (.hook 0x400120) ∧ decoded 0x06000000 1 0 = some .viaEdge1
    ∧ decoded 0x06000000 2 0 = some .viaEdge2 ∧ decoded 0x08000000 0x5A 0 = some (.viaRxsr 0x5A)
    ∧ decoded 0x0A000000 0 0 = some .answerStep ∧ decoded 0x0A000000 1 0 = some .answerOther := by decide

/-- What is no transaction is rejected by name. -/
theorem test_decode_rejects :
    (decode Config.standard true { head := 0x06000000, arg0 := 3, arg1 := 0 }).toOption = none
    ∧ (decode Config.standard true { head := 0x0C000000, arg0 := 0, arg1 := 0 }).toOption = none
    ∧ (decode Config.standard true { head := 0x02000006, arg0 := 0, arg1 := 0 }).toOption = none
    ∧ (decode Config.standard true { head := 0x0A000000, arg0 := 2, arg1 := 0 }).toOption = none
    ∧ (decode Config.standard true { head := 0x02000003, arg0 := 0, arg1 := 0x100 }).toOption = none
    ∧ (decode Config.standard true { head := 0x08000000, arg0 := 0x100, arg1 := 0 }).toOption = none
    ∧ (decode Config.standard true { head := 0x00000000, arg0 := 1, arg1 := 0 }).toOption = none := by decide

/-- Bits 31:24 of an ABI address are ignored, and byte k wraps (R61, R66; L2.1, B6). -/
theorem test_bus_addr : busAddr 0x01000010 = 0x000010 ∧ busAddr 0xFF900000 = 0x900000
    ∧ byteAddrs .word 0xFFFFFFFF = [0xFFFFFFFF, 0] ∧ busAddr (0x00FFFFFF + 1) = 0 := by decide

/-! ### One transaction: the bus -/

/-- B1, B19. -/
theorem test_rb : result (.rb 0x01000010) atReset = some ([.u8 0x10], []) := by decide

/-- B5: ROM and RAM. -/
theorem test_rw_straddles : result (.rw 0x00FFFF) atReset = some ([.u16 0xFF00], []) := by decide

/-- B6: VIA ORA, then A = 0. -/
theorem test_rw_wraps : result (.rw 0xFFFFFF) { atReset with portA := { supply := [0x5A], draws := 0 } } = some ([.u16 0x5A00], []) := by decide

/-- B3. -/
theorem test_rl : result (.rl 0x400000) cleared = some ([.u32 0x00010203], []) := by decide

/-- B4. -/
theorem test_rl_past_the_alias : result (.rl 0x40FFFE) atReset = some ([.u32 0xFEFFFFFF], [.diag .unmappedRead 0x410000, .diag .unmappedRead 0x410001]) := by decide

/-- The example of R163. -/
theorem test_wb : (after (exec (.wb 0x000100 0x55) cleared)).map (·.ram) = some [(0x100, 0x55)] := by decide

/-- B10. -/
theorem test_ww_past_ram : (after (exec (.ww 0x01FFFF 0xABCD) atReset)).map (fun t => (t.ram, t.trace)) =
    some ([(0x1FFFF, 0xAB)], [.diag .unmappedWrite 0x020000]) := by decide

/-- V34. -/
theorem test_ww_port_b : (after (exec (.ww 0xEFE1FE 0x1234) State.reset)).map (fun t => (t.via.get 0, t.trace)) =
    some (0x34, [.portBChanged 0x12, .portBChanged 0x34]) := by decide

/-- B16. -/
theorem test_wl : (after (exec (.wl 0x000000 0xDEADBEEF) cleared)).map (·.ram) = some [(0, 0xDE), (1, 0xAD), (2, 0xBE), (3, 0xEF)] := by decide

/-- V35. -/
theorem test_wl_shift_register : (after (exec (.wl 0xEFF5FE 0x01020304) { irq 0x04 0 with via := (irq 0x04 0).via.set 11 0x10 })).map
    (fun t => (t.trace, t.via.shiftPending, t.via.get 11, t.via.ifr)) =
    some ([.irqLevel true, .diag .srOverrun 0xEFF5FF], some 0x02, 0x04, 0x84) := by decide

/-- B20. -/
theorem test_ww_remaps_once : (after (exec (.ww 0xEFE3FE 0x0010) State.reset)).map (fun t => (t.overlay, t.via.get 1, t.trace)) =
    some (false, 0x10, [.portAChanged 0x00, .portAChanged 0x10]) := by decide

/-- L1.8, B13. -/
theorem test_scc_reads : trapOf (.sccRRd 0x900000) State.reset = some ([.diag .sccAccess 0x900000], some (.sccRead, 0x900000))
    ∧ trapOf (.sccWRd 0xB00001) State.reset = some ([.diag .sccAccess 0xB00001], some (.sccWrite, 0xB00001)) := by decide

/-- B12 (D4). -/
theorem test_scc_writes : trapOf (.sccRWr 0x900000 0x12) State.reset = some ([.diag .sccAccess 0x900000], some (.sccRead, 0x900000))
    ∧ trapOf (.sccWWr 0xB00000 0x12) State.reset = some ([.diag .sccAccess 0xB00000], some (.sccWrite, 0xB00000)) := by decide

/-- G9. -/
theorem test_scc_noop : result (.sccRRd 0x900000) noop = some ([.u8 0xFF], [.diag .sccAccess 0x900000])
    ∧ result (.romOvlWr 0x000000 0x01) noop = some ([.done], [.diag .romWrite 0x000000]) := by decide

/-- L1.1, R146. -/
theorem test_rom_reads : result (.romOvlRd 0x001234) atReset = some ([.u8 0x34], []) ∧ result (.romAliasRd 0x400010) atReset = some ([.u8 0x10], []) := by decide

/-- B7, B9. -/
theorem test_rom_writes : trapOf (.romOvlWr 0x000010 0x77) atReset = some ([.diag .romWrite 0x000010], some (.romWrite, 0x000010))
    ∧ trapOf (.romAliasWr 0x400010 0x77) atReset = some ([.diag .romWrite 0x400010], some (.romWrite, 0x400010)) := by decide

/-- A write of 0x00 removes the entry: the canonical form. -/
theorem test_ram : (after (exec (.ramWr 0x010000 0xCD) { State.reset with ram := [(0x10000, 1)] })).map (·.ram) = some [(0x10000, 0xCD)]
    ∧ (after (exec (.ramWr 0x010000 0) { State.reset with ram := [(0x10000, 1)] })).map (·.ram) = some []
    ∧ result (.ramRd 0x010000) { State.reset with ram := [(0x10000, 0xCD)] } = some ([.u8 0xCD], []) := by decide

/-- B11. -/
theorem test_unmapped : result (.unmappedRd 0x300000) State.reset = some ([.u8 0xFF], [.diag .unmappedRead 0x300000])
    ∧ result (.unmappedWr 0x300000 0x12) State.reset = some ([.done], [.diag .unmappedWrite 0x300000]) := by decide

/-! ### One transaction: the IWM -/

/-- W1, W2 with S1 = 8, S2 = 14, N = 0xF0. -/
theorem test_iwm_sense : result (.iwmRdSenseOnes 0xDFF1FF) State.reset = some ([.u8 0xFF], []) ∧ result (.iwmRdSenseNib 0xDFFDFF) State.reset = some ([.u8 0xF0], []) := by decide

/-- The example of R240; W5 with and without the index known. -/
theorem test_iwm_write : (after (exec (.iwmWr 0xDFE3FF 0x5C) State.reset)).map (fun t => (t.iwm[1], t.trace)) = some (0x5C, [.diag .iwmUnhandled 0xDFE3FF])
    ∧ (after (exec (.iwmWr 0xDFE3FF 0x5C) { State.reset with cfg := { Config.standard with iwmKnown := [1] } })).map (·.trace) = some [] := by decide

/-- W7, W6. -/
theorem test_iwm_word : result (.rw 0xDFE1FF) { State.reset with iwm := State.reset.iwm.set 0 0x11 |>.set 1 0x22 } = some ([.u16 0x1122], [])
    ∧ result (.iwmRd 0xE00000) { State.reset with iwm := State.reset.iwm.set 0 0x11 } = some ([.u8 0x11], []) := by decide

/-! ### One transaction: the VIA -/

/-- V1, V3. -/
theorem test_read_port_a : result (.viaRdOra 0xEFE3FE) { State.reset with portA := { supply := [0xC3], draws := 0 } } = some ([.u8 0xC3], [])
    ∧ result (.viaRdOraAlias 0xEFFFFE) { viaReg 3 0xF0 with portA := { supply := [0x0F], draws := 0 } } = some ([.u8 0x1F], []) := by decide

/-- V5. -/
theorem test_read_port_b : result (.viaRdOrb 0xEFE1FE) { State.reset with via := (State.reset.via.set 0 0xA5).set 2 0xF0, portB := { supply := [0x3C], draws := 0 } } =
    some ([.u8 0xAC], []) := by decide

/-- D15: no provider fitted. -/
theorem test_read_unfitted_port : result (.viaRdOra 0xEFE3FE) { State.reset with cfg := { Config.standard with portAFitted := false } } = some ([.u8 0x00], []) := by decide

/-- The example of R186. -/
theorem test_read_sr : (after (exec (.viaRdSr 0xEFF5FE) { irq 0x04 0x04 with via := (irq 0x04 0x04).via.set 10 0x5A })).map
    (fun t => (t.replies, t.trace, t.via.irqActive)) = some ([.u8 0x5A], [.irqLevel false], 0) := by decide

/-- The example of R184. -/
theorem test_read_ifr : result (.viaRdIfr 0xEFFBFE) (irq 0x00 0x02) = some ([.u8 0x02], []) ∧ result (.viaRdIfr 0xEFFBFE) (irq 0x02 0x02) = some ([.u8 0x82], []) := by decide

/-- V12 and the example of R185. -/
theorem test_read_ier : result (.viaRdIer 0xEFFDFE) State.reset = some ([.u8 0x80], []) ∧ result (.viaRdIer 0xEFFDFE) (irq 0x04 0x00) = some ([.u8 0x84], []) := by decide

/-- Each plain register read answers its own cell: cell n holds `0x20 + n`. -/
theorem test_read_plain : (([(.viaRdDdrb 0xEFE5FE, 2),
    (.viaRdDdra 0xEFE7FE, 3),
    (.viaRdT1cl 0xEFE9FE, 4),
    (.viaRdT1ch 0xEFEBFE, 5),
    (.viaRdT1ll 0xEFEDFE, 6),
    (.viaRdT1lh 0xEFEFFE, 7),
    (.viaRdT2cl 0xEFF1FE, 8),
    (.viaRdT2ch 0xEFF3FE, 9),
    (.viaRdAcr 0xEFF7FE, 11),
    (.viaRdPcr 0xEFF9FE, 12)] : List (Instr × RegIdx)).all fun p =>
    decide (result p.1 (viaReg p.2 (0x20 + p.2.setWidth 8)) = some ([.u8 (0x20 + p.2.setWidth 8)], []))) = true := by decide

/-- Each plain register write stores into its own cell, and emits nothing. -/
theorem test_write_plain : (([(.viaWrDdrb 0xEFE5FE 0x77, 2),
    (.viaWrDdra 0xEFE7FE 0x77, 3),
    (.viaWrT1cl 0xEFE9FE 0x77, 4),
    (.viaWrT1ch 0xEFEBFE 0x77, 5),
    (.viaWrT1ll 0xEFEDFE 0x77, 6),
    (.viaWrT1lh 0xEFEFFE 0x77, 7),
    (.viaWrT2cl 0xEFF1FE 0x77, 8),
    (.viaWrT2ch 0xEFF3FE 0x77, 9),
    (.viaWrAcr 0xEFF7FE 0x77, 11),
    (.viaWrPcr 0xEFF9FE 0x77, 12)] : List (Instr × RegIdx)).all fun p =>
    decide ((after (exec p.1 State.reset)).map (fun t => (t.via.get p.2, t.via.get 1, t.trace)) = some (0x77, 0x10, []))) = true := by
  decide

/-- V7, V6. -/
theorem test_write_port_a : (after (exec (.viaWrOra 0xEFE3FE 0x30) State.reset)).map (fun t => (t.via.get 1, t.overlay, t.trace)) = some (0x30, true, [.portAChanged 0x30])
    ∧ (after (exec (.viaWrOra 0xEFE3FE 0x10) State.reset)).map (fun t => (t.overlay, t.trace)) = some (true, []) := by decide

/-- V8, V9: the remap is one-way. -/
theorem test_write_port_a_alias : (after (exec (.viaWrOraAlias 0xEFFFFE 0x20) State.reset)).map (fun t => (t.via.get 1, t.via.get 15, t.overlay, t.trace)) =
    some (0x20, 0, false, [.portAChanged 0x20])
    ∧ (after (exec (.viaWrOraAlias 0xEFFFFE 0x10) { viaReg 1 0x20 with overlay := false })).map (·.overlay) = some false := by decide

/-- The example of R191, and an equal value. -/
theorem test_write_port_b : (after (exec (.viaWrOrb 0xEFE1FE 0x07) State.reset)).map (fun t => (t.via.get 0, t.trace)) = some (0x07, [.portBChanged 0x07])
    ∧ result (.viaWrOrb 0xEFE1FE 0x00) State.reset = some ([.done], []) := by decide

/-- V22, V25. -/
theorem test_write_sr_out : (after (exec (.viaWrSr 0xEFF5FE 0x42) (viaReg 11 0x10))).map (fun t => (t.via.shiftPending, t.via.ifr, t.via.get 10)) =
    some (some 0x42, 0x04, 0)
    ∧ (after (exec (.viaWrSr 0xEFF5FE 0x22) pending)).map (fun t => (t.via.shiftPending, t.trace)) = some (some 0x22, [.diag .srOverrun 0xEFF5FE]) := by decide

/-- V27, V30, V31. -/
theorem test_write_sr_other_modes : (after (exec (.viaWrSr 0xEFF5FE 0x99) (viaReg 10 0x5A))).map (fun t => t.via.get 10) = some 0
    ∧ (after (exec (.viaWrSr 0xEFF5FE 0x77) { viaReg 10 0x5A with via := (viaReg 10 0x5A).via.set 11 0x08 })).map (fun t => t.via.get 10) = some 0x5A
    ∧ (after (exec (.viaWrSr 0xEFF5FE 0x42) (viaReg 11 0x1C))).map (fun t => t.via.shiftPending) = some none := by decide

/-- V32. -/
theorem test_sr_modes : srMode Config.standard 0x14 = .out ∧ srMode Config.standard 0x0C = .inExt ∧ srMode Config.standard 0x18 = .other
    ∧ srMode Config.standard 0x04 = .inOrDisabled := by decide

/-- L1.4, V21. -/
theorem test_write_ifr : (after (exec (.viaWrIfr 0xEFFBFE 0x04) pending)).map (fun t => (t.trace, t.via.shiftPending, t.via.irqActive)) =
    some ([.shiftTx 0x42], none, 0)
    ∧ (after (exec (.viaWrIfr 0xEFFBFE 0x02) (irq 0x03 0x03))).map (fun t => (t.trace, t.via.irqActive)) = some ([], 0x01) := by decide

/-- V26. -/
theorem test_write_ifr_order : (after (exec (.viaWrIfr 0xEFFBFE 0x04) { pending with via := { pending.via with irqEnable := 0x04, irqStatus := true } })).map (·.trace) =
    some [.shiftTx 0x42, .irqLevel false] := by decide

/-- L1.3, V18. -/
theorem test_write_ier : (after (exec (.viaWrIer 0xEFFDFE 0x84) (irq 0x02 0x00))).map (fun t => t.via.ier) = some 0x86
    ∧ (after (exec (.viaWrIer 0xEFFDFE 0x82) (irq 0x00 0x02))).map (fun t => (t.via.ifr, t.trace)) = some (0x82, [.irqLevel true]) := by decide

/-- V14, V13. -/
theorem test_write_ier_clears : (after (exec (.viaWrIer 0xEFFDFE 0x7F) (irq 0x7F 0x00))).map (fun t => t.via.ier) = some 0x80
    ∧ (after (exec (.viaWrIer 0xEFFDFE 0xFF) State.reset)).map (fun t => (t.via.ier, t.via.irqEnable)) = some (0xFF, 0x7F) := by decide

/-! ### One transaction: events, hook, answers -/

/-- L1.5. -/
theorem test_edge1 : (after (exec .viaEdge1 (irq 0x02 0x00))).map (fun t => (t.via.ifr, t.trace)) = some (0x82, [.irqLevel true])
    ∧ (after (exec .viaEdge1 (irq 0x02 0x02))).map (·.trace) = some [] := by decide

/-- V11: the PCR is not consulted. -/
theorem test_edge2 : (after (exec .viaEdge2 (viaReg 12 0xFF))).map (fun t => (t.via.ifr, t.trace)) = some (0x01, []) := by decide

/-- V29, V28. -/
theorem test_rxsr : (after (exec (.viaRxsr 0x5A) (viaReg 11 0x08))).map (fun t => (t.via.get 10, t.via.ifr)) = some (0x5A, 0x04)
    ∧ (after (exec (.viaRxsr 0x33) State.reset)).map (fun t => (t.via.get 10, t.via.ifr, t.trace)) = some (0, 0, [.diag .srRxIgnored 0]) := by decide

/-- G1, G4. -/
theorem test_hook : result (.hook 0x400100) State.reset = some ([.done], [])
    ∧ (after (exec (.hook 0x400120) armed)).map (fun t => (t.trapWait.map fun x => (x.label, x.addr), t.singleStepArmed)) =
      some (some (.singleStep, 0x400120), true) := by decide

/-- G3. -/
theorem test_answer_step : (after (exec .answerStep waitingRead)).map (fun t => (t.replies, t.singleStepArmed, t.trapWait.isSome)) =
    some ([.trapReturned false, .u8 0xFF], true, false) := by decide

/-- B7. -/
theorem test_answer_other : (after (exec .answerOther waitingWrite)).map (fun t => (t.replies, t.singleStepArmed, t.trapWait.isSome)) =
    some ([.trapReturned true, .done], false, false) := by decide

/-- B14, from its trap on. -/
theorem test_answer_goes_on : (after (exec .answerOther { State.reset with trapWait := some { label := .sccRead, addr := 0x9FFFFF, resume := .read .word 0 [0xA00000] } })).map
    (fun t => (t.replies, t.trace)) = some ([.trapReturned true, .u16 0xFFFF], [.diag .unmappedRead 0xA00000]) := by decide

/-! ### Steps -/

/-- The words of a table row run as the first transaction after reset (log 2). -/
theorem test_step_after_reset :
    (after (step (State.reset.withFetchWord 32 0x0000000))).map (·.replies) = some [.u8 0]
    ∧ (after (step (State.reset.withFetchWord 32 0x1EFE3FE))).map (fun t => (t.overlay, t.queue)) = some (false, []) := by decide

/-- With nothing to come the block does nothing; while a trap waits a call of the CPU does not start (R268). -/
theorem test_step_waits : after (step State.reset) = some State.reset
    ∧ after (step (waitingRead.withFetchWord 32 0)) = some (waitingRead.withFetchWord 32 0) := by decide

/-- The renderer reads RAM at any time: here in a trap wait, at the last byte of the framebuffer and past it (R45, R296). -/
theorem test_step_render :
    (after (step { waitingRead with ram := [(0x1FFFF, 9)], queue := [.render 0x1FFFF] })).map (fun t => (t.trace, t.queue, t.trapWait)) =
      some ([.rendered 0x1FFFF 9], [], waitingRead.trapWait)
    ∧ (after (step { waitingRead with queue := [.render 0x20000] })).map (fun t => (t.trace, t.trapWait)) =
      some ([], waitingRead.trapWait) := by decide

/-- A byte image reads back. -/
theorem test_image : (Memory.ofBytes 0 [0, 7, 0, 9]) = [(1, 7), (3, 9)] := by decide


/-! ### Witnesses: the hypotheses of each statement can be met together -/

/-- A small configuration that obeys R7, at the lower ends of the sizes. -/
def tinyConfig : Config := { Config.standard with romSize := 1, ramSize := 1, romAliasBase := 0xFFFFFF }

/-- The overlay cleared, a byte at the last RAM offset. -/
def lastRam : State := { cleared with ram := [(0x1FFFF, 0x12)] }

/-- The same, with other agents to act at the next three boundaries between two bytes of a call. -/
def busy : State := { lastRam with agenda := [[.edge .one, .rxsr 5], [.render 0], []] }

/-- A consumer that re-enters the VIA at the next output event. -/
def reentrant : State := { State.reset with consumers := .reenterAfter 0 }

/-- The renderer reads two bytes between the bytes of the next wide call. -/
def rendering : State :=
  { cleared with cfg := { Config.standard with fbBase := 0x100, fbBytes := 2 }, agenda := [[.render 0, .render 1]] }

/-- Mode IN_EXT. -/
def external : State := viaReg 11 0x08

/-- Also the witness of the statements whose one hypothesis is `Ready` (RomReads, the unmapped rows). -/
theorem test_ready : State.reset.Ready ∧ atReset.Ready ∧ cleared.Ready ∧ lastRam.Ready ∧ pending.Ready ∧ noop.Ready ∧ armed.Ready
    ∧ rendering.Ready ∧ external.Ready :=
  ⟨⟨rfl, rfl⟩, ⟨rfl, rfl⟩, ⟨rfl, rfl⟩, ⟨rfl, rfl⟩, ⟨rfl, rfl⟩, ⟨rfl, rfl⟩, ⟨rfl, rfl⟩, ⟨rfl, rfl⟩, ⟨rfl, rfl⟩⟩

theorem test_settled : State.reset.via.Settled ∧ pending.via.Settled ∧ external.via.Settled ∧ (irq 0x7F 0x07).via.Settled :=
  ⟨rfl, rfl, rfl, rfl⟩

/-- The three clauses: a good configuration and image; a bad configuration; an image one byte too long. -/
theorem witness_BringUpNeeds : (tinyConfig.wf = true ∧ [0x4E#8].length = tinyConfig.romSize)
    ∧ ({ tinyConfig with romAliasBase := 0x1000000 } : Config).wf = false
    ∧ (tinyConfig.wf = true ∧ [0x4E#8, 0#8].length ≠ tinyConfig.romSize) := by decide

theorem witness_DecodeOfEncode : Instr.wf Config.standard true (.viaWrOraAlias 0xFFFFFF 0xFF) = true
    ∧ Instr.wf tinyConfig false (.romAliasRd 0x000000) = false ∧ Instr.wf tinyConfig false (.ramWr 0x000000 0xFF) = true := by decide

theorem witness_EncodeOfDecode : (decode Config.standard true { head := 0x01FFFFFF, arg0 := 0xFF, arg1 := 0 }) = .ok (.viaWrOraAlias 0xFFFFFF 0xFF) := rfl

/-- Two addresses of one register in each window, at its edges. -/
theorem witness_RegistersAreSelected : ((0xE80000 : BusAddr) >>> 9 &&& 0xF#24 = (0xFFE1FF : BusAddr) >>> 9 &&& 0xF#24
      ∧ (0xE80000 : BusAddr) &&& 0xE80000#24 = 0xE80000#24 ∧ (0xFFE1FF : BusAddr) &&& 0xE80000#24 = 0xE80000#24)
    ∧ ((0xDFE1FF : BusAddr) >>> 9 &&& 0xF#24 = (0xE001FE : BusAddr) >>> 9 &&& 0xF#24
      ∧ (0xDFE1FF ≤ (0xDFE1FF : BusAddr).toNat ∧ (0xDFE1FF : BusAddr).toNat ≤ 0xE001FE)
      ∧ 0xDFE1FF ≤ (0xE001FE : BusAddr).toNat ∧ (0xE001FE : BusAddr).toNat ≤ 0xE001FE) := by decide

/-- Also for RamWrites: the last and the first offset of RAM, bits 31:24 ignored. -/
theorem witness_RamReads : lastRam.Ready ∧ lastRam.ram.wf = true ∧ lastRam.region 0xFF01FFFF = .ram 0x1FFFF ∧ lastRam.region 0 = .ram 0 :=
  ⟨⟨rfl, rfl⟩, by decide, by decide, by decide⟩

/-- Also for the SCC rows: each sink. -/
theorem witness_RomWrites : (noop.Ready ∧ noop.cfg.debugSink = .noop) ∧ State.reset.Ready ∧ State.reset.cfg.debugSink = .interactive
    ∧ Instr.romOvlWr 0x00FFFF 0xFF ∈ [Instr.romOvlWr 0x00FFFF 0xFF, Instr.romAliasWr 0x00FFFF 0xFF] :=
  ⟨⟨⟨rfl, rfl⟩, rfl⟩, ⟨rfl, rfl⟩, rfl, by decide⟩

theorem witness_SccAccesses : (noop.Ready ∧ noop.cfg.debugSink = .noop) ∧ State.reset.Ready ∧ State.reset.cfg.debugSink = .interactive :=
  ⟨⟨⟨rfl, rfl⟩, rfl⟩, ⟨rfl, rfl⟩, rfl⟩

/-- The two clauses. -/
theorem witness_AnAnswered : (waitingRead.consumers = .quiet
      ∧ waitingRead.trapWait = some { label := .sccRead, addr := 0x900000, resume := .read .byte 0 [] })
    ∧ waitingWrite.consumers = .quiet ∧ waitingWrite.trapWait = some { label := .romWrite, addr := 0x000010, resume := .write [] } :=
  ⟨⟨rfl, rfl⟩, rfl, rfl⟩

/-- The three clauses, at the first sense index, the second, and index 0. -/
theorem witness_IwmReads : State.reset.Ready ∧ regIndex 0xDFF1FF = State.reset.cfg.iwmSenseOnes
    ∧ (regIndex 0xDFFDFF = State.reset.cfg.iwmSenseNib ∧ regIndex 0xDFFDFF ≠ State.reset.cfg.iwmSenseOnes)
    ∧ regIndex 0xE001FE ≠ State.reset.cfg.iwmSenseOnes ∧ regIndex 0xE001FE ≠ State.reset.cfg.iwmSenseNib :=
  ⟨⟨rfl, rfl⟩, by decide, by decide, by decide, by decide⟩

/-- Both outcomes of the index test. -/
theorem witness_IwmWrites : State.reset.Ready ∧ regIndex 0xE001FE ∉ State.reset.cfg.iwmKnown
    ∧ regIndex 0xDFE3FF ∈ ({ State.reset with cfg := { Config.standard with iwmKnown := [1] } } : State).cfg.iwmKnown :=
  ⟨⟨rfl, rfl⟩, by decide, by decide⟩

/-- Also for PlainViaWrites, PortA, PortB, IerWrites and SrReads: a state with every modelled source latched. -/
theorem witness_PlainViaReads : (irq 0x7F 0x07).Ready ∧ (irq 0x7F 0x07).via.Settled := ⟨⟨rfl, rfl⟩, rfl⟩

theorem witness_SrReads : (irq 0x7F 0x07).Ready ∧ (irq 0x7F 0x07).via.Settled ∧ (irq 0x7F 0x07).via.irqActive.getLsbD (irq 0x7F 0x07).cfg.ifrSr = true :=
  ⟨⟨rfl, rfl⟩, rfl, by decide⟩

theorem witness_PlainViaWrites : State.reset.Ready ∧ State.reset.via.Settled := ⟨⟨rfl, rfl⟩, rfl⟩

/-- A value equal to the cell, and one that differs with `OVERLAY_BIT` clear. -/
theorem witness_PortAWrites : State.reset.Ready ∧ State.reset.via.Settled ∧ State.reset.via.get 1 = 0x10#8
    ∧ (0x20 : Byte).getLsbD State.reset.cfg.overlayBit = false := ⟨⟨rfl, rfl⟩, rfl, rfl, rfl⟩

theorem witness_PortBWrites : State.reset.Ready ∧ State.reset.via.Settled ∧ State.reset.via.get 0 ≠ 0xFF#8 := ⟨⟨rfl, rfl⟩, rfl, by decide⟩

theorem witness_IerWrites : (irq 0x7F 0x07).Ready ∧ (irq 0x7F 0x07).via.Settled ∧ (0x80 : Byte).getLsbD 7 = true ∧ (0x7F : Byte).getLsbD 7 = false :=
  ⟨⟨rfl, rfl⟩, rfl, rfl, rfl⟩

/-- Reset with no provider at port A and a byte supplied at port B, and the other way round. -/
def ports (a : Bool) : State :=
  { State.reset with
    cfg := { Config.standard with portAFitted := a, portBFitted := !a }
    portA := { supply := [0xC3, 1], draws := 0 }, portB := { supply := [0x3C, 2], draws := 0 } }

/-- The clauses of each port; at reset both are fitted and nothing is supplied. -/
theorem witness_PortReads : (∀ a, (ports a).Ready ∧ (ports a).via.Settled) ∧ (ports false).cfg.portAFitted = false
    ∧ ((ports true).cfg.portAFitted = true ∧ (ports true).portA.supply = 0xC3 :: [1]) ∧ (ports true).cfg.portBFitted = false
    ∧ ((ports false).cfg.portBFitted = true ∧ (ports false).portB.supply = 0x3C :: [2])
    ∧ (State.reset.Ready ∧ State.reset.via.Settled ∧ State.reset.cfg.portAFitted = true ∧ State.reset.portA.supply = [])
    ∧ State.reset.cfg.portBFitted = true ∧ State.reset.portB.supply = [] :=
  ⟨fun a => ⟨⟨rfl, rfl⟩, by cases a <;> rfl⟩, rfl, ⟨rfl, rfl⟩, rfl, ⟨rfl, rfl⟩, ⟨⟨rfl, rfl⟩, rfl, rfl, rfl⟩, rfl, rfl⟩

theorem witness_IfrAndIer : (irq 0x7F 0x07).Ready ∧ (irq 0x7F 0x07).via.Settled ∧ (irq 0x7F 0x07).via.irqActive.getLsbD 7 = false :=
  ⟨⟨rfl, rfl⟩, rfl, rfl⟩

/-- The four modes; in the first a byte is pending. -/
theorem witness_SrWrites : (pending.Ready ∧ pending.via.Settled ∧ srMode pending.cfg (pending.via.get 11) = .out)
    ∧ (State.reset.Ready ∧ State.reset.via.Settled ∧ srMode State.reset.cfg (State.reset.via.get 11) = .inOrDisabled)
    ∧ (external.Ready ∧ external.via.Settled ∧ srMode external.cfg (external.via.get 11) = .inExt)
    ∧ (viaReg 11 0xFF).Ready ∧ (viaReg 11 0xFF).via.Settled ∧ srMode (viaReg 11 0xFF).cfg ((viaReg 11 0xFF).via.get 11) = .other :=
  ⟨⟨⟨rfl, rfl⟩, rfl, rfl⟩, ⟨⟨rfl, rfl⟩, rfl, rfl⟩, ⟨⟨rfl, rfl⟩, rfl, rfl⟩, ⟨rfl, rfl⟩, rfl, rfl⟩

theorem witness_DefaultShiftMode : Config.standard.srDecode = .acrBits43 := rfl

/-- The transmitting clause, and each way into the other one. -/
theorem witness_IfrWrites : (pending.Ready ∧ pending.via.Settled ∧ pending.cfg.ifrSr ≤ 6)
    ∧ ((0x04 : Byte).getLsbD pending.cfg.ifrSr = true ∧ pending.via.irqActive.getLsbD pending.cfg.ifrSr = true ∧ pending.via.shiftPending = some 0x42#8)
    ∧ (0xFB : Byte).getLsbD pending.cfg.ifrSr = false
    ∧ (State.reset.Ready ∧ State.reset.via.Settled ∧ State.reset.via.irqActive.getLsbD State.reset.cfg.ifrSr = false)
    ∧ (irq 0 0x04).Ready ∧ (irq 0 0x04).via.Settled ∧ (irq 0 0x04).via.shiftPending = none :=
  ⟨⟨⟨rfl, rfl⟩, rfl, by decide⟩, ⟨rfl, rfl, rfl⟩, rfl, ⟨⟨rfl, rfl⟩, rfl, rfl⟩, ⟨rfl, rfl⟩, rfl, rfl⟩

/-- In a trap wait. -/
theorem witness_Edges : waitingRead.consumers = .quiet ∧ waitingRead.via.Settled
    ∧ (Instr.viaEdge1, waitingRead.cfg.ifrCa1) ∈ [(Instr.viaEdge1, waitingRead.cfg.ifrCa1), (Instr.viaEdge2, waitingRead.cfg.ifrCa2)] :=
  ⟨rfl, rfl, by decide⟩

/-- The two clauses. -/
theorem witness_Received : (external.consumers = .quiet ∧ external.via.Settled ∧ srMode external.cfg (external.via.get 11) = .inExt)
    ∧ State.reset.consumers = .quiet ∧ State.reset.via.Settled ∧ srMode State.reset.cfg (State.reset.via.get 11) ≠ .inExt :=
  ⟨⟨rfl, rfl, rfl⟩, rfl, rfl, by decide⟩

/-- The two clauses: settled, and a source just latched. -/
theorem witness_Reassessment : (State.reset.consumers = .quiet ∧ State.reset.via.level = State.reset.via.irqStatus)
    ∧ ({ irq 0x01 0 with via := (irq 0x01 0).via.latch 0x01 }).consumers = .quiet
    ∧ ({ irq 0x01 0 with via := (irq 0x01 0).via.latch 0x01 }).via.level ≠ ({ irq 0x01 0 with via := (irq 0x01 0).via.latch 0x01 }).via.irqStatus :=
  ⟨⟨rfl, rfl⟩, rfl, by decide⟩

theorem witness_AQueuedByte : pending.Ready ∧ pending.via.Settled ∧ pending.cfg.ifrSr ≤ 6 ∧ srMode pending.cfg (pending.via.get 11) = .out
    ∧ (0xFF : Byte).getLsbD pending.cfg.ifrSr = true := ⟨⟨rfl, rfl⟩, rfl, by decide, rfl, rfl⟩

/-- The general clauses, by a transaction that emits one event (the consumer of the first, and of the second, re-enters), and
those of the port writes. -/
theorem witness_Reentrant : (∃ t new, (irq 0x02 0).consumers = .quiet ∧ exec .viaEdge1 (irq 0x02 0) = .next t
      ∧ t.trace = (irq 0x02 0).trace ++ new ∧ 0 < new.countP Event.isVia ∧ new.countP Event.isVia ≤ 1)
    ∧ (reentrant.trapWait = none ∧ reentrant.via.Settled ∧ reentrant.consumers = .reenterAfter 0)
    ∧ (1 : Byte) ≠ reentrant.via.get 0 ∧ (0x11 : Byte) ≠ reentrant.via.get 1 ∧ (0 : Byte) = reentrant.via.get 0 :=
  ⟨⟨_, [.irqLevel true], rfl, rfl, rfl, by decide, by decide⟩, ⟨rfl, rfl, rfl⟩, by decide, by decide, rfl⟩

/-- An edge between two bytes of one call: the first byte of a word read is IFR before it, the second IFR after it (R71, R184,
R211; line 1 is bit 1). -/
theorem test_edge_between_bytes :
    result (.rw 0xEFFBFD) { State.reset with agenda := [[.edge .one]] } = some ([.u16 0x0002], []) := by decide

/-- A word read across the end of RAM, whose second byte is unmapped (R161's example), with other agents between its bytes, and
with none. -/
theorem witness_WordReads : (∃ t0 u t1 : State, busy.Ready ∧ exec (.rb 0x01FFFF) busy = .next t0 ∧ t0.trapWait = none
      ∧ Between t0 u ∧ exec (.rb (0x01FFFF + 1)) u = .next t1 ∧ t1.trapWait = none)
    ∧ ∃ t0 u t1 : State, lastRam.Ready ∧ exec (.rb 0x01FFFF) lastRam = .next t0 ∧ t0.trapWait = none
      ∧ Between t0 u ∧ exec (.rb (0x01FFFF + 1)) u = .next t1 ∧ t1.trapWait = none :=
  ⟨⟨_, _, _, ⟨rfl, rfl⟩, rfl, rfl, ⟨_, rfl, _, rfl, rfl⟩, rfl, rfl⟩, _, _, _, ⟨rfl, rfl⟩, rfl, rfl, rfl, rfl, rfl⟩

theorem witness_LongReads : ∃ t0 u t1 : State, busy.Ready ∧ exec (.rw 0x01FFFD) busy = .next t0 ∧ t0.trapWait = none
    ∧ Between t0 u ∧ exec (.rw (0x01FFFD + 2)) u = .next t1 ∧ t1.trapWait = none :=
  ⟨_, _, _, ⟨rfl, rfl⟩, rfl, rfl, ⟨_, rfl, rfl⟩, rfl, rfl⟩

/-- The two clauses, across the end of RAM, with other agents between the bytes. -/
theorem witness_WideWrites : (∃ t0 u t1 : State, busy.Ready ∧ exec (.wb 0x01FFFF 0xAB) busy = .next t0 ∧ t0.trapWait = none
      ∧ Between t0 u ∧ exec (.wb (0x01FFFF + 1) 0xCD) u = .next t1 ∧ t1.trapWait = none)
    ∧ ∃ t0 u t1 : State, busy.Ready ∧ exec (.ww 0x01FFFD 0xDEAD) busy = .next t0 ∧ t0.trapWait = none
      ∧ Between t0 u ∧ exec (.ww (0x01FFFD + 2) 0xBEEF) u = .next t1 ∧ t1.trapWait = none :=
  ⟨⟨_, _, _, ⟨rfl, rfl⟩, rfl, rfl, ⟨_, rfl, _, rfl, rfl⟩, rfl, rfl⟩, _, _, _, ⟨rfl, rfl⟩, rfl, rfl, ⟨_, rfl, rfl⟩, rfl, rfl⟩

/-- ROM's last two bytes through the overlay, then the first two of RAM behind it. -/
theorem witness_WideReadsOfStored : atReset.Ready ∧ atReset.agenda = [] ∧ atReset.stored 0x00FFFE = some 0xFE#8
    ∧ atReset.stored (0x00FFFE + 1) = some 0xFF#8 ∧ atReset.stored (0x00FFFE + 2) = some 0#8 ∧ atReset.stored (0x00FFFE + 3) = some 0#8 :=
  ⟨⟨rfl, rfl⟩, rfl, by decide, by decide, by decide, by decide⟩

theorem witness_WideWritesToRam : lastRam.Ready ∧ lastRam.agenda = [] ∧ lastRam.ram.wf = true ∧ lastRam.region 0x01FFFC = .ram 0x1FFFC
    ∧ lastRam.region (0x01FFFC + 1) = .ram 0x1FFFD ∧ lastRam.region (0x01FFFC + 2) = .ram 0x1FFFE ∧ lastRam.region (0x01FFFC + 3) = .ram 0x1FFFF :=
  ⟨⟨rfl, rfl⟩, rfl, by decide, by decide, by decide, by decide, by decide⟩

theorem witness_SccLong : State.reset.Ready ∧ State.reset.agenda = [] ∧ State.reset.cfg.debugSink = .interactive
    ∧ ∀ k : Nat, k < 4 → State.reset.region (0x9FFFFC + BitVec.ofNat 32 k) = .sccR :=
  ⟨⟨rfl, rfl⟩, rfl, rfl, by decide⟩

/-- Also for AnsweredCallsEnd. -/
theorem witness_NoCall : State.reset.Ready ∧ (Instr.rl 0x9FFFFC).agent = .cpu := ⟨⟨rfl, rfl⟩, rfl⟩

theorem witness_TornWord : rendering.Ready ∧ rendering.ram.wf = true ∧ rendering.region 0x100 = .ram 0x100
    ∧ rendering.region (0x100 + 1) = .ram (0x100 + 1) ∧ rendering.agenda = [[.render 0, .render (0 + 1)]] ∧ rendering.cfg.fbBase + 0 = 0x100
    ∧ 0 + 1 < rendering.cfg.fbBytes ∧ 0x100 + 1 < rendering.cfg.ramSize :=
  ⟨⟨rfl, rfl⟩, by decide, by decide, by decide, rfl, rfl, by decide, by decide⟩

/-- The clauses: disarmed, the no-op sink, and armed; and a register id of the display. -/
theorem witness_Hooks : State.reset.cfg.cpuRegIds[17]? = some 17 ∧ (State.reset.Ready ∧ State.reset.singleStepArmed = false) ∧ (noop.Ready ∧ noop.cfg.debugSink = .noop)
    ∧ armed.Ready ∧ armed.singleStepArmed = true ∧ armed.cfg.debugSink = .interactive :=
  ⟨rfl, ⟨⟨rfl, rfl⟩, rfl⟩, ⟨⟨rfl, rfl⟩, rfl⟩, ⟨rfl, rfl⟩, rfl, rfl⟩

theorem witness_AnswersSet : waitingRead.consumers = .quiet ∧ waitingRead.trapWait.isSome = true := ⟨rfl, rfl⟩

theorem witness_AnswersNeed : State.reset.trapWait = none := rfl

/-- The clauses: a call, a call queued, and nothing queued. -/
theorem witness_AWaitingTrap : waitingRead.trapWait.isSome = true ∧ (Instr.ramRd 0).agent = .cpu ∧ waitingRead.queue = []
    ∧ (waitingRead.withFetchWord 32 0).trapWait.isSome = true ∧ (waitingRead.withFetchWord 32 0).queue = [.transaction (encodeRead 0)]
    ∧ decode Config.standard true (encodeRead 0) = .ok (.romOvlRd 0) ∧ (Instr.romOvlRd 0).agent = .cpu :=
  ⟨rfl, rfl, rfl, rfl, by decide, rfl, rfl⟩

/-- The clauses: a call with no trap waiting, an answer to one, a call that waits, a frame that is no transaction, no frame, an
edge of channel 3, a renderer read. -/
theorem witness_AStep : (({ State.reset with queue := [.transaction (encodeRead 0)] } : State).queue = .transaction (encodeRead 0) :: []
      ∧ decode Config.standard true (encodeRead 0) = .ok (.romOvlRd 0) ∧ State.reset.trapWait = none)
    ∧ (decode Config.standard true (encode .answerStep) = .ok .answerStep ∧ Instr.answerStep.agent ≠ .cpu)
    ∧ (waitingRead.trapWait ≠ none ∧ (Instr.romOvlRd 0).agent = .cpu)
    ∧ decode Config.standard true { head := 0x0C000000, arg0 := 0, arg1 := 0 } = .error (.unknownFormat 6)
    ∧ State.reset.queue = [] ∧ ((3 : Long) ≠ 1 ∧ (3 : Long) ≠ 2)
    ∧ ({ waitingRead with queue := [.render 0] } : State).queue = .render 0 :: [] :=
  ⟨⟨rfl, rfl, rfl⟩, ⟨rfl, by decide⟩, ⟨by decide, rfl⟩, rfl, rfl, ⟨by decide, by decide⟩, rfl⟩

theorem witness_BringUpMeets : ∃ s, bringUp tinyConfig [0x4E] = .ok s := ⟨_, rfl⟩

/-- An edge to come, with its source enabled. -/
def edgeToCome : State := { irq 0x02 0 with queue := [.transaction (encode .viaEdge1)] }

theorem witness_EveryStepKeeps : edgeToCome.Inv ∧ ∃ t, step edgeToCome = .next t ∧ t.via.irqStatus = true :=
  ⟨⟨by decide, by decide, by decide, by decide, by decide, by unfold Via.Settled; decide, (by intro h; cases h), (by intro w h; cases h), by decide⟩,
    _, rfl, by decide⟩

theorem witness_NoStepChanges : ∃ t, step (State.reset.withFetchWord 32 0x1EFE3FE) = .next t := ⟨_, rfl⟩

/-- Both clauses. -/
theorem witness_Overlay : (∃ t, step (State.reset.withFetchWord 32 0x1EFE3FE) = .next t ∧ State.reset.overlay = true ∧ t.overlay = false)
    ∧ ∃ t, step (({ viaReg 1 0x20 with overlay := false } : State).withFetchWord 32 0x1EFE3FE) = .next t ∧ t.overlay = false :=
  ⟨⟨_, rfl, rfl, rfl⟩, _, rfl, rfl⟩

theorem witness_IrqAlternate : ∃ t, step edgeToCome = .next t ∧ irqLevels t.trace = [true] := ⟨_, rfl, by decide⟩

/-- In an armed state, where a write of the flag would show. -/
theorem witness_OnlyAnswers : ∃ t, Instr.viaEdge2.agent ≠ .operator ∧ exec .viaEdge2 armed = .next t := ⟨_, by decide, rfl⟩

/-- The two clauses: an edge during a trap wait is of both; a call then is of the second. -/
theorem witness_DeviceEvents : (∃ t, Instr.viaEdge2.agent = .device ∧ exec .viaEdge2 waitingRead = .next t)
    ∧ ∃ t, (Instr.rb 0).agent ≠ .operator ∧ waitingRead.trapWait.isSome = true ∧ exec (.rb 0) waitingRead = .next t :=
  ⟨⟨_, rfl, rfl⟩, _, by decide, rfl, rfl⟩

/-- Reset, with an edge to come between two bytes of the next call. -/
def edgeBetween : State := { State.reset with agenda := [[.edge .two]] }

/-- A word read that stops at its second byte (0x8FFFFF is unmapped, 0x900000 traps), and a word write that stops at its first. -/
theorem witness_WideCallsStop : (∃ u t w, edgeBetween.Ready ∧ t.trapWait = some w
      ∧ ([0x8FFFFF, 0x8FFFFF + 1] : List Long) = [0x8FFFFF] ++ (0x8FFFFF + 1) :: [] ∧ ReadsBytes [0x8FFFFF] edgeBetween [0xFF] u
      ∧ exec (.rb (0x8FFFFF + 1)) u = .next t)
    ∧ ∃ t w, t.trapWait = some w ∧ WritesBytes [] State.reset State.reset ∧ exec (.wb 0x9FFFFF 1) State.reset = .next t :=
  ⟨⟨_, _, _, ⟨rfl, rfl⟩, rfl, rfl, ⟨_, _, _, _, rfl, rfl, rfl, rfl, ⟨_, rfl, rfl⟩, rfl, rfl⟩, rfl⟩, _, _, rfl, rfl, rfl⟩

/-- The first byte of a word read waits, and its second is at `next`; an edge is to come before that. -/
def waitingWord (next : Long) : State :=
  { edgeBetween with trapWait := some { label := .sccRead, addr := 0x900000, resume := .read .word 0 [next] } }

/-- The first byte of a word write waits, and its second is at `next`. -/
def waitingWordWrite (next : Long) : State :=
  { edgeBetween with trapWait := some { label := .sccRead, addr := 0x900000, resume := .write [(next, 7)] } }

/-- The clauses of a read: the last byte waited; the rest returns (0xA00000 is unmapped); the rest traps again. -/
theorem witness_StoppedCallsGoOn :
    (waitingRead.consumers = .quiet ∧ waitingRead.trapWait.map (·.resume) = some (.read .byte 0 []))
    ∧ (∃ v u t, (waitingWord 0xA00000).consumers = .quiet
      ∧ (waitingWord 0xA00000).trapWait.map (·.resume) = some (.read .word 0 ([] ++ 0xA00000 :: []))
      ∧ Between ((waitingWord 0xA00000).answered .step) v ∧ ReadsBytes [] v [] u ∧ exec (.rb 0xA00000) u = .next t
      ∧ t.trapWait = none ∧ t.replies = u.replies ++ [.u8 0xFF])
    ∧ ∃ v u t, (waitingWord 0x900001).consumers = .quiet
      ∧ (waitingWord 0x900001).trapWait.map (·.resume) = some (.read .word 0 ([] ++ 0x900001 :: []))
      ∧ Between ((waitingWord 0x900001).answered .step) v ∧ ReadsBytes [] v [] u ∧ exec (.rb 0x900001) u = .next t
      ∧ t.trapWait.isSome = true :=
  ⟨⟨rfl, rfl⟩, ⟨_, _, _, rfl, rfl, ⟨_, rfl, rfl⟩, ⟨rfl, rfl⟩, rfl, rfl, rfl⟩, _, _, _, rfl, rfl, ⟨_, rfl, rfl⟩, ⟨rfl, rfl⟩, rfl, rfl⟩

/-- Those of a write. -/
theorem witness_StoppedWritesGoOn :
    (waitingWrite.consumers = .quiet ∧ waitingWrite.trapWait.map (·.resume) = some (.write []))
    ∧ (∃ v u t, (waitingWordWrite 0xA00000).consumers = .quiet
      ∧ (waitingWordWrite 0xA00000).trapWait.map (·.resume) = some (.write ([] ++ (0xA00000, 7) :: []))
      ∧ Between ((waitingWordWrite 0xA00000).answered .other) v ∧ WritesBytes [] v u ∧ exec (.wb 0xA00000 7) u = .next t
      ∧ t.trapWait = none)
    ∧ ∃ v u t, (waitingWordWrite 0x900001).consumers = .quiet
      ∧ (waitingWordWrite 0x900001).trapWait.map (·.resume) = some (.write ([] ++ (0x900001, 7) :: []))
      ∧ Between ((waitingWordWrite 0x900001).answered .step) v ∧ WritesBytes [] v u ∧ exec (.wb 0x900001 7) u = .next t
      ∧ t.trapWait.isSome = true :=
  ⟨⟨rfl, rfl⟩, ⟨_, _, _, rfl, rfl, ⟨_, rfl, rfl⟩, rfl, rfl, rfl⟩, _, _, _, rfl, rfl, ⟨_, rfl, rfl⟩, rfl, rfl, rfl⟩

end Sys2Proof.Tests
end

section
/-! SUPPORT. What a step does with each kind of arrival, one equation each, and the transaction it runs. -/

namespace Sys2Proof.Machine

/-! ### A step by what arrives next -/

section Arrivals

variable {s : State} {f : Frame} {rest : List Arrival}

theorem step_of_queue_nil (hq : s.queue = []) : step s = .next s := by rw [step, hq]

theorem step_of_render {index : Nat} (hq : s.queue = .render index :: rest) :
    step s = .next (renderRead index { s with queue := rest }) := by rw [step, hq]

theorem step_of_decode_error {e : DecodeError} (hq : s.queue = .transaction f :: rest)
    (hd : decode s.cfg s.overlay f = .error e) : step s = .refused (.illFormed e) := by
  simp only [step, hq, hd]

theorem step_of_decode_ok {i : Instr} (hq : s.queue = .transaction f :: rest) (hd : decode s.cfg s.overlay f = .ok i) :
    step s = if s.trapWait.isSome ∧ i.agent = .cpu then .next s else exec i { s with queue := rest } := by
  simp only [step, hq, hd]

/-- A transaction runs if no trap waits, and in a trap wait too if it is no call of the CPU (60_exceptions.md R291). -/
theorem step_eq_exec {i : Instr} (hq : s.queue = .transaction f :: rest) (hd : decode s.cfg s.overlay f = .ok i)
    (h : s.trapWait = none ∨ i.agent ≠ .cpu) : step s = exec i { s with queue := rest } := by
  rw [step_of_decode_ok hq hd, if_neg]
  rintro ⟨hw, ha⟩
  obtain hnone | hne := h
  · simp [hnone] at hw
  · exact hne ha

/-- A call of the CPU does not start while a trap waits (43_debug.md R268). -/
theorem step_of_cpu_call_in_trap_wait {i : Instr} (hq : s.queue = .transaction f :: rest) (hd : decode s.cfg s.overlay f = .ok i)
    (hw : s.trapWait ≠ none) (ha : i.agent = .cpu) : step s = .next s := by
  rw [step_of_decode_ok hq hd, if_pos ⟨Option.isSome_iff_ne_none.mpr hw, ha⟩]

end Arrivals

/-! ### An edge of a channel that is none -/

theorem decode_encodeArg0_edge (cfg : Config) (overlay : Bool) (c : Long) :
    decode cfg overlay (encodeArg0 3 c) = decodeEdge (encodeArg0 3 c) := by
  have hformat : decode cfg overlay (encodeArg0 3 c) = whenOnlyArg0 (encodeArg0 3 c) decodeEdge := by
    simp only [decode, tag_encodeArg0]
    rfl
  rw [hformat, whenOnlyArg0_encodeArg0]

theorem decodeEdge_of_channel_ne {f : Frame} (h1 : f.arg0 ≠ 1) (h2 : f.arg0 ≠ 2) :
    decodeEdge f = .error (.edgeChannel f.arg0) := by
  unfold decodeEdge
  split
  · next h => exact absurd (BitVec.eq_of_toNat_eq h) h1
  · next h => exact absurd (BitVec.eq_of_toNat_eq h) h2
  · rfl

/-- Settles O50: each clause is the equation of `step` for one kind of arrival. -/
theorem aStepRunsTheDecodedTransaction : Obligations.AStepRunsTheDecodedTransaction := by
  unfold Obligations.AStepRunsTheDecodedTransaction
  refine ⟨fun s f fs i hq hd => ⟨step_eq_exec hq hd, step_of_cpu_call_in_trap_wait hq hd⟩,
    fun s f fs e hq hd => step_of_decode_error hq hd, fun s hq => step_of_queue_nil hq,
    fun s fs c h1 h2 hq => ?edge, fun s k fs hq => ?render⟩
  case edge =>
    exact step_of_decode_error hq ((decode_encodeArg0_edge s.cfg s.overlay c).trans (decodeEdge_of_channel_ne h1 h2))
  case render => rw [step_of_render hq, renderRead_eq]

end Sys2Proof.Machine
end

section
/-! SUPPORT. Bring-up: what it leaves, and that the machine it leaves meets the invariant. -/

namespace Sys2Proof.Machine

@[simp] theorem Via.get_init (cfg : Config) (i : RegIdx) : (Via.init cfg).get i = if i = 1 then cfg.viaOraInit else 0#8 := by
  have hone : i = 1 ↔ 1 = i.toNat := by rw [← BitVec.toNat_inj]; exact eq_comm
  simp only [Via.get, Via.init, Vector.getElem_set, Vector.getElem_replicate, hone]

theorem Via.level_init (cfg : Config) : (Via.init cfg).level = false := by
  show (0#8 &&& 0#8 &&& 0x7F#8 != 0#8) = false
  decide

theorem Memory.ofBytes_replicate_zero (n k : Nat) : Memory.ofBytes k (List.replicate n 0#8) = [] := by
  induction n generalizing k with
  | zero => rfl
  | succ n ih => rw [List.replicate_succ, Memory.ofBytes, ih, Memory.cons, if_pos rfl]

theorem Config.standard_wf : Config.standard.wf = true := by decide

theorem State.reset_via : State.reset.via = Via.init Config.standard := by decide

theorem State.reset_iwm : State.reset.iwm = Vector.replicate 16 0#8 := by decide

theorem afterBringUp_zeros (n : Nat) : State.afterBringUp Config.standard (List.replicate n 0#8) = State.reset := by
  rw [State.afterBringUp, Memory.ofBytes_replicate_zero, ← State.reset_via, ← State.reset_iwm]
  rfl

theorem bringUp_eq_ok {cfg : Config} {image : List Byte} (hcfg : cfg.wf = true) (hlen : image.length = cfg.romSize) :
    bringUp cfg image = .ok (State.afterBringUp cfg image) := by
  rw [bringUp, if_neg (by simp [hcfg]), if_pos hlen]

/-- A machine fresh from bring-up meets the invariant if its configuration is good and its image not too long. -/
theorem afterBringUp_inv {cfg : Config} {image : List Byte} (hcfg : cfg.wf = true) (hlen : image.length ≤ cfg.romSize) :
    (State.afterBringUp cfg image).Inv where
  cfgOk := hcfg
  romOk := ⟨Memory.wfFrom_ofBytes 0 image, Memory.below_ofBytes 0 image cfg.romSize (by omega)⟩
  ramOk := ⟨rfl, rfl⟩
  enableOk := BitVec.getLsbD_zero
  activeOk := BitVec.zero_and
  settled := (Via.level_init cfg).symm
  noopOk _ := ⟨rfl, rfl⟩
  waitOk _ hw := nomatch hw
  consumersOk := nofun

/-- Settles O1: the VIA and the IWM of State.reset are those of bring-up, whose cells are known for every configuration. -/
theorem resetLeavesTheValuesOfBringUp : Obligations.ResetLeavesTheValuesOfBringUp := by
  unfold Obligations.ResetLeavesTheValuesOfBringUp
  have hora : State.reset.via.get 1 = Config.standard.viaOraInit := by rw [State.reset_via, Via.get_init, if_pos rfl]
  refine ⟨fun k => Memory.read_nil k, rfl, hora, hora, fun i hi => ?cell, rfl, rfl, rfl, rfl, fun i => ?slot, rfl, rfl, rfl⟩
  case cell => rw [State.reset_via, Via.get_init, if_neg hi]
  case slot => simp only [State.reset_iwm, Vector.getElem_replicate]

/-- Settles O3: an image of zeros lists no byte. -/
theorem bringUpOfTheZeroImageIsReset : Obligations.BringUpOfTheZeroImageIsReset := by
  unfold Obligations.BringUpOfTheZeroImageIsReset
  exact (bringUp_eq_ok Config.standard_wf List.length_replicate).trans (congrArg _ (afterBringUp_zeros _))

/-- Settles O51: State.reset is the bring-up of the standard configuration with no byte listed. -/
theorem resetMeetsTheInvariant : Obligations.ResetMeetsTheInvariant := by
  unfold Obligations.ResetMeetsTheInvariant
  rw [← afterBringUp_zeros 0]
  exact afterBringUp_inv Config.standard_wf (Nat.zero_le _)

end Sys2Proof.Machine
end

section
/-! SUPPORT. A byte row is the byte call of its address, so that what a decoded transaction can do comes down to a read or a
write of some bytes, a hook, an event of another agent, or an answer. -/

namespace Sys2Proof.Machine

/-! ### The byte rows -/

theorem onThread_congr {s : State} {call call' : State → Host.Outcome State Fault Refusal} (h : call s = call' s) :
    onThread s call = onThread s call' := by
  unfold onThread
  split
  · rfl
  · exact h

theorem exec_rb (addr : Long) (s : State) :
    exec (.rb addr) s = onThread s fun s => finish (memRead .byte [addr] 0 s) := rfl

theorem exec_wb (addr : Long) (v : Byte) (s : State) :
    exec (.wb addr v) s = onThread s fun s => finish (memWrite [(addr, v)] s) := rfl

theorem exec_hook (pc : Long) (s : State) : exec (.hook pc) s = onThread s fun s =>
    if s.singleStepArmed then returnDone (trap .singleStep pc .hook s) else returnDone (true, s) := rfl

theorem finish_memRead_byte (addr : Long) (s : State) :
    finish (memRead .byte [addr] 0 s) = returnByte (byteRead addr resumeByteRead s) := by
  simp only [memRead, returnByte, resumeByteRead]
  cases (byteRead addr (.read .byte 0 []) s).1 with
  | some b => exact congrArg (fun r => finish (State.reply _ r)) (reply_byte b)
  | none => rfl

theorem finish_memWrite_byte (addr : Long) (v : Byte) (s : State) :
    finish (memWrite [(addr, v)] s) = returnDone (byteWrite addr v resumeByteWrite s) :=
  apply_ite finish _ _ _

theorem exec_viaReadRow (i : RegIdx) (a : BusAddr) (s : State) :
    exec (viaReadRow i a) s = onThread s fun s => returnByte (always (viaRead i s)) := by
  obtain ⟨⟨n, hn⟩⟩ := i
  interval_cases n <;> rfl

theorem exec_viaWriteRow (i : RegIdx) (a : BusAddr) (v : Byte) (s : State) :
    exec (viaWriteRow i a v) s = onThread s fun s => returnDone (true, viaWrite i a v s) := by
  obtain ⟨⟨n, hn⟩⟩ := i
  interval_cases n <;> rfl

/-- `read_byte` runs the row its address decodes to. -/
theorem exec_rb_eq_readRow (s : State) (addr : Long) :
    exec (.rb addr) s = exec (readRow s.cfg s.overlay (busAddr addr)) s := by
  have hcall : exec (.rb addr) s = onThread s fun s => returnByte (byteRead addr resumeByteRead s) :=
    (exec_rb addr s).trans (onThread_congr (finish_memRead_byte addr s))
  rw [hcall]
  rcases decodeRegion_cases s.cfg s.overlay (busAddr addr) with ⟨_, _, e⟩ | ⟨_, e⟩ | ⟨_, e⟩ | ⟨_, e⟩ | ⟨_, _, e⟩ |
    ⟨_, _, _, e⟩ | ⟨_, _, _, _, e⟩ | ⟨_, _, _, _, e⟩ <;> simp only [readRow, e]
  case inl => -- the IWM, whose three rows have one handler
    split_ifs <;> unfold exec <;> exact onThread_congr (by simp only [byteRead, e])
  case inr.inr.inr.inl => -- the VIA
    rw [exec_viaReadRow]
    exact onThread_congr (by simp only [byteRead, e])
  all_goals unfold exec; exact onThread_congr (by simp only [byteRead, e])

/-- `write_byte` runs the row its address decodes to. -/
theorem exec_wb_eq_writeRow (s : State) (addr : Long) (v : Byte) :
    exec (.wb addr v) s = exec (writeRow s.cfg s.overlay (busAddr addr) v) s := by
  have hcall : exec (.wb addr v) s = onThread s fun s => returnDone (byteWrite addr v resumeByteWrite s) :=
    (exec_wb addr v s).trans (onThread_congr (finish_memWrite_byte addr v s))
  rw [hcall]
  rcases decodeRegion_cases s.cfg s.overlay (busAddr addr) with ⟨_, _, e⟩ | ⟨_, e⟩ | ⟨_, e⟩ | ⟨_, e⟩ | ⟨_, _, e⟩ |
    ⟨_, _, _, e⟩ | ⟨_, _, _, _, e⟩ | ⟨_, _, _, _, e⟩ <;> simp only [writeRow, e]
  case inr.inr.inr.inl => -- the VIA
    rw [exec_viaWriteRow]
    exact onThread_congr (by simp only [byteWrite, e])
  all_goals unfold exec; exact onThread_congr (by simp only [byteWrite, e])

theorem agent_viaReadRow (i : RegIdx) (a : BusAddr) : (viaReadRow i a).agent = .cpu := by
  unfold viaReadRow
  split <;> rfl

theorem agent_viaWriteRow (i : RegIdx) (a : BusAddr) (v : Byte) : (viaWriteRow i a v).agent = .cpu := by
  unfold viaWriteRow
  split <;> rfl

/-- Every byte access is the CPU's (60_exceptions.md R291). -/
theorem agent_readRow (cfg : Config) (overlay : Bool) (a : BusAddr) : (readRow cfg overlay a).agent = .cpu := by
  unfold readRow
  split
  case h_1 => split_ifs <;> rfl
  case h_4 => exact agent_viaReadRow _ a
  all_goals rfl

theorem agent_writeRow (cfg : Config) (overlay : Bool) (a : BusAddr) (v : Byte) : (writeRow cfg overlay a v).agent = .cpu := by
  unfold writeRow
  split
  case h_4 => exact agent_viaWriteRow _ a v
  all_goals rfl

/-! ### What a decoded transaction can do -/

/-- What a transaction the decoder selects, or a renderer read, has done when it answers a next state. -/
inductive Ran (s : State) : State → Prop
  /-- A read of some bytes, to its return or into a trap. -/
  | read (hfree : s.trapWait = none) (w : Width) (addrs : List Long) (acc : Long) : Ran s (memRead w addrs acc s)
  /-- A write of some bytes, to its return or into a trap. -/
  | write (hfree : s.trapWait = none) (writes : List (Long × Byte)) : Ran s (memWrite writes s)
  /-- A hook that returned at once (43_debug.md R264, R267). -/
  | hookReturned (hfree : s.trapWait = none) : Ran s (s.reply .done)
  /-- A hook that stopped in the single-step trap (R264). -/
  | hookStopped (hfree : s.trapWait = none) (pc : Long) (hsink : s.cfg.debugSink = .interactive) :
    Ran s (trap .singleStep pc .hook s).2
  /-- An event of the device agent, or a renderer read. -/
  | event (e : AgentEvent) : Ran s (agentEvent e s)
  /-- An answer, with the rest of the call it released (R263). -/
  | answered (w : TrapWait) (hwait : s.trapWait = some w) (resp : Answer) : Ran s (resumeCall w.resume (trapReturn resp s))

/-- A transaction has run to a state, and no consumer re-entered the VIA on the way (41_via.md R216). -/
structure Completed (s t : State) : Prop where
  ran : Ran s t
  consumers : t.consumers ≠ .reentered

theorem returnDone_eq_next {r : Bool × State} {t : State} (h : returnDone r = .next t) :
    (r.1 = true ∧ t = r.2.reply .done ∨ r.1 = false ∧ t = r.2) ∧ t.consumers ≠ .reentered := by
  unfold returnDone at h
  split at h
  · next hr => obtain ⟨rfl, hc⟩ := finish_eq_next h; exact ⟨.inl ⟨hr, rfl⟩, hc⟩
  · next hr => obtain ⟨rfl, hc⟩ := finish_eq_next h; exact ⟨.inr ⟨Bool.not_eq_true _ ▸ hr, rfl⟩, hc⟩

/-- A trap that returned at once met the no-op sink and wrote nothing; one that did not met the interactive sink. -/
theorem trap_sink (label : TrapLabel) (addr : Long) (resume : Resume) (s : State) :
    trap label addr resume s = (true, s) ∨ (trap label addr resume s).1 = false ∧ s.cfg.debugSink = .interactive := by
  unfold trap
  split
  · exact .inl rfl
  · next hsink => exact .inr ⟨rfl, hsink⟩

section Calls

variable {s t : State} (hfree : s.trapWait = none)
include hfree

theorem onThread_free {call : State → Host.Outcome State Fault Refusal} : onThread s call = call s := by
  rw [onThread, hfree]

theorem completed_of_read {w : Width} {addrs : List Long} {acc : Long}
    (h : onThread s (fun s => finish (memRead w addrs acc s)) = .next t) : Completed s t := by
  rw [onThread_free hfree] at h
  obtain ⟨rfl, hc⟩ := finish_eq_next h
  exact ⟨.read hfree w addrs acc, hc⟩

theorem completed_of_write {writes : List (Long × Byte)}
    (h : onThread s (fun s => finish (memWrite writes s)) = .next t) : Completed s t := by
  rw [onThread_free hfree] at h
  obtain ⟨rfl, hc⟩ := finish_eq_next h
  exact ⟨.write hfree writes, hc⟩

theorem completed_of_hook {pc : Long} (h : exec (.hook pc) s = .next t) : Completed s t := by
  rw [exec_hook, onThread_free hfree] at h
  split_ifs at h
  · obtain ⟨ht, hc⟩ := returnDone_eq_next h
    refine ⟨?_, hc⟩
    obtain hnoop | ⟨hstop, hsink⟩ := trap_sink .singleStep pc .hook s
    · simp only [hnoop, true_and, Bool.true_eq_false, false_and, or_false] at ht
      exact ht ▸ .hookReturned hfree
    · simp only [hstop, true_and, Bool.false_eq_true, false_and, false_or] at ht
      exact ht ▸ .hookStopped hfree pc hsink
  · obtain ⟨rfl, hc⟩ := finish_eq_next h
    exact ⟨.hookReturned hfree, hc⟩

end Calls

theorem completed_of_event {s t : State} (e : AgentEvent) (h : finish (agentEvent e s) = .next t) :
    Completed s t := by
  obtain ⟨rfl, hc⟩ := finish_eq_next h
  exact ⟨.event e, hc⟩

theorem completed_of_answer {s t : State} {resp : Answer} (h : answer resp s = .next t) : Completed s t := by
  unfold answer at h
  split at h
  · cases h
  · next w hw =>
    obtain ⟨rfl, hc⟩ := finish_eq_next h
    exact ⟨.answered w hw resp, hc⟩

theorem completed_of_readRow {s t : State} (hfree : s.trapWait = none) {a : BusAddr}
    (h : exec (readRow s.cfg s.overlay a) s = .next t) : Completed s t := by
  have hrow := exec_rb_eq_readRow s (a.setWidth 32)
  rw [busAddr_setWidth, h] at hrow
  exact completed_of_read hfree hrow

theorem completed_of_writeRow {s t : State} (hfree : s.trapWait = none) {a : BusAddr} {v : Byte}
    (h : exec (writeRow s.cfg s.overlay a v) s = .next t) : Completed s t := by
  have hrow := exec_wb_eq_writeRow s (a.setWidth 32) v
  rw [busAddr_setWidth, h] at hrow
  exact completed_of_write hfree hrow

section Decoded

variable {s t : State} {f : Frame} {i : Instr} (h : exec i s = .next t)
include h

theorem completed_of_decodeEdge (hd : decodeEdge f = .ok i) : Completed s t := by
  unfold decodeEdge at hd
  split at hd <;> cases hd
  · exact completed_of_event (.edge .one) h
  · exact completed_of_event (.edge .two) h

theorem completed_of_decodeRxsr (hd : decodeRxsr f = .ok i) : Completed s t := by
  unfold decodeRxsr at hd
  dsimp only at hd
  split_ifs at hd
  cases hd
  exact completed_of_event (.rxsr _) h

theorem completed_of_decodeAnswer (hd : decodeAnswer f = .ok i) : Completed s t := by
  unfold decodeAnswer at hd
  split at hd <;> cases hd
  · exact completed_of_answer (resp := .step) h
  · exact completed_of_answer (resp := .other) h

variable (hstart : s.trapWait = none ∨ i.agent ≠ .cpu)
include hstart

theorem completed_of_decodeByte (hd : decodeByte s.cfg s.overlay f = .ok i) : Completed s t := by
  unfold decodeByte at hd
  dsimp only at hd
  split_ifs at hd <;> cases hd
  · exact completed_of_writeRow (hstart.resolve_right (not_not_intro (agent_writeRow ..))) h
  · exact completed_of_readRow (hstart.resolve_right (not_not_intro (agent_readRow ..))) h

theorem completed_of_decodeMem (hd : decodeMem f = .ok i) : Completed s t := by
  unfold decodeMem at hd
  dsimp only at hd
  split at hd
  case h_1 | h_2 | h_3 => split_ifs at hd; cases hd; exact completed_of_read (hstart.resolve_right (not_not_intro rfl)) h
  case h_4 | h_5 => split_ifs at hd; cases hd; exact completed_of_write (hstart.resolve_right (not_not_intro rfl)) h
  case h_6 => cases hd; exact completed_of_write (hstart.resolve_right (not_not_intro rfl)) h
  case h_7 => cases hd

theorem completed_of_decode (hd : decode s.cfg s.overlay f = .ok i) : Completed s t := by
  unfold decode whenOnlyArg0 at hd
  split at hd
  case h_1 => exact completed_of_decodeByte h hstart hd
  case h_2 => exact completed_of_decodeMem h hstart hd
  case h_3 => split_ifs at hd; cases hd; exact completed_of_hook (hstart.resolve_right (not_not_intro rfl)) h
  case h_4 => split_ifs at hd; exact completed_of_decodeEdge h hd
  case h_5 => split_ifs at hd; exact completed_of_decodeRxsr h hd
  case h_6 => split_ifs at hd; exact completed_of_decodeAnswer h hd
  case h_7 => cases hd

end Decoded

theorem renderRead_consumers (index : Nat) (s : State) : (renderRead index s).consumers = s.consumers := by
  rw [renderRead_eq]

/-- A step that answers a next state left everything as it was, or took the head of the queue and ran it. -/
theorem step_ran {s t : State} (h : step s = .next t) :
    t = s ∨ ∃ rest, Ran { s with queue := rest } t ∧ (s.consumers ≠ .reentered → t.consumers ≠ .reentered) := by
  obtain rfl | ⟨index, rest, -, rfl⟩ | ⟨f, rest, i, -, hd, hstart, hexec⟩ := step_cases h
  · exact .inl rfl
  · exact .inr ⟨rest, .event (.render index), fun hc => by rwa [renderRead_consumers]⟩
  · have hdone := completed_of_decode (s := { s with queue := rest }) hexec hstart hd
    exact .inr ⟨rest, hdone.ran, fun _ => hdone.consumers⟩

end Sys2Proof.Machine
end

section
/-! SUPPORT. What every step keeps: the invariant, ROM, the configuration and the unused cells, and the one way of the overlay. -/

namespace Sys2Proof.Machine

/-! ### The invariant -/

theorem reassess_overlay (s : State) : (reassess s).overlay = s.overlay := by
  unfold reassess
  split <;> rfl

theorem receiveShiftByte_overlay (b : Byte) (s : State) : (receiveShiftByte b s).overlay = s.overlay := by
  unfold receiveShiftByte
  split
  · exact reassess_overlay _
  · rfl

/-- Only a port-A write remaps (40_bus.md R155). -/
theorem agentEvent_overlay (e : AgentEvent) (s : State) : (agentEvent e s).overlay = s.overlay := by
  cases e with
  | edge line => exact reassess_overlay _
  | rxsr b => exact receiveShiftByte_overlay b s
  | render index => rw [agentEvent, renderRead_eq]

theorem State.WaitOk.congr {s t : State} {w : TrapWait} (h : s.WaitOk w) (hcfg : t.cfg = s.cfg) (hov : t.overlay = s.overlay) :
    t.WaitOk w := by
  have hregion : t.region w.addr = s.region w.addr := by rw [State.region, hcfg, hov]; rfl
  unfold State.WaitOk at h ⊢
  rwa [hregion]

theorem State.Inv.sound {s : State} (h : s.Inv) : s.Sound :=
  ⟨h.cfgOk, h.romOk, h.ramOk, h.enableOk, h.activeOk, fun hn => (h.noopOk hn).2⟩

/-- A waiting trap met the interactive sink. -/
theorem State.Inv.interactive {s : State} (h : s.Inv) {w : TrapWait} (hw : s.trapWait = some w) :
    s.cfg.debugSink = .interactive := by
  cases hsink : s.cfg.debugSink with
  | interactive => rfl
  | noop => exact absurd ((h.noopOk hsink).1.symm.trans hw) nofun

theorem State.Sound.inv {s : State} (h : s.Sound) (hset : s.via.Settled)
    (hwait : ∀ w, s.trapWait = some w → s.cfg.debugSink = .interactive ∧ s.WaitOk w) (hc : s.consumers ≠ .reentered) : s.Inv where
  cfgOk := h.cfgOk
  romOk := h.romOk
  ramOk := h.ramOk
  enableOk := h.enableOk
  activeOk := h.activeOk
  settled := hset
  noopOk hn := by
    refine ⟨Option.eq_none_iff_forall_ne_some.mpr fun w hw => ?_, h.noopOk hn⟩
    rw [(hwait w hw).1] at hn
    cases hn
  waitOk w hw := (hwait w hw).2
  consumersOk := hc

/-- The invariant after a call that has run, to its return or into a trap. -/
theorem CallOutcome.inv {s t : State} (h : CallOutcome s t) (hcfg : t.cfg = s.cfg) (hc : t.consumers ≠ .reentered) : t.Inv := by
  refine h.sound.inv h.settled (fun w hw => ?_) hc
  obtain hnone | ⟨hsink, w', hw', hok⟩ := h.wait
  · rw [hnone] at hw; cases hw
  · rw [hw'] at hw; cases hw; exact ⟨hcfg ▸ hsink, hok⟩

/-- The invariant after an operation that leaves a trap wait as it is, and what the region of the wait rests on. -/
theorem Keeps.inv {s t : State} (h : Keeps s t) (hs : s.Inv) (hcfg : t.cfg = s.cfg) (hov : t.overlay = s.overlay)
    (hc : t.consumers ≠ .reentered) : t.Inv := by
  refine (h.sound hs.sound).inv (h.settled hs.settled) (fun w hw => ?_) hc
  have hw := h.trapWait.symm.trans hw
  exact ⟨hcfg ▸ hs.interactive hw, (hs.waitOk w hw).congr hcfg hov⟩

/-- The trap of a hook: its wait holds the hook (43_debug.md R264). -/
theorem hook_trap_outcome {s : State} (hs : s.Inv) (pc : Long) (hsink : s.cfg.debugSink = .interactive) :
    CallOutcome s (trap .singleStep pc .hook s).2 := by
  unfold trap
  rw [hsink]
  exact ⟨⟨hs.cfgOk, hs.romOk, hs.ramOk, hs.enableOk, hs.activeOk, hs.sound.noopOk⟩, hs.settled, .inr ⟨hsink, _, rfl, rfl⟩⟩

theorem trapReturn_eq (resp : Answer) (s : State) : trapReturn resp s = s.answered resp := by cases resp <;> rfl

/-- The call an answer releases runs from a sound state: only under the interactive sink is there a trap to answer. -/
theorem answered_outcome {s : State} (hs : s.Inv) {w : TrapWait} (hw : s.trapWait = some w) (resp : Answer) :
    CallOutcome (s.answered resp) (resumeCall w.resume (s.answered resp)) := by
  have hnoop : ¬ s.cfg.debugSink = .noop := by rw [hs.interactive hw]; nofun
  have hsound : (s.answered resp).Sound :=
    ⟨hs.cfgOk, hs.romOk, hs.ramOk, hs.enableOk, hs.activeOk, fun hn => absurd hn hnoop⟩
  exact resumeCall_outcome w.resume hsound hs.settled rfl

theorem Ran.inv {s t : State} (h : Ran s t) (hs : s.Inv) (hc : t.consumers ≠ .reentered) : t.Inv := by
  cases h with
  | read hfree w addrs acc =>
    exact (memRead_outcome w addrs acc hs.sound hs.settled hfree).inv (evolves_memRead w addrs acc s).cfg hc
  | write hfree writes => exact (memWrite_outcome writes hs.sound hs.settled hfree).inv (evolves_memWrite writes s).cfg hc
  | hookReturned =>
    have hk : Keeps s (s.reply .done) := .of_fields rfl rfl rfl rfl rfl rfl rfl rfl
    exact hk.inv hs rfl rfl hc
  | hookStopped _ pc hsink => exact (hook_trap_outcome hs pc hsink).inv (evolves_trap _ _ _ s).cfg hc
  | event e => exact (keeps_agentEvents [e] s).inv hs (evolves_agentEvent e s).cfg (agentEvent_overlay e s) hc
  | answered w hw resp =>
    rw [trapReturn_eq] at hc ⊢
    exact (answered_outcome hs hw resp).inv (evolves_resumeCall _ _).cfg hc

/-- Settles O53: what a step runs keeps the invariant, case by case. -/
theorem everyStepKeepsTheInvariant : Obligations.EveryStepKeepsTheInvariant := by
  unfold Obligations.EveryStepKeepsTheInvariant
  intro s t hs h
  obtain rfl | ⟨rest, hran, hc⟩ := step_ran h
  · exact hs
  · have hk : Keeps s { s with queue := rest } := .of_fields rfl rfl rfl rfl rfl rfl rfl rfl
    exact hran.inv (hk.inv hs rfl rfl hs.consumersOk) (hc hs.consumersOk)

/-! ### How the state evolves -/

theorem Ran.evolves {s t : State} (h : Ran s t) : Evolves s t ∨ ∃ resp, Evolves (s.answered resp) t := by
  cases h with
  | read _ w addrs acc => exact .inl (evolves_memRead w addrs acc s)
  | write _ writes => exact .inl (evolves_memWrite writes s)
  | hookReturned => exact .inl (evolves_reply .done s)
  | hookStopped _ pc => exact .inl (evolves_trap .singleStep pc .hook s)
  | event e => exact .inl (evolves_agentEvent e s)
  | answered w _ resp => exact .inr ⟨resp, trapReturn_eq resp s ▸ evolves_resumeCall w.resume _⟩

/-- A step first takes an arrival from the queue and, if that is an answer, ends the wait; then it evolves as every operation
of the block does. -/
theorem step_evolves {s t : State} (h : step s = .next t) : ∃ queue armed wait replies,
    Evolves { s with queue := queue, singleStepArmed := armed, trapWait := wait, replies := replies } t := by
  obtain rfl | ⟨rest, hran, -⟩ := step_ran h
  · exact ⟨_, _, _, _, .refl t⟩
  · obtain he | ⟨resp, he⟩ := hran.evolves
    · exact ⟨_, _, _, _, he⟩
    · exact ⟨_, _, _, _, he⟩

/-- Settles O54: no operation of the block writes these. -/
theorem noStepChangesRomConfigOrUnusedCells : Obligations.NoStepChangesRomConfigOrUnusedCells := by
  unfold Obligations.NoStepChangesRomConfigOrUnusedCells
  intro s t h
  obtain ⟨_, _, _, _, he⟩ := step_evolves h
  have hunused : ∀ i ∈ [(13 : RegIdx), 14, 15], 13 ≤ i.toNat := by decide
  exact ⟨he.rom, he.cfg, fun i hi => he.unused i (hunused i hi)⟩

/-- Settles O55: no operation sets the overlay, and the events of one that clears it explain it. -/
theorem theOverlayIsOneWay : Obligations.TheOverlayIsOneWay := by
  unfold Obligations.TheOverlayIsOneWay
  intro s t h
  obtain ⟨_, _, _, _, he⟩ := step_evolves h
  obtain ⟨new, htrace, hexplains, -⟩ := he.trace
  exact ⟨he.overlay, new, htrace, hexplains⟩

end Sys2Proof.Machine
end

section
/-! SUPPORT. While a trap waits the emulation thread stands still. -/

namespace Sys2Proof.Machine

/-- A machine whose step changes nothing stays as it is for any number of steps. -/
theorem run_of_step_self {M : Host.Core} {s : M.State} (h : M.step s = .next s) (n : Nat) : M.run n s = .next s := by
  induction n with
  | zero => rfl
  | succ n ih => rw [Host.Core.run, h]; exact ih

/-- Settles O49: a call that finds a trap waiting does not start, and the step that meets it leaves it in the queue. -/
theorem aWaitingTrapStopsTheThread : Obligations.AWaitingTrapStopsTheThread := by
  unfold Obligations.AWaitingTrapStopsTheThread
  intro s w hw
  refine ⟨fun i hcpu => ?call, fun f fs i hq hd hcpu => run_of_step_self (M := Sys2Proof.core) ?first,
    fun hq => run_of_step_self (M := Sys2Proof.core) (step_of_queue_nil hq)⟩
  case call =>
    obtain ⟨call, hcall⟩ := exec_cpu i hcpu
    rw [hcall, onThread_blocked hw]
  case first => exact step_of_cpu_call_in_trap_wait hq hd (by rw [hw]; nofun) hcpu

end Sys2Proof.Machine
end

section
/-! SUPPORT. What the region decoder's answer says about the address, and the fixed windows of 20_memory.md R64. -/

namespace Sys2Proof

/-- The addresses the decoder may send to a region, read off the four fixed windows alone (20_memory.md R64). -/
def Region.Admits : Region → BusAddr → Prop
  | .iwm _, a => 0xDFE1FF ≤ a.toNat ∧ a.toNat ≤ 0xE001FE
  | .sccR, a => a &&& 0xF00000#24 = 0x900000#24
  | .sccW, a => a &&& 0xF00000#24 = 0xB00000#24
  | .via _, a => a &&& 0xE80000#24 = 0xE80000#24
  | .romOvl _, a => NoWindow a
  | .romAlias _, a => NoWindow a
  | .ram _, a => NoWindow a
  | .unmapped, a => NoWindow a

/-- A fixed window is answered inside it only, and a parameter window outside all four of them. -/
theorem admits_of_decodeRegion_eq {cfg : Config} {overlay : Bool} {a : BusAddr} {r : Region}
    (h : decodeRegion cfg overlay a = r) : r.Admits a := by
  subst h
  rcases decodeRegion_cases cfg overlay a with ⟨hlo, hhi, e⟩ | ⟨hmask, e⟩ | ⟨hmask, e⟩ | ⟨hmask, e⟩ |
    ⟨hno, _, e⟩ | ⟨hno, _, _, e⟩ | ⟨hno, _, _, _, e⟩ | ⟨hno, _, _, _, e⟩ <;> rw [e]
  case inl => exact ⟨hlo, hhi⟩
  case inr.inl | inr.inr.inl | inr.inr.inr.inl => exact hmask
  all_goals exact hno

/-- Settles O8: a window's test decides the decoder's answer, because the windows before it exclude the test. -/
theorem fixedWindowsAreTheStatedRangesAndDisjoint : Obligations.FixedWindowsAreTheStatedRangesAndDisjoint := by
  unfold Obligations.FixedWindowsAreTheStatedRangesAndDisjoint
  intro cfg overlay a
  refine ⟨sccR_iff a, sccW_iff a, via_iff a, ⟨?_, fun h => ⟨_, decodeRegion_iwm cfg overlay a h⟩⟩,
    ⟨admits_of_decodeRegion_eq, decodeRegion_sccR cfg overlay a⟩,
    ⟨admits_of_decodeRegion_eq, decodeRegion_sccW cfg overlay a⟩,
    ⟨?_, fun h => ⟨_, decodeRegion_via cfg overlay a h⟩⟩⟩
  · rintro ⟨i, hi⟩
    exact admits_of_decodeRegion_eq hi
  · rintro ⟨i, hi⟩
    exact admits_of_decodeRegion_eq hi

end Sys2Proof
end

section
/-! SUPPORT. Reads of stored bytes: bytes that resolve to ROM or RAM are read without changing the state. -/

namespace Sys2Proof.Machine

theorem exec_rw (addr : Long) (s : State) :
    exec (.rw addr) s = onThread s fun s => finish (memRead .word [addr, addr + 1] 0 s) := rfl

theorem exec_rl (addr : Long) (s : State) :
    exec (.rl addr) s = onThread s fun s => finish (memRead .long [addr, addr + 1, addr + 2, addr + 3] 0 s) := rfl

variable {s : State}

/-- A byte in ROM or RAM is read as it is stored, with no effect (40_bus.md R145, R146, R148). -/
theorem byteRead_of_stored {addr : Long} {b : Byte} (h : s.stored addr = some b) (resume : Resume) :
    byteRead addr resume s = (some b, s) := by
  unfold State.stored State.region at h
  unfold byteRead
  dsimp only
  cases hr : decodeRegion s.cfg s.overlay (busAddr addr) <;> rw [hr] at h <;> cases h <;> rfl

theorem readSeq_of_stored {as : List Long} {bs : List Byte} (h : List.Forall₂ (fun a b => s.stored a = some b) as bs) :
    readSeq as s = some (bs, s) := by
  induction h with
  | nil => rfl
  | cons hb _ ih => simp only [readSeq, byteRead_of_stored hb, ih, Option.map_some]

/-- A read of stored bytes, when no event of another agent is due, only records its value. -/
theorem read_of_stored (hready : s.Ready) (hagenda : s.agenda = []) (w : Width) {as : List Long} {bs : List Byte}
    (h : List.Forall₂ (fun a b => s.stored a = some b) as bs) :
    onThread s (fun s => finish (memRead w as 0 s)) =
      .next { s with replies := s.replies ++ [w.reply (bs.foldl shiftIn 0)] } := by
  have hread : memRead w as 0 s = s.reply (w.reply (bs.foldl shiftIn 0)) := by
    have hseq := memRead_of_nil w as 0 hagenda
    rw [readSeq_of_stored h] at hseq
    exact hseq.1
  rw [onThread_of_ready hready, hread]
  exact finish_of_quiet hready.2

/-- Settles O40: the bytes are read in ascending order, each shifted in below those before it. -/
theorem wideReadsOfStoredBytesAreBigEndian : Obligations.WideReadsOfStoredBytesAreBigEndian := by
  unfold Obligations.WideReadsOfStoredBytesAreBigEndian
  intro s addr b0 b1 hready hagenda h0 h1
  refine ⟨?word, fun b2 b3 h2 h3 => ?long⟩
  case word =>
    rw [exec_rw, read_of_stored hready hagenda .word (.cons h0 (.cons h1 .nil)), ← reply_word]
    rfl
  case long =>
    rw [exec_rl, read_of_stored hready hagenda .long (.cons h0 (.cons h1 (.cons h2 (.cons h3 .nil)))), ← reply_long]
    rfl

end Sys2Proof.Machine
end

section
/-! SUPPORT. Writes of bytes in RAM, and what the renderer sees of the framebuffer between two of them. -/

namespace Sys2Proof.Machine

theorem exec_ww (addr : Long) (v : Half) (s : State) :
    exec (.ww addr v) s = onThread s fun s => finish (memWrite (byteWrites16 addr v) s) := rfl

variable {s : State}

/-- A byte written in RAM is complete at once (40_bus.md R147). -/
theorem byteWrite_of_ram {addr : Long} {k : Nat} (h : s.region addr = .ram k) (v : Byte) (resume : Resume) :
    byteWrite addr v resume s = (true, ramWrite k v s) := by
  unfold State.region at h
  simp only [byteWrite, h]

/-- A write whose first byte lies in RAM stores it and goes on with the others. -/
theorem memWrite_of_ram {addr : Long} {k : Nat} (h : s.region addr = .ram k) (v : Byte) (rest : List (Long × Byte)) :
    memWrite ((addr, v) :: rest) s = memWrite rest (boundary (!rest.isEmpty) (ramWrite k v s)) := by
  simp only [memWrite, byteWrite_of_ram h, if_true]

/-- A boundary at which the renderer reads two adjacent bytes records both and uses the agenda's entry up. -/
theorem boundary_of_two_renders {i : Nat} {later : List (List AgentEvent)}
    (hagenda : s.agenda = [.render i, .render (i + 1)] :: later)
    (hfb : i + 1 < s.cfg.fbBytes) (hram : s.cfg.fbBase + (i + 1) < s.cfg.ramSize) :
    boundary true s = { s with
      agenda := later
      trace := s.trace ++ [.rendered i (s.ram.read (s.cfg.fbBase + i)),
        .rendered (i + 1) (s.ram.read (s.cfg.fbBase + (i + 1)))] } := by
  have hfb' : i < s.cfg.fbBytes := Nat.lt_of_succ_lt hfb
  have hram' : s.cfg.fbBase + i < s.cfg.ramSize := Nat.lt_of_succ_lt hram
  simp [boundary, hagenda, agentEvents, agentEvent, renderRead_eq, hfb, hfb', hram, hram']

/-- The state between the two byte writes of a word in the framebuffer, when the renderer reads both bytes there: it has
the new high byte and still the old low byte. -/
theorem boundary_of_torn_word {k i : Nat} (hi : Byte) (hwf : s.ram.wf = true)
    (hagenda : s.agenda = [[.render i, .render (i + 1)]]) (hk : s.cfg.fbBase + i = k)
    (hfb : i + 1 < s.cfg.fbBytes) (hram : k + 1 < s.cfg.ramSize) :
    boundary true (ramWrite k hi s) = { s with
      ram := s.ram.write k hi, agenda := []
      trace := s.trace ++ [.rendered i hi, .rendered (i + 1) (s.ram.read (k + 1))] } := by
  subst hk
  rw [boundary_of_two_renders (s := ramWrite (s.cfg.fbBase + i) hi s) hagenda hfb hram]
  simp [ramWrite, Memory.read_write hwf, Nat.add_assoc]

/-- Settles O45: the renderer's two reads fall between the two byte writes. -/
theorem theRendererMaySeeATornWord : Obligations.TheRendererMaySeeATornWord := by
  unfold Obligations.TheRendererMaySeeATornWord
  intro s addr k i hi lo hready hwf h0 h1 hagenda hk hfb hram
  have hstored : (s.ram.write k hi).wf = true := Memory.wf_write hwf k hi
  have hexec : exec (.ww addr (hi ++ lo)) s = .next (State.reply
      { s with
        ram := (s.ram.write k hi).write (k + 1) lo, agenda := []
        trace := s.trace ++ [.rendered i hi, .rendered (i + 1) (s.ram.read (k + 1))] } .done) := by
    rw [exec_ww, byteWrites16_append, onThread_of_ready hready, memWrite_of_ram h0, List.isEmpty_cons, Bool.not_false,
      boundary_of_torn_word hi hwf hagenda hk hfb hram]
    refine (congrArg finish (memWrite_of_ram ?_ lo [])).trans (finish_of_quiet hready.2)
    exact h1 -- a region depends on the configuration and the overlay only
  refine ⟨_, hexec, rfl, ?_, ?_⟩
  · simp [Memory.read_write hstored, Memory.read_write hwf]
  · simp [Memory.read_write hstored]

end Sys2Proof.Machine
end

section
/-! SUPPORT. The decoder and the encoder are inverse to each other on the well-formed transactions, so a decode word selects
exactly one row (30_encoding.md R108). -/

namespace Sys2Proof

@[simp] theorem arg0_encodeMem (op : BitVec 25) (addr data : Long) : (encodeMem op addr data).arg0 = addr := rfl

@[simp] theorem arg1_encodeMem (op : BitVec 25) (addr data : Long) : (encodeMem op addr data).arg1 = data := rfl

@[simp] theorem arg0_encodeArg0 (t : BitVec 7) (x : Long) : (encodeArg0 t x).arg0 = x := rfl

/-! ### Decoding the frame of a well-formed transaction -/

section DecodeEncode

variable {cfg : Config} {overlay : Bool} {a : BusAddr} {v : Byte} {i : Instr}

/-- A read comes back when its address selects its row. -/
theorem decode_encode_of_readRow_eq (hframe : encode i = encodeRead a) (hrow : readRow cfg overlay a = i) :
    decode cfg overlay (encode i) = .ok i := by
  rw [hframe, decode_encodeRead, hrow]

theorem decode_encode_of_writeRow_eq (hframe : encode i = encodeWrite a v) (hrow : writeRow cfg overlay a v = i) :
    decode cfg overlay (encode i) = .ok i := by
  rw [hframe, decode_encodeWrite, hrow]

/-- A read of an IWM address is told from the others by the two sense indices (42_iwm.md R241). -/
theorem readRow_of_iwmRow (h : a.iwmRow = true) : readRow cfg overlay a =
    if a.iwmRowIdx = cfg.iwmSenseOnes then .iwmRdSenseOnes a
    else if a.iwmRowIdx = cfg.iwmSenseNib then .iwmRdSenseNib a
    else .iwmRd a := by
  simp only [readRow, decodeRegion_of_iwmRow cfg overlay h, iwmRowIdx_eq]

theorem readRow_of_viaRow {k : RegIdx} (h : a.viaRow k = true) : readRow cfg overlay a = viaReadRow k a := by
  simp only [readRow, decodeRegion_of_viaRow cfg overlay h]

theorem writeRow_of_viaRow {k : RegIdx} (h : a.viaRow k = true) : writeRow cfg overlay a v = viaWriteRow k a v := by
  simp only [writeRow, decodeRegion_of_viaRow cfg overlay h]

end DecodeEncode

/-- Settles O4, row by row: a BYTE row's condition fixes the region of its address, and the region fixes the row. -/
theorem decodeOfEncodeIsTheTransaction : Obligations.DecodeOfEncodeIsTheTransaction := by
  unfold Obligations.DecodeOfEncodeIsTheTransaction
  intro cfg overlay i hwf
  cases i
  case rb | rw | rl | wb | ww | wl => simp [encode, decode_encodeMem, decodeMem]
  case iwmRdSenseOnes a =>
    simp only [Instr.wf, Bool.and_eq_true, beq_iff_eq] at hwf
    obtain ⟨hrow, hones⟩ := hwf
    exact decode_encode_of_readRow_eq rfl ((readRow_of_iwmRow hrow).trans (if_pos hones))
  case iwmRdSenseNib a =>
    simp only [Instr.wf, Bool.and_eq_true, beq_iff_eq, bne_iff_ne] at hwf
    obtain ⟨⟨hrow, hnib⟩, hones⟩ := hwf
    exact decode_encode_of_readRow_eq rfl ((readRow_of_iwmRow hrow).trans ((if_neg hones).trans (if_pos hnib)))
  case iwmRd a =>
    simp only [Instr.wf, Bool.and_eq_true, bne_iff_ne] at hwf
    obtain ⟨⟨hrow, hones⟩, hnib⟩ := hwf
    exact decode_encode_of_readRow_eq rfl ((readRow_of_iwmRow hrow).trans ((if_neg hones).trans (if_neg hnib)))
  case iwmWr a v => simp only [encode, decode_encodeWrite, writeRow, decodeRegion_of_iwmRow cfg overlay hwf]
  case sccRRd a => simp only [encode, decode_encodeRead, readRow, decodeRegion_sccR cfg overlay a (eq_of_beq hwf)]
  case sccRWr a v => simp only [encode, decode_encodeWrite, writeRow, decodeRegion_sccR cfg overlay a (eq_of_beq hwf)]
  case sccWRd a => simp only [encode, decode_encodeRead, readRow, decodeRegion_sccW cfg overlay a (eq_of_beq hwf)]
  case sccWWr a v => simp only [encode, decode_encodeWrite, writeRow, decodeRegion_sccW cfg overlay a (eq_of_beq hwf)]
  case viaRdOrb | viaRdOra | viaRdDdrb | viaRdDdra | viaRdT1cl | viaRdT1ch | viaRdT1ll | viaRdT1lh | viaRdT2cl | viaRdT2ch
      | viaRdSr | viaRdAcr | viaRdPcr | viaRdIfr | viaRdIer | viaRdOraAlias =>
    exact decode_encode_of_readRow_eq rfl (readRow_of_viaRow hwf)
  case viaWrOrb | viaWrOra | viaWrDdrb | viaWrDdra | viaWrT1cl | viaWrT1ch | viaWrT1ll | viaWrT1lh | viaWrT2cl | viaWrT2ch
      | viaWrSr | viaWrAcr | viaWrPcr | viaWrIfr | viaWrIer | viaWrOraAlias =>
    exact decode_encode_of_writeRow_eq rfl (writeRow_of_viaRow hwf)
  case romOvlRd a => simp only [encode, decode_encodeRead, readRow, decodeRegion_of_romOvlRow hwf]
  case romOvlWr a v => simp only [encode, decode_encodeWrite, writeRow, decodeRegion_of_romOvlRow hwf]
  case romAliasRd a => simp only [encode, decode_encodeRead, readRow, decodeRegion_of_romAliasRow hwf]
  case romAliasWr a v => simp only [encode, decode_encodeWrite, writeRow, decodeRegion_of_romAliasRow hwf]
  case ramRd a => simp only [encode, decode_encodeRead, readRow, decodeRegion_of_ramRow hwf]
  case ramWr a v => simp only [encode, decode_encodeWrite, writeRow, decodeRegion_of_ramRow hwf]
  case unmappedRd a => simp only [encode, decode_encodeRead, readRow, decodeRegion_of_unmappedRow hwf]
  case unmappedWr a v => simp only [encode, decode_encodeWrite, writeRow, decodeRegion_of_unmappedRow hwf]
  case hook => simp [encode, decode, whenOnlyArg0_encodeArg0]
  case viaEdge1 | viaEdge2 => simp [encode, decode, whenOnlyArg0_encodeArg0, decodeEdge]
  case viaRxsr => simp [encode, decode, whenOnlyArg0_encodeArg0, decodeRxsr]
  case answerStep | answerOther => simp [encode, decode, whenOnlyArg0_encodeArg0, decodeAnswer]

/-! ### Encoding a decoded frame -/

section EncodeDecode

variable {cfg : Config} {overlay : Bool} {f : Frame} {i : Instr}

/-- A frame is its format, the rest of its head, and its two words. -/
theorem frame_of_tag {t : Nat} (htag : f.tag.toNat = t) : ⟨BitVec.ofNat 7 t ++ f.low, f.arg0, f.arg1⟩ = f := by
  rw [← (BitVec.toNat_eq_nat.mp htag).2, ← head_eq]

/-- A BYTE frame decodes to the row its address selects: the decode word is a write's or a read's (R101). -/
theorem encode_of_decodeByte (h : decodeByte cfg overlay f = .ok i) :
    encode i = ⟨0#7 ++ f.low, f.arg0, f.arg1⟩ ∧ i.wf cfg overlay = true := by
  have hword := decodeWord_eta f.low
  unfold decodeByte at h
  dsimp only at h
  split at h
  case isTrue hwrite =>
    split_ifs at h with hargs
    cases h
    obtain ⟨harg0, harg1⟩ := hargs
    rw [if_pos hwrite] at hword
    refine ⟨?_, writeRow_wf ..⟩
    rw [encode_writeRow, encodeWrite, ← hword, ← harg0, harg1]
  case isFalse hread =>
    split_ifs at h with hargs
    cases h
    obtain ⟨harg0, harg1⟩ := hargs
    rw [if_neg hread] at hword
    refine ⟨?_, readRow_wf ..⟩
    rw [encode_readRow, encodeRead, ← hword, harg0, harg1]

/-- A MEM frame decodes to the call its op number names. -/
theorem encode_of_decodeMem (h : decodeMem f = .ok i) :
    encode i = encodeMem f.low f.arg0 f.arg1 ∧ i.wf cfg overlay = true := by
  unfold decodeMem at h
  dsimp only at h
  split at h
  case h_1 hop | h_2 hop | h_3 hop | h_4 hop | h_5 hop =>
    split_ifs at h with harg1
    cases h
    refine ⟨?_, rfl⟩
    rw [(BitVec.toNat_eq_nat.mp hop).2]
    exact congrArg (encodeMem _ f.arg0) harg1.symm
  case h_6 hop =>
    cases h
    refine ⟨?_, rfl⟩
    rw [(BitVec.toNat_eq_nat.mp hop).2]
    rfl
  case h_7 => cases h

/-- A frame of a format with one operand is the encoding of that operand. -/
theorem whenOnlyArg0_eq_ok {t : Nat} {k : Frame → Except DecodeError Instr} (htag : f.tag.toNat = t)
    (h : whenOnlyArg0 f k = .ok i) : encodeArg0 (BitVec.ofNat 7 t) f.arg0 = f ∧ k f = .ok i := by
  unfold whenOnlyArg0 at h
  split_ifs at h with hzero
  obtain ⟨hlow, harg1⟩ := hzero
  have hframe := frame_of_tag htag
  rw [hlow, harg1] at hframe
  exact ⟨hframe, h⟩

theorem encode_of_decodeEdge (h : decodeEdge f = .ok i) :
    encode i = encodeArg0 3 f.arg0 ∧ i.wf cfg overlay = true := by
  unfold decodeEdge at h
  split at h <;> cases h
  case h_1 hchannel | h_2 hchannel =>
    rw [(BitVec.toNat_eq_nat.mp hchannel).2]
    exact ⟨rfl, rfl⟩

theorem encode_of_decodeRxsr (h : decodeRxsr f = .ok i) :
    encode i = encodeArg0 4 f.arg0 ∧ i.wf cfg overlay = true := by
  unfold decodeRxsr at h
  dsimp only at h
  split_ifs at h with hbyte
  cases h
  exact ⟨congrArg (encodeArg0 4) hbyte.symm, rfl⟩

theorem encode_of_decodeAnswer (h : decodeAnswer f = .ok i) :
    encode i = encodeArg0 5 f.arg0 ∧ i.wf cfg overlay = true := by
  unfold decodeAnswer at h
  split at h <;> cases h
  case h_1 hcode | h_2 hcode =>
    rw [(BitVec.toNat_eq_nat.mp hcode).2]
    exact ⟨rfl, rfl⟩

end EncodeDecode

/-- Settles O5, format by format: each format's decoder accepts only frames it can say again. -/
theorem encodeOfDecodeIsTheFrame : Obligations.EncodeOfDecodeIsTheFrame := by
  unfold Obligations.EncodeOfDecodeIsTheFrame
  intro cfg overlay f i h
  unfold decode at h
  split at h
  case h_1 htag => exact (encode_of_decodeByte h).imp_left (·.trans (frame_of_tag htag))
  case h_2 htag => exact (encode_of_decodeMem h).imp_left (·.trans (frame_of_tag htag))
  case h_3 htag =>
    obtain ⟨hframe, hhook⟩ := whenOnlyArg0_eq_ok htag h
    cases hhook
    exact ⟨hframe, rfl⟩
  case h_4 htag =>
    obtain ⟨hframe, hedge⟩ := whenOnlyArg0_eq_ok htag h
    exact (encode_of_decodeEdge hedge).imp_left (·.trans hframe)
  case h_5 htag =>
    obtain ⟨hframe, hrxsr⟩ := whenOnlyArg0_eq_ok htag h
    exact (encode_of_decodeRxsr hrxsr).imp_left (·.trans hframe)
  case h_6 htag =>
    obtain ⟨hframe, hanswer⟩ := whenOnlyArg0_eq_ok htag h
    exact (encode_of_decodeAnswer hanswer).imp_left (·.trans hframe)
  case h_7 => cases h

/-- A transaction of a given frame is the one the frame decodes to. -/
theorem eq_of_encode_eq {cfg : Config} {overlay : Bool} {f : Frame} {i j : Instr} (hd : decode cfg overlay f = .ok i)
    (hwf : j.wf cfg overlay = true) (hf : encode j = f) : j = i := by
  have hj := decodeOfEncodeIsTheTransaction cfg overlay j hwf
  rw [hf, hd] at hj
  exact (Except.ok.inj hj).symm

/-- Settles O6: the row is the one the decoder selects. -/
theorem everyDecodeWordSelectsExactlyOneRow : Obligations.EveryDecodeWordSelectsExactlyOneRow := by
  unfold Obligations.EveryDecodeWordSelectsExactlyOneRow
  intro cfg overlay a
  refine ⟨⟨readRow cfg overlay a, ⟨readRow_wf .., encode_readRow ..⟩, ?read⟩,
    fun v => ⟨writeRow cfg overlay a v, ⟨writeRow_wf .., encode_writeRow ..⟩, ?write⟩⟩
  case read =>
    rintro j ⟨hwf, hf⟩
    exact eq_of_encode_eq (decode_encodeRead cfg overlay a) hwf hf
  case write =>
    rintro j ⟨hwf, hf⟩
    exact eq_of_encode_eq (decode_encodeWrite cfg overlay a v) hwf hf

/-- Settles O7: the nine words are closed, so the decoder evaluates on them. -/
theorem decodeWordsOfTheVectorsSelectTheirRows : Obligations.DecodeWordsOfTheVectorsSelectTheirRows := by
  unfold Obligations.DecodeWordsOfTheVectorsSelectTheirRows
  decide

end Sys2Proof
end

section
/-! SUPPORT. A register of the VIA or the IWM is selected by the window and the address bits 12 to 9 (30_encoding.md R103 to
R106). -/

namespace Sys2Proof

/-- Bits 12 to 9 of an address are its register index. -/
theorem regIndex_eq_of_bits_eq {a b : BusAddr} (h : a >>> 9 &&& 0xF#24 = b >>> 9 &&& 0xF#24) : regIndex a = regIndex b := by
  have hindex : ∀ c : BusAddr, (c >>> 9 &&& 0xF#24).setWidth 4 = regIndex c := by
    intro c
    rw [BitVec.setWidth_and, ← iwmRowIdx_eq]
    exact BitVec.and_allOnes
  rw [← hindex a, h, hindex b]

/-- A register's address: the registers of a window are 0x200 apart. -/
theorem toNat_registerAddr {base : BusAddr} (hbase : base.toNat ≤ 0xFFE1FF) (n : RegIdx) :
    (base + 0x200#24 * n.setWidth 24).toNat = base.toNat + 0x200 * n.toNat := by
  have hn := n.isLt
  rw [BitVec.toNat_add, BitVec.toNat_mul, BitVec.toNat_setWidth, show (0x200#24).toNat = 0x200 from rfl]
  omega

/-- In a window whose first register has index 0, the `n`-th register has index `n`. -/
theorem regIndex_registerAddr {base : BusAddr} (hbase : base.toNat ≤ 0xFFE1FF) (hzero : base.toNat / 2 ^ 9 % 16 = 0)
    (n : RegIdx) : regIndex (base + 0x200#24 * n.setWidth 24) = n := by
  have hn := n.isLt
  apply BitVec.eq_of_toNat_eq
  rw [regIndex_toNat, toNat_registerAddr hbase]
  omega

/-- Settles O9: the addresses lie in their windows, and a window's answer is the register index. -/
theorem registersAreSelectedByBitsTwelveToNine : Obligations.RegistersAreSelectedByBitsTwelveToNine := by
  unfold Obligations.RegistersAreSelectedByBitsTwelveToNine
  intro cfg overlay
  refine ⟨fun n => ?registers, fun a b hbits => ⟨fun ha hb => ?via, fun ha hb => ?iwm⟩⟩
  case registers =>
    have hn := n.isLt
    have hiwm := toNat_registerAddr (base := 0xDFE1FF#24) (by decide) n
    have hvia := toNat_registerAddr (base := 0xEFE1FE#24) (by decide) n
    rw [show (0xDFE1FF#24).toNat = 0xDFE1FF from rfl] at hiwm
    rw [show (0xEFE1FE#24).toNat = 0xEFE1FE from rfl] at hvia
    constructor
    · rw [decodeRegion_iwm cfg overlay _ (by omega), regIndex_registerAddr (by decide) (by decide)]
    · rw [decodeRegion_via cfg overlay _ ((via_iff _).mpr (by omega)), regIndex_registerAddr (by decide) (by decide)]
  case via => rw [decodeRegion_via cfg overlay a ha, decodeRegion_via cfg overlay b hb, regIndex_eq_of_bits_eq hbits]
  case iwm => rw [decodeRegion_iwm cfg overlay a ha, decodeRegion_iwm cfg overlay b hb, regIndex_eq_of_bits_eq hbits]

end Sys2Proof
end

section
/-! SUPPORT. The byte calls, and the default shift mode. -/

namespace Sys2Proof.Machine

/-- Settles O36: each call's outcome is that of the row of its address. -/
theorem byteCallsAreTheRowTheyDecodeTo : Obligations.ByteCallsAreTheRowTheyDecodeTo := by
  unfold Obligations.ByteCallsAreTheRowTheyDecodeTo
  exact fun s addr v => ⟨exec_rb_eq_readRow s addr, exec_wb_eq_writeRow s addr v⟩

/-- The field `ACR[4:3]` as arithmetic. -/
theorem toNat_shiftModeField (acr : Byte) :
    (acr.extractLsb' 3 2).toNat = 2 * (acr.getLsbD 4).toNat + (acr.getLsbD 3).toNat := by
  rw [BitVec.extractLsb'_toNat, BitVec.getLsbD, BitVec.getLsbD, Nat.toNat_testBit, Nat.toNat_testBit,
    Nat.shiftRight_eq_div_pow]
  omega

/-- Settles O28: a case for each value of the two bits. -/
theorem defaultShiftModeIsAcrBitsFourAndThree : Obligations.DefaultShiftModeIsAcrBitsFourAndThree := by
  unfold Obligations.DefaultShiftModeIsAcrBitsFourAndThree
  intro cfg acr hdefault
  rw [srMode, hdefault]
  dsimp only
  rw [srModeOfBits, toNat_shiftModeField]
  cases acr.getLsbD 4 <;> cases acr.getLsbD 3 <;> rfl

end Sys2Proof.Machine
end

section
/-! SUPPORT. The byte rows of RAM, ROM, the unmapped addresses and the SCC: what each does in a machine
that is ready for a call. -/

namespace Sys2Proof.Machine

/-! ### How a byte access ends -/

section Ends

variable {t : State} (hquiet : t.consumers = .quiet)
include hquiet

theorem returnByte_some (b : Byte) : returnByte (some b, t) = .next { t with replies := t.replies ++ [.u8 b] } :=
  finish_of_quiet hquiet

theorem returnByte_none : returnByte (none, t) = .next t := finish_of_quiet hquiet

theorem returnDone_true : returnDone (true, t) = .next { t with replies := t.replies ++ [.done] } := finish_of_quiet hquiet

theorem returnDone_false : returnDone (false, t) = .next t := finish_of_quiet hquiet

end Ends

/-! ### The rows -/

section Rows

variable (a : BusAddr) (v : Byte) (s : State)

theorem exec_ramRd : exec (.ramRd a) s = onThread s fun s => returnByte (always (ramRead a.toNat s)) := rfl

theorem exec_ramWr : exec (.ramWr a v) s = onThread s fun s => returnDone (true, ramWrite a.toNat v s) := rfl

theorem exec_romOvlRd : exec (.romOvlRd a) s = onThread s fun s => returnByte (always (romRead a.toNat s)) := rfl

theorem exec_romAliasRd : exec (.romAliasRd a) s =
    onThread s fun s => returnByte (always (romRead (a.toNat - s.cfg.romAliasBase) s)) := rfl

theorem exec_romOvlWr : exec (.romOvlWr a v) s = onThread s fun s => returnDone (romWriteRejected a resumeByteWrite s) := rfl

theorem exec_romAliasWr : exec (.romAliasWr a v) s = onThread s fun s => returnDone (romWriteRejected a resumeByteWrite s) :=
  rfl

theorem exec_unmappedRd : exec (.unmappedRd a) s = onThread s fun s => returnByte (always (unmappedRead a s)) := rfl

theorem exec_unmappedWr : exec (.unmappedWr a v) s = onThread s fun s => returnDone (true, unmappedWrite a s) := rfl

theorem exec_sccRRd : exec (.sccRRd a) s = onThread s fun s => returnByte (sccRead .sccRead a resumeByteRead s) := rfl

theorem exec_sccWRd : exec (.sccWRd a) s = onThread s fun s => returnByte (sccRead .sccWrite a resumeByteRead s) := rfl

theorem exec_sccRWr : exec (.sccRWr a v) s = onThread s fun s => returnDone (sccAccess .sccRead a resumeByteWrite s) := rfl

theorem exec_sccWWr : exec (.sccWWr a v) s = onThread s fun s => returnDone (sccAccess .sccWrite a resumeByteWrite s) := rfl

end Rows

variable {s : State}

/-! ### RAM -/

/-- The offset of a byte in RAM is its bus address (20_memory.md R63). -/
theorem offset_of_region_ram {addr : Long} {off : Nat} (h : s.region addr = .ram off) : off = (busAddr addr).toNat := by
  unfold State.region at h
  rw [decodeRegion_of_noWindow _ _ _ (admits_of_decodeRegion_eq h)] at h
  split_ifs at h
  exact (Region.ram.inj h).symm

theorem readRow_of_region_ram {addr : Long} {off : Nat} (h : s.region addr = .ram off) :
    readRow s.cfg s.overlay (busAddr addr) = .ramRd (busAddr addr) := by
  unfold State.region at h
  rw [readRow, h]

theorem writeRow_of_region_ram {addr : Long} {off : Nat} (h : s.region addr = .ram off) (v : Byte) :
    writeRow s.cfg s.overlay (busAddr addr) v = .ramWr (busAddr addr) v := by
  unfold State.region at h
  rw [writeRow, h]

theorem exec_ramRd_of_ready (hready : s.Ready) (a : BusAddr) :
    exec (.ramRd a) s = .next { s with replies := s.replies ++ [.u8 (s.ram.read a.toNat)] } := by
  rw [exec_ramRd, onThread_of_ready hready]
  exact returnByte_some hready.2 _

theorem exec_ramWr_of_ready (hready : s.Ready) (a : BusAddr) (v : Byte) :
    exec (.ramWr a v) s = .next { s with ram := s.ram.write a.toNat v, replies := s.replies ++ [.done] } := by
  rw [exec_ramWr, onThread_of_ready hready]
  exact returnDone_true (t := ramWrite a.toNat v s) hready.2

/-- Settles O10: the call is the row of its address. -/
theorem ramReadsAnswerTheStoredByte : Obligations.RamReadsAnswerTheStoredByte := by
  unfold Obligations.RamReadsAnswerTheStoredByte
  refine fun s hready => ⟨exec_ramRd_of_ready hready, fun addr off hregion => ?_⟩
  obtain rfl := offset_of_region_ram hregion
  refine ⟨rfl, ?_⟩
  rw [exec_rb_eq_readRow, readRow_of_region_ram hregion, exec_ramRd_of_ready hready]

/-- Settles O11: the RAM written is canonical again, so a read of it finds the byte. -/
theorem ramWritesStoreTheByte : Obligations.RamWritesStoreTheByte := by
  unfold Obligations.RamWritesStoreTheByte
  intro s hready hwf
  have hrow : ∀ (a : BusAddr) (v : Byte), ∃ m : Memory,
      exec (.ramWr a v) s = .next { s with ram := m, replies := s.replies ++ [.done] }
        ∧ m.wf = true ∧ m.read a.toNat = v ∧ ∀ k, k ≠ a.toNat → m.read k = s.ram.read k := by
    refine fun a v => ⟨_, exec_ramWr_of_ready hready a v, Memory.wf_write hwf _ v, ?_, fun k hk => ?_⟩
    · rw [Memory.read_write hwf, if_pos rfl]
    · rw [Memory.read_write hwf, if_neg hk.symm]
  refine ⟨hrow, fun addr off v hregion => ?_⟩
  obtain rfl := offset_of_region_ram hregion
  rw [exec_wb_eq_writeRow, writeRow_of_region_ram hregion]
  exact hrow (busAddr addr) v

/-! ### ROM reads and unmapped addresses -/

/-- Settles O12: neither row's handler looks at the overlay. -/
theorem romReadsAnswerTheImageByte : Obligations.RomReadsAnswerTheImageByte := by
  unfold Obligations.RomReadsAnswerTheImageByte
  intro s hready a
  rw [exec_romOvlRd, exec_romAliasRd, onThread_of_ready hready, onThread_of_ready hready]
  exact ⟨returnByte_some hready.2 _, returnByte_some hready.2 _⟩

/-- Settles O14: the handler logs the address and has its byte at once. -/
theorem unmappedReadsAnswerAllOnes : Obligations.UnmappedReadsAnswerAllOnes := by
  unfold Obligations.UnmappedReadsAnswerAllOnes
  intro s hready a
  rw [exec_unmappedRd, onThread_of_ready hready]
  exact returnByte_some (t := s.diag .unmappedRead a) hready.2 _

/-- Settles O15: the handler logs the address and is complete at once. -/
theorem unmappedWritesAreDropped : Obligations.UnmappedWritesAreDropped := by
  unfold Obligations.UnmappedWritesAreDropped
  intro s hready a v
  rw [exec_unmappedWr, onThread_of_ready hready]
  exact returnDone_true (t := s.diag .unmappedWrite a) hready.2

/-! ### The accesses that log and trap -/

/-- A bus access that traps, after its diagnostic and its display (43_debug.md R261; the order is D26). -/
def State.loggedTrap (s : State) (kind : DiagKind) (label : TrapLabel) (a : BusAddr) (resume : Resume) : State :=
  { s with
    trace := s.trace ++ [.diag kind a, .trap (s.display label (a.setWidth 32))]
    queries := s.queries + 2 + s.cfg.cpuRegIds.length
    trapWait := some { label := label, addr := a.setWidth 32, resume := resume } }

/-- Under the no-op sink a trap returns at once (R267), and the diagnostic is all that is left. -/
theorem trap_diag_of_noop (hsink : s.cfg.debugSink = .noop) (kind : DiagKind) (label : TrapLabel) (a : BusAddr)
    (resume : Resume) : trap label (a.setWidth 32) resume (s.diag kind a) = (true, s.diag kind a) := by
  simp only [trap, State.diag_cfg, hsink]

theorem trap_diag_of_interactive (hsink : s.cfg.debugSink = .interactive) (kind : DiagKind) (label : TrapLabel)
    (a : BusAddr) (resume : Resume) :
    trap label (a.setWidth 32) resume (s.diag kind a) = (false, s.loggedTrap kind label a resume) := by
  simp only [trap, State.diag_cfg, hsink, State.emit_trace, State.diag_trace, List.append_assoc, List.singleton_append]
  rfl

/-- Settles O13: both rows have one handler, the trap after the diagnostic. -/
theorem romWritesAreLoggedTrappedAndDropped : Obligations.RomWritesAreLoggedTrappedAndDropped := by
  unfold Obligations.RomWritesAreLoggedTrappedAndDropped
  intro s a v hready i hi
  have hrow : exec i s = returnDone (romWriteRejected a resumeByteWrite s) := by
    simp only [List.mem_cons, List.not_mem_nil, or_false] at hi
    obtain rfl | rfl := hi
    · rw [exec_romOvlWr, onThread_of_ready hready]
    · rw [exec_romAliasWr, onThread_of_ready hready]
  rw [hrow, romWriteRejected]
  refine ⟨fun hsink => ?noop, fun hsink => ?interactive⟩
  case noop =>
    rw [trap_diag_of_noop hsink]
    exact returnDone_true (t := s.diag .romWrite a) hready.2
  case interactive =>
    rw [trap_diag_of_interactive hsink]
    exact returnDone_false (t := s.loggedTrap .romWrite .romWrite a resumeByteWrite) hready.2

section Scc

variable (label : TrapLabel) (a : BusAddr) (resume : Resume)

theorem sccAccess_of_noop (hsink : s.cfg.debugSink = .noop) : sccAccess label a resume s = (true, s.diag .sccAccess a) :=
  trap_diag_of_noop hsink _ _ _ _

theorem sccAccess_of_interactive (hsink : s.cfg.debugSink = .interactive) :
    sccAccess label a resume s = (false, s.loggedTrap .sccAccess label a resume) :=
  trap_diag_of_interactive hsink _ _ _ _

theorem sccRead_of_noop (hsink : s.cfg.debugSink = .noop) :
    sccRead label a resume s = (some sentinel, s.diag .sccAccess a) := by
  rw [sccRead, sccAccess_of_noop label a resume hsink]
  rfl

theorem sccRead_of_interactive (hsink : s.cfg.debugSink = .interactive) :
    sccRead label a resume s = (none, s.loggedTrap .sccAccess label a resume) := by
  rw [sccRead, sccAccess_of_interactive label a resume hsink]
  rfl

end Scc

/-- What an SCC read does under each sink. -/
theorem returnByte_sccRead (hready : s.Ready) (label : TrapLabel) (a : BusAddr) :
    (s.cfg.debugSink = .noop → returnByte (sccRead label a resumeByteRead s) =
      .next { s with trace := s.trace ++ [.diag .sccAccess a], replies := s.replies ++ [.u8 0xFF#8] }) ∧
    (s.cfg.debugSink = .interactive → returnByte (sccRead label a resumeByteRead s) =
      .next (s.loggedTrap .sccAccess label a resumeByteRead)) := by
  refine ⟨fun hsink => ?_, fun hsink => ?_⟩
  · rw [sccRead_of_noop label a _ hsink]
    exact returnByte_some (t := s.diag .sccAccess a) hready.2 _
  · rw [sccRead_of_interactive label a _ hsink]
    exact returnByte_none (t := s.loggedTrap .sccAccess label a resumeByteRead) hready.2

/-- What an SCC write does under each sink. -/
theorem returnDone_sccAccess (hready : s.Ready) (label : TrapLabel) (a : BusAddr) :
    (s.cfg.debugSink = .noop → returnDone (sccAccess label a resumeByteWrite s) =
      .next { s with trace := s.trace ++ [.diag .sccAccess a], replies := s.replies ++ [.done] }) ∧
    (s.cfg.debugSink = .interactive → returnDone (sccAccess label a resumeByteWrite s) =
      .next (s.loggedTrap .sccAccess label a resumeByteWrite)) := by
  refine ⟨fun hsink => ?_, fun hsink => ?_⟩
  · rw [sccAccess_of_noop label a _ hsink]
    exact returnDone_true (t := s.diag .sccAccess a) hready.2
  · rw [sccAccess_of_interactive label a _ hsink]
    exact returnDone_false (t := s.loggedTrap .sccAccess label a resumeByteWrite) hready.2

/-- Settles O16: a row is a read or a write with the label of its window, and the sink decides whether its trap waits. -/
theorem sccAccessesAreLoggedAndTrap : Obligations.SccAccessesAreLoggedAndTrap := by
  unfold Obligations.SccAccessesAreLoggedAndTrap
  intro s a v hready
  obtain ⟨hnoopR, htrapR⟩ := returnByte_sccRead hready .sccRead a
  obtain ⟨hnoopW, htrapW⟩ := returnByte_sccRead hready .sccWrite a
  obtain ⟨hnoopR', htrapR'⟩ := returnDone_sccAccess hready .sccRead a
  obtain ⟨hnoopW', htrapW'⟩ := returnDone_sccAccess hready .sccWrite a
  simp only [List.forall_mem_cons, List.not_mem_nil, false_imp_iff, implies_true, and_true, exec_sccRRd, exec_sccWRd,
    exec_sccRWr, exec_sccWWr, onThread_of_ready hready]
  exact ⟨fun hsink => ⟨⟨hnoopR hsink, hnoopW hsink⟩, hnoopR' hsink, hnoopW' hsink⟩,
    fun hsink => ⟨htrapR hsink, htrapR' hsink, htrapW hsink, htrapW' hsink⟩⟩

end Sys2Proof.Machine
end

section
/-! SUPPORT. A multi-byte access as two accesses of half the width, the high half first, with what other agents do between
them (40_bus.md R161 to R165, 20_memory.md R71, R81). -/

namespace Sys2Proof.Machine

theorem exec_wl (addr : Long) (v : Long) (s : State) :
    exec (.wl addr v) s = onThread s fun s => finish (memWrite (byteWrites32 addr v) s) := rfl

theorem finish_of_not_reentered {s : State} (h : s.consumers ≠ .reentered) : finish s = .next s := by
  unfold finish
  split
  · next hc => exact absurd hc h
  · rfl

/-- What happens between two bytes does not read the record of replies. -/
theorem Between.withReplies_eq {s t : State} (h : Between s t) (r : List Reply) :
    boundary true (s.withReplies r) = t.withReplies r := by
  rw [boundary_withReplies, h.eq_boundary.1]

theorem Between.replies_eq {s t : State} (h : Between s t) : t.replies = s.replies := by
  rw [h.eq_boundary.1, boundary_replies]

theorem Between.trapWait_eq {s t : State} (h : Between s t) : t.trapWait = s.trapWait := by
  rw [h.eq_boundary.1, (keeps_boundary true s).trapWait]

@[simp] theorem State.withReplies_reply (s : State) (r : Reply) (rs : List Reply) :
    (s.reply r).withReplies rs = s.withReplies rs := rfl

/-! ### Reads -/

/-- A read of some bytes has returned: their values, and how a longer read that begins with them goes on, whatever the record
of replies holds. -/
structure HasRead (w : Width) (as : List Long) (s t : State) (bs : List Byte) : Prop where
  length : bs.length = as.length
  replies : t.replies = s.replies ++ [w.reply (bs.foldl shiftIn 0)]
  consumers : t.consumers ≠ .reentered
  continues : ∀ r w' acc rest, memRead w' (as ++ rest) acc (s.withReplies r) =
    memRead w' rest (bs.foldl shiftIn acc) (boundary (!rest.isEmpty) (t.withReplies r))

theorem hasRead_of_exec {w : Width} {as : List Long} {s t : State} (hfree : s.trapWait = none) (hne : as ≠ [])
    (h : onThread s (fun s => finish (memRead w as 0 s)) = .next t) (hreturned : t.trapWait = none) :
    ∃ bs, HasRead w as s t bs := by
  rw [onThread_free hfree] at h
  obtain ⟨rfl, hconsumers⟩ := finish_eq_next h
  obtain ⟨bs, p, hlength, hreplies, -, hcontinues⟩ := memRead_append as hfree hne hreturned
  have hwhole : memRead w as 0 s = p.reply (w.reply (bs.foldl shiftIn 0)) := by
    have hself := hcontinues s.replies w 0 []
    rwa [List.append_nil, State.withReplies_self, ← hreplies, State.withReplies_self] at hself
  refine ⟨bs, hlength, ?_, hconsumers, fun r w' acc rest => ?_⟩
  · rw [hwhole, State.reply_replies, hreplies]
  · rw [hcontinues, hwhole, State.withReplies_reply]

/-- Two reads in a row, with what other agents do between them, are one read of all their bytes. -/
theorem exec_read_append {w : Width} {as as' : List Long} {bs bs' : List Byte} {s t u t' : State} (hfree : s.trapWait = none)
    (hne : as' ≠ []) (h : HasRead w as s t bs) (hbetween : Between t u) (h' : HasRead w as' u t' bs') (W : Width) :
    onThread s (fun s => finish (memRead W (as ++ as') 0 s)) =
      .next { t' with replies := s.replies ++ [W.reply (bs'.foldl shiftIn (bs.foldl shiftIn 0))] } := by
  have hmore : (!as'.isEmpty) = true := by simpa using hne
  have hwhole : memRead W (as ++ as') 0 s =
      (t'.withReplies s.replies).reply (W.reply (bs'.foldl shiftIn (bs.foldl shiftIn 0))) := by
    have hfirst := h.continues s.replies W 0 as'
    have hsecond := h'.continues s.replies W (bs.foldl shiftIn 0) []
    rw [State.withReplies_self, hmore, hbetween.withReplies_eq] at hfirst
    rw [List.append_nil] at hsecond
    exact hfirst.trans hsecond
  rw [onThread_free hfree, hwhole]
  exact finish_of_not_reentered h'.consumers

/-- Settles O37: each byte read has returned one byte. -/
theorem wordReadsComposeTwoByteReads : Obligations.WordReadsComposeTwoByteReads := by
  unfold Obligations.WordReadsComposeTwoByteReads
  intro s t0 u t1 addr hready h0 hw0 hbetween h1 hw1
  have hfree : u.trapWait = none := hbetween.trapWait_eq.trans hw0
  obtain ⟨bs, hread⟩ := hasRead_of_exec hready.1 (List.cons_ne_nil _ _) ((exec_rb addr s).symm.trans h0) hw0
  obtain ⟨bs', hread'⟩ := hasRead_of_exec hfree (List.cons_ne_nil _ _) ((exec_rb (addr + 1) u).symm.trans h1) hw1
  obtain ⟨b0, rfl⟩ := List.length_eq_one_iff.mp hread.length
  obtain ⟨b1, rfl⟩ := List.length_eq_one_iff.mp hread'.length
  refine ⟨b0, b1, ?_, ?_⟩
  · rw [hread'.replies, hbetween.replies_eq, hread.replies, List.append_assoc, ← reply_byte, ← reply_byte]
    rfl
  · rw [exec_rw, ← reply_word]
    exact exec_read_append hready.1 (List.cons_ne_nil _ _) hread hbetween hread' .word

theorem append_halves (b0 b1 b2 b3 : Byte) : (b0 ++ b1 ++ (b2 ++ b3) : Long) = b0 ++ b1 ++ b2 ++ b3 :=
  BitVec.append_assoc.symm

/-- Settles O38: each word read has returned two bytes. -/
theorem longReadsComposeTwoWordReads : Obligations.LongReadsComposeTwoWordReads := by
  unfold Obligations.LongReadsComposeTwoWordReads
  intro s t0 u t1 addr hready h0 hw0 hbetween h1 hw1
  have hfree : u.trapWait = none := hbetween.trapWait_eq.trans hw0
  obtain ⟨bs, hread⟩ := hasRead_of_exec hready.1 (List.cons_ne_nil _ _) ((exec_rw addr s).symm.trans h0) hw0
  obtain ⟨bs', hread'⟩ := hasRead_of_exec hfree (List.cons_ne_nil _ _) ((exec_rw (addr + 2) u).symm.trans h1) hw1
  obtain ⟨b0, b1, rfl⟩ := List.length_eq_two.mp hread.length
  obtain ⟨b2, b3, rfl⟩ := List.length_eq_two.mp hread'.length
  refine ⟨b0 ++ b1, b2 ++ b3, ?_, ?_⟩
  · rw [hread'.replies, hbetween.replies_eq, hread.replies, List.append_assoc, ← reply_word, ← reply_word]
    rfl
  · rw [exec_rl, append_halves, ← reply_long]
    have hlong := exec_read_append hready.1 (List.cons_ne_nil _ _) hread hbetween hread' .long
    rwa [List.cons_append, List.cons_append, List.nil_append, BitVec.add_assoc] at hlong

/-! ### Writes -/

/-- A write of some bytes has returned: how a longer write that begins with them goes on. -/
structure HasWritten (xs : List (Long × Byte)) (s t : State) : Prop where
  consumers : t.consumers ≠ .reentered
  continues : ∀ r rest, memWrite (xs ++ rest) (s.withReplies r) = memWrite rest (boundary (!rest.isEmpty) (t.withReplies r))

theorem hasWritten_of_exec {xs : List (Long × Byte)} {s t : State} (hfree : s.trapWait = none) (hne : xs ≠ [])
    (h : onThread s (fun s => finish (memWrite xs s)) = .next t) (hreturned : t.trapWait = none) : HasWritten xs s t := by
  rw [onThread_free hfree] at h
  obtain ⟨rfl, hconsumers⟩ := finish_eq_next h
  obtain ⟨p, hreplies, -, hcontinues⟩ := memWrite_append xs hfree hne hreturned
  have hwhole : memWrite xs s = p.reply .done := by
    have hself := hcontinues s.replies []
    rwa [List.append_nil, State.withReplies_self, ← hreplies, State.withReplies_self] at hself
  refine ⟨hconsumers, fun r rest => ?_⟩
  rw [hcontinues, hwhole, State.withReplies_reply]

/-- Two writes in a row, with what other agents do between them, are one write of all their bytes. -/
theorem exec_write_append {xs xs' : List (Long × Byte)} {s t u t' : State} (hfree : s.trapWait = none) (hne : xs' ≠ [])
    (h : HasWritten xs s t) (hbetween : Between t u) (h' : HasWritten xs' u t') :
    onThread s (fun s => finish (memWrite (xs ++ xs') s)) = .next { t' with replies := s.replies ++ [.done] } := by
  have hmore : (!xs'.isEmpty) = true := by simpa using hne
  have hwhole : memWrite (xs ++ xs') s = (t'.withReplies s.replies).reply .done := by
    have hfirst := h.continues s.replies xs'
    have hsecond := h'.continues s.replies []
    rw [State.withReplies_self, hmore, hbetween.withReplies_eq] at hfirst
    rw [List.append_nil] at hsecond
    exact hfirst.trans hsecond
  rw [onThread_free hfree, hwhole]
  exact finish_of_not_reentered h'.consumers

/-- The byte writes of a long are those of its high word and then those of its low word (R165). -/
theorem byteWrites32_halves (addr : Long) (hi lo : Half) :
    byteWrites32 addr (hi ++ lo) = byteWrites16 addr hi ++ byteWrites16 (addr + 2) lo := by
  have hbytes (x : Half) : x = x.extractLsb' 8 8 ++ x.extractLsb' 0 8 := by
    rw [BitVec.extractLsb'_append_extractLsb'_eq_extractLsb' (start₁ := 0) (start₂ := 8) rfl]
    exact BitVec.extractLsb'_eq_self.symm
  rw [hbytes hi, hbytes lo, append_halves, byteWrites32_append, byteWrites16_append, byteWrites16_append,
    BitVec.add_assoc]
  rfl

/-- Settles O39: a wide access writes the bytes of its high half and then those of its low half. -/
theorem wideWritesDecomposeHighHalfFirst : Obligations.WideWritesDecomposeHighHalfFirst := by
  unfold Obligations.WideWritesDecomposeHighHalfFirst
  intro s t0 u t1 addr hready hw0 hbetween hw1
  have hfree : u.trapWait = none := hbetween.trapWait_eq.trans hw0
  have hwide {xs xs' : List (Long × Byte)} (hne : xs ≠ []) (hne' : xs' ≠ [])
      (h0 : onThread s (fun s => finish (memWrite xs s)) = .next t0)
      (h1 : onThread u (fun s => finish (memWrite xs' s)) = .next t1) :=
    exec_write_append hready.1 hne' (hasWritten_of_exec hready.1 hne h0 hw0) hbetween (hasWritten_of_exec hfree hne' h1 hw1)
  refine ⟨fun hi lo h0 h1 => ?word, fun hi lo h0 h1 => ?long⟩
  case word =>
    rw [exec_ww, byteWrites16_append]
    exact hwide (List.cons_ne_nil _ _) (List.cons_ne_nil _ _) h0 h1
  case long =>
    rw [exec_wl, byteWrites32_halves]
    exact hwide (List.cons_ne_nil _ _) (List.cons_ne_nil _ _) h0 h1

end Sys2Proof.Machine
end

section
/-! SUPPORT. Several bytes written to RAM: where they lie, and that they lie apart from each other. -/

namespace Sys2Proof.Machine

/-! ### Several stores -/

/-- Store some bytes, one after another. -/
def Memory.store (m : Memory) (cells : List Host.Cell) : Memory := cells.foldl (fun m c => m.write c.1 c.2) m

theorem Memory.store_cons (m : Memory) (c : Host.Cell) (cells : List Host.Cell) :
    m.store (c :: cells) = (m.write c.1 c.2).store cells := rfl

/-- An offset that is not stored to reads as before. -/
theorem Memory.read_store_of_not_mem {m : Memory} (hwf : m.wf = true) {cells : List Host.Cell} {k : Nat}
    (h : k ∉ cells.map Prod.fst) : (m.store cells).read k = m.read k := by
  induction cells generalizing m with
  | nil => rfl
  | cons c cells ih =>
    rw [List.map_cons, List.mem_cons, not_or] at h
    rw [Memory.store_cons, ih (Memory.wf_write hwf _ _) h.2, Memory.read_write hwf, if_neg (Ne.symm h.1)]

/-- Of offsets that differ, each reads as the byte stored there. -/
theorem Memory.read_store_of_mem {m : Memory} (hwf : m.wf = true) {cells : List Host.Cell}
    (hnodup : (cells.map Prod.fst).Nodup) {c : Host.Cell} (h : c ∈ cells) : (m.store cells).read c.1 = c.2 := by
  induction cells generalizing m with
  | nil => cases h
  | cons d cells ih =>
    rw [List.map_cons, List.nodup_cons] at hnodup
    have hwf' := Memory.wf_write hwf d.1 d.2
    rw [Memory.store_cons]
    obtain rfl | h := List.mem_cons.mp h
    · rw [Memory.read_store_of_not_mem hwf' hnodup.1, Memory.read_write hwf, if_pos rfl]
    · exact ih hwf' hnodup.2 h

/-! ### A write whose bytes all lie in RAM -/

variable {s : State}

/-- The byte write `x` stores the cell `c` of RAM. -/
def State.StoresTo (s : State) (x : Long × Byte) (c : Host.Cell) : Prop := s.region x.1 = .ram c.1 ∧ x.2 = c.2

/-- With no other agent acting, such a write only stores its bytes: it changes no region. -/
theorem memWrite_of_storesTo (hagenda : s.agenda = []) {xs : List (Long × Byte)} {cells : List Host.Cell}
    (h : List.Forall₂ s.StoresTo xs cells) (m : Memory) :
    memWrite xs { s with ram := m } = State.reply { s with ram := m.store cells } .done := by
  induction h generalizing m with
  | nil => rfl
  | @cons x c xs cells hx _ ih =>
    obtain ⟨a, v⟩ := x
    obtain ⟨hregion, rfl⟩ := hx
    rw [memWrite_of_ram (s := { s with ram := m }) hregion, boundary_of_nil]
    · exact ih (m.write c.1 c.2)
    · exact hagenda

/-- The whole effect of such a write, if its offsets differ. -/
theorem write_of_storesTo (hready : s.Ready) (hagenda : s.agenda = []) (hwf : s.ram.wf = true) {xs : List (Long × Byte)}
    {cells : List Host.Cell} (h : List.Forall₂ s.StoresTo xs cells) (hnodup : (cells.map Prod.fst).Nodup) : ∃ m : Memory,
    onThread s (fun s => finish (memWrite xs s)) = .next { s with ram := m, replies := s.replies ++ [.done] } ∧
    (∀ c ∈ cells, m.read c.1 = c.2) ∧ ∀ k, k ∉ cells.map Prod.fst → m.read k = s.ram.read k := by
  refine ⟨s.ram.store cells, ?_, fun c => Memory.read_store_of_mem hwf hnodup, fun k => Memory.read_store_of_not_mem hwf⟩
  rw [onThread_of_ready hready]
  exact (congrArg finish (memWrite_of_storesTo hagenda h s.ram)).trans (finish_of_quiet hready.2)

/-- The offset of a RAM byte of an access, by its distance from the access's address (20_memory.md R61, R66). -/
theorem offset_of_region_ram_add {addr d : Long} {k : Nat} (h : s.region (addr + d) = .ram k) :
    k = (addr.toNat + d.toNat) % 2 ^ 24 := by
  rw [offset_of_region_ram h, busAddr, BitVec.toNat_setWidth, BitVec.toNat_add]
  exact Nat.mod_mod_of_dvd _ (by decide)

/-- Settles O41: the offsets of bytes at most three addresses apart differ. -/
theorem wideWritesToRamAreBigEndian : Obligations.WideWritesToRamAreBigEndian := by
  unfold Obligations.WideWritesToRamAreBigEndian
  intro s addr k0 k1 hready hagenda hwf h0 h1
  have e0 : k0 = addr.toNat % 2 ^ 24 := (offset_of_region_ram h0).trans (BitVec.toNat_setWidth ..)
  have e1 : k1 = (addr.toNat + 1) % 2 ^ 24 := offset_of_region_ram_add h1
  refine ⟨fun hi lo => ?word, fun k2 k3 h2 h3 b0 b1 b2 b3 => ?long⟩
  case word =>
    have hnodup : [k0, k1].Nodup := by
      simp only [List.nodup_cons, List.mem_cons, List.not_mem_nil, or_false, not_false_eq_true, List.nodup_nil, and_true]
      omega
    obtain ⟨m, hexec, hstored, hframe⟩ :=
      write_of_storesTo hready hagenda hwf (xs := [(addr, hi), (addr + 1, lo)]) (cells := [(k0, hi), (k1, lo)])
        (.cons ⟨h0, rfl⟩ (.cons ⟨h1, rfl⟩ .nil)) hnodup
    simp only [List.forall_mem_cons] at hstored
    obtain ⟨r0, r1, -⟩ := hstored
    rw [exec_ww, byteWrites16_append]
    exact ⟨m, hexec, r0, r1, fun k n0 n1 => hframe k (by simp [n0, n1])⟩
  case long =>
    have e2 : k2 = (addr.toNat + 2) % 2 ^ 24 := offset_of_region_ram_add h2
    have e3 : k3 = (addr.toNat + 3) % 2 ^ 24 := offset_of_region_ram_add h3
    have hnodup : [k0, k1, k2, k3].Nodup := by
      simp only [List.nodup_cons, List.mem_cons, List.not_mem_nil, or_false, not_or, not_false_eq_true,
        List.nodup_nil, and_true]
      omega
    obtain ⟨m, hexec, hstored, hframe⟩ :=
      write_of_storesTo hready hagenda hwf (xs := [(addr, b0), (addr + 1, b1), (addr + 2, b2), (addr + 3, b3)])
        (cells := [(k0, b0), (k1, b1), (k2, b2), (k3, b3)])
        (.cons ⟨h0, rfl⟩ (.cons ⟨h1, rfl⟩ (.cons ⟨h2, rfl⟩ (.cons ⟨h3, rfl⟩ .nil)))) hnodup
    simp only [List.forall_mem_cons] at hstored
    obtain ⟨r0, r1, r2, r3, -⟩ := hstored
    rw [exec_wl, byteWrites32_append]
    exact ⟨m, hexec, r0, r1, r2, r3, fun k n0 n1 n2 n3 => hframe k (by simp [n0, n1, n2, n3])⟩

end Sys2Proof.Machine
end

section
/-! SUPPORT. Reads in the SCC read window under the interactive sink: each byte stops in a trap, and each answer goes on to the
next (40_bus.md R150, 43_debug.md R263). -/

namespace Sys2Proof.Machine

variable {s : State}

/-- The state in which a read waits in the trap of its byte at `addr`; `acc` holds the bytes before it, and `rest` the
addresses after it. -/
def State.sccWait (s : State) (w : Width) (addr : Long) (acc : Long) (rest : List Long) : State :=
  s.loggedTrap .sccAccess .sccRead (busAddr addr) (.read w acc rest)

section Fields

variable (s : State) (w : Width) (addr acc : Long) (rest : List Long) (resp : Answer)

@[simp] theorem State.sccWait_trapWait : (s.sccWait w addr acc rest).trapWait =
    some { label := .sccRead, addr := (busAddr addr).setWidth 32, resume := .read w acc rest } := rfl
@[simp] theorem State.sccWait_replies : (s.sccWait w addr acc rest).replies = s.replies := rfl
@[simp] theorem State.sccWait_via : (s.sccWait w addr acc rest).via = s.via := rfl
@[simp] theorem State.sccWait_ram : (s.sccWait w addr acc rest).ram = s.ram := rfl
@[simp] theorem State.sccWait_rom : (s.sccWait w addr acc rest).rom = s.rom := rfl
@[simp] theorem State.sccWait_iwm : (s.sccWait w addr acc rest).iwm = s.iwm := rfl
@[simp] theorem State.sccWait_overlay : (s.sccWait w addr acc rest).overlay = s.overlay := rfl

@[simp] theorem State.answered_trapWait : (s.answered resp).trapWait = none := rfl
@[simp] theorem State.answered_singleStepArmed : (s.answered resp).singleStepArmed = (resp == .step) := rfl
@[simp] theorem State.answered_replies : (s.answered resp).replies = s.replies ++ [.trapReturned (resp == .other)] := rfl
@[simp] theorem State.answered_via : (s.answered resp).via = s.via := rfl
@[simp] theorem State.answered_ram : (s.answered resp).ram = s.ram := rfl
@[simp] theorem State.answered_rom : (s.answered resp).rom = s.rom := rfl
@[simp] theorem State.answered_iwm : (s.answered resp).iwm = s.iwm := rfl
@[simp] theorem State.answered_overlay : (s.answered resp).overlay = s.overlay := rfl

end Fields

/-- A read whose next byte lies in the SCC read window waits there. -/
theorem memRead_of_sccR {addr : Long} (hsink : s.cfg.debugSink = .interactive) (hregion : s.region addr = .sccR)
    (w : Width) (rest : List Long) (acc : Long) : memRead w (addr :: rest) acc s = s.sccWait w addr acc rest := by
  unfold State.region at hregion
  simp only [memRead, byteRead, hregion, sccRead_of_interactive _ _ _ hsink]
  rfl

/-- An answer releases the read: the byte counts as the sentinel, and the bytes after it follow. -/
theorem exec_answer_sccWait (hagenda : s.agenda = []) (resp : Answer) (w : Width) (addr acc : Long) (rest : List Long) :
    exec resp.instr (s.sccWait w addr acc rest) =
      finish (memRead w rest (shiftIn acc sentinel) ((s.sccWait w addr acc rest).answered resp)) := by
  have hanswer : exec resp.instr (s.sccWait w addr acc rest) = answer resp (s.sccWait w addr acc rest) := by
    cases resp <;> rfl
  have hboundary := boundary_of_nil (!rest.isEmpty) (s := (s.sccWait w addr acc rest).answered resp) hagenda
  rw [hanswer, ← hboundary, ← trapReturn_eq]
  rfl

/-- A machine in which reads of some bytes all stop in the SCC read window, with no other agent acting between them. -/
structure SccReads (s : State) (addrs : List Long) : Prop where
  quiet : s.consumers = .quiet
  agenda : s.agenda = []
  sink : s.cfg.debugSink = .interactive
  region : ∀ addr ∈ addrs, s.region addr = .sccR

/-- Waiting and being answered changes nothing of this. -/
theorem SccReads.answered {addrs : List Long} (h : SccReads s addrs) (w : Width) (addr acc : Long) (rest : List Long)
    (resp : Answer) : SccReads ((s.sccWait w addr acc rest).answered resp) addrs :=
  ⟨h.quiet, h.agenda, h.sink, h.region⟩

/-- The answer to a byte that is not the last stops the read at the next one. -/
theorem SccReads.exec_answer_next {addrs : List Long} (h : SccReads s addrs) {next : Long} (hnext : next ∈ addrs)
    (resp : Answer) (w : Width) (addr acc : Long) (rest : List Long) :
    exec resp.instr (s.sccWait w addr acc (next :: rest)) =
      .next (((s.sccWait w addr acc (next :: rest)).answered resp).sccWait w next (shiftIn acc sentinel) rest) := by
  have h' := h.answered w addr acc (next :: rest) resp
  rw [exec_answer_sccWait h.agenda, memRead_of_sccR h'.sink (h'.region next hnext)]
  exact finish_of_quiet h.quiet

/-- The answer to the last byte ends the read. -/
theorem SccReads.exec_answer_last {addrs : List Long} (h : SccReads s addrs) (resp : Answer) (w : Width) (addr acc : Long) :
    exec resp.instr (s.sccWait w addr acc []) =
      .next (((s.sccWait w addr acc []).answered resp).reply (w.reply (shiftIn acc sentinel))) := by
  rw [exec_answer_sccWait h.agenda]
  exact finish_of_quiet h.quiet

/-- Four sentinels are all ones. -/
theorem reply_sentinels : Width.reply .long (shiftIn (shiftIn (shiftIn (shiftIn 0 sentinel) sentinel) sentinel) sentinel) =
    .u32 0xFFFFFFFF#32 := by decide

/-- Settles O42: the call waits at each of the four bytes in turn. -/
theorem sccLongReadsTrapOncePerByte : Obligations.SccLongReadsTrapOncePerByte := by
  unfold Obligations.SccLongReadsTrapOncePerByte
  intro s addr r0 r1 r2 r3 hready hagenda hsink hregion
  have h : SccReads s [addr, addr + 1, addr + 2, addr + 3] := by
    refine ⟨hready.2, hagenda, hsink, ?_⟩
    simp only [List.forall_mem_cons]
    exact ⟨BitVec.add_zero addr ▸ hregion 0 (by decide), hregion 1 (by decide), hregion 2 (by decide),
      hregion 3 (by decide), nofun⟩
  have hstart : exec (.rl addr) s = .next (s.sccWait .long addr 0 [addr + 1, addr + 2, addr + 3]) := by
    rw [exec_rl, onThread_of_ready hready, memRead_of_sccR hsink (h.region addr (by simp))]
    exact finish_of_quiet hready.2
  have h1 := h.answered .long addr 0 [addr + 1, addr + 2, addr + 3] r0
  have h2 := h1.answered .long (addr + 1) (shiftIn 0 sentinel) [addr + 2, addr + 3] r1
  have h3 := h2.answered .long (addr + 2) (shiftIn (shiftIn 0 sentinel) sentinel) [addr + 3] r2
  refine ⟨_, _, _, _, _, hstart, h.exec_answer_next (by simp) r0 .., h1.exec_answer_next (by simp) r1 ..,
    h2.exec_answer_next (by simp) r2 .., h3.exec_answer_last r3 .., ?waits, rfl, rfl, ?replies, ?via, ?ram, ?rom, ?iwm,
    ?overlay⟩
  case replies =>
    rw [reply_sentinels]
    simp
  all_goals simp

end Sys2Proof.Machine
end

section
/-! SUPPORT. How a call of the CPU ends: it has returned once, or it waits in a trap. One lemma for each way a transaction's
handler runs, and then the transactions by their handlers. -/

namespace Sys2Proof.Machine

/-- A call that started in `s` has run to `t`: it has returned one reply, or waits in a trap with none. -/
def Ended (s t : State) : Prop :=
  t.consumers = .quiet ∧
    ((∃ r, t.trapWait = none ∧ t.replies = s.replies ++ [r]) ∨ ∃ w, t.trapWait = some w ∧ t.replies = s.replies)

/-- A byte operation that started in `s` has run to `t`, with nothing returned yet: it is complete, or stopped in a trap. -/
structure Handled (s t : State) (complete : Bool) : Prop where
  quiet : t.consumers = .quiet
  replies : t.replies = s.replies
  wait : t.trapWait = none ↔ complete = true

variable {s : State}

/-- A diagnostic before an operation is no reply. -/
theorem Handled.of_diag {kind : DiagKind} {a : BusAddr} {t : State} {complete : Bool}
    (h : Handled (s.diag kind a) t complete) : Handled s t complete := ⟨h.quiet, h.replies, h.wait⟩

theorem Ended.next {t : State} (h : Ended s t) : ∃ t', finish t = .next t' ∧ Ended s t' :=
  ⟨t, finish_of_quiet h.1, h⟩

theorem Handled.ended_reply {t : State} (h : Handled s t true) (r : Reply) : Ended s (t.reply r) :=
  ⟨h.quiet, .inl ⟨r, h.wait.mpr rfl, congrArg (· ++ [r]) h.replies⟩⟩

theorem Handled.ended_stopped {t : State} (h : Handled s t false) : Ended s t := by
  have hwaits : t.trapWait ≠ none := fun hnone => nomatch h.wait.mp hnone
  obtain ⟨w, hw⟩ := Option.ne_none_iff_exists'.mp hwaits
  exact ⟨h.quiet, .inr ⟨w, hw, h.replies⟩⟩

/-- A byte read that was handled ends as a call. -/
theorem Handled.returnByte {r : Option Byte × State} (h : Handled s r.2 r.1.isSome) :
    ∃ t, returnByte r = .next t ∧ Ended s t := by
  obtain ⟨b | _, t⟩ := r
  · exact h.ended_stopped.next
  · exact (h.ended_reply _).next

/-- A byte write that was handled ends as a call. -/
theorem Handled.returnDone {r : Bool × State} (h : Handled s r.2 r.1) : ∃ t, returnDone r = .next t ∧ Ended s t := by
  obtain ⟨_ | _, t⟩ := r
  · exact h.ended_stopped.next
  · exact (h.ended_reply _).next

/-! ### The handlers -/

section Handlers

variable (hready : s.Ready)
include hready

theorem handled_self : Handled s s true := ⟨hready.2, rfl, by simp [hready.1]⟩

theorem handled_diag (kind : DiagKind) (a : BusAddr) : Handled s (s.diag kind a) true :=
  ⟨hready.2, rfl, by simp [hready.1]⟩

theorem handled_ramWrite (off : Nat) (v : Byte) : Handled s (ramWrite off v s) true :=
  ⟨hready.2, rfl, by simp [ramWrite, hready.1]⟩

theorem handled_iwmWrite (i : RegIdx) (a : BusAddr) (v : Byte) : Handled s (iwmWrite i a v s) true := by
  unfold iwmWrite
  split
  · exact ⟨hready.2, rfl, by simp [hready.1]⟩
  · exact ⟨hready.2, rfl, by simp [hready.1]⟩

theorem handled_viaRead (i : RegIdx) : Handled s (viaRead i s).2 true where
  quiet := (evolves_viaRead i s).quiet hready.2
  replies := congrArg (·.2.replies) (viaRead_withReplies s.replies s i)
  wait := by simp [(keeps_viaRead i s).trapWait, hready.1]

theorem handled_viaWrite (i : RegIdx) (a : BusAddr) (v : Byte) : Handled s (viaWrite i a v s) true where
  quiet := (evolves_viaWrite i a v s).quiet hready.2
  replies := congrArg (·.replies) (viaWrite_withReplies s.replies s i a v)
  wait := by simp [(keeps_viaWrite i a v s).trapWait, hready.1]

theorem handled_trap (label : TrapLabel) (addr : Long) (resume : Resume) :
    Handled s (trap label addr resume s).2 (trap label addr resume s).1 where
  quiet := (evolves_trap label addr resume s).quiet hready.2
  replies := congrArg (·.2.replies) (trap_withReplies s.replies s label addr resume)
  wait := ⟨fun hnone => by_contra fun hstop => trap_stopped (Bool.not_eq_true _ ▸ hstop) hnone,
    fun hdone => (trap_running hdone).trans hready.1⟩

theorem handled_sccAccess (label : TrapLabel) (a : BusAddr) (resume : Resume) :
    Handled s (sccAccess label a resume s).2 (sccAccess label a resume s).1 :=
  .of_diag (handled_trap (s := s.diag .sccAccess a) hready label (a.setWidth 32) resume)

theorem handled_sccRead (label : TrapLabel) (a : BusAddr) (resume : Resume) :
    Handled s (sccRead label a resume s).2 (sccRead label a resume s).1.isSome := by
  have h := handled_sccAccess hready label a resume
  rw [sccRead]
  cases hdone : (sccAccess label a resume s).1 <;> rwa [hdone] at h

theorem handled_romWriteRejected (a : BusAddr) (resume : Resume) :
    Handled s (romWriteRejected a resume s).2 (romWriteRejected a resume s).1 :=
  .of_diag (handled_trap (s := s.diag .romWrite a) hready .romWrite (a.setWidth 32) resume)

/-! ### The calls -/

theorem memRead_ends (w : Width) (addrs : List Long) :
    ∃ t, onThread s (fun s => finish (memRead w addrs 0 s)) = .next t ∧ Ended s t := by
  rw [onThread_of_ready hready]
  exact Ended.next ⟨(evolves_memRead w addrs 0 s).quiet hready.2, memRead_returns w addrs 0 hready.1⟩

theorem memWrite_ends (writes : List (Long × Byte)) :
    ∃ t, onThread s (fun s => finish (memWrite writes s)) = .next t ∧ Ended s t := by
  rw [onThread_of_ready hready]
  exact Ended.next ⟨(evolves_memWrite writes s).quiet hready.2, memWrite_returns writes hready.1⟩

/-- A read row ends if its handler is a byte operation. -/
theorem readRow_ends {handler : State → Option Byte × State} (h : Handled s (handler s).2 (handler s).1.isSome) :
    ∃ t, onThread s (fun s => returnByte (handler s)) = .next t ∧ Ended s t := by
  rw [onThread_of_ready hready]
  exact h.returnByte

/-- A write row ends if its handler is a byte operation. -/
theorem writeRow_ends {handler : State → Bool × State} (h : Handled s (handler s).2 (handler s).1) :
    ∃ t, onThread s (fun s => returnDone (handler s)) = .next t ∧ Ended s t := by
  rw [onThread_of_ready hready]
  exact h.returnDone

theorem iwmReadRow_ends (i : RegIdx) :
    ∃ t, onThread s (fun s => returnByte (some (iwmRead i s), s)) = .next t ∧ Ended s t :=
  readRow_ends hready (handler := fun s => (some (iwmRead i s), s)) (handled_self hready)

theorem viaReadRow_ends (i : RegIdx) : ∃ t, onThread s (fun s => returnByte (always (viaRead i s))) = .next t ∧ Ended s t :=
  readRow_ends hready (handler := fun s => always (viaRead i s)) (handled_viaRead hready i)

theorem viaWriteRow_ends (i : RegIdx) (a : BusAddr) (v : Byte) :
    ∃ t, onThread s (fun s => returnDone (true, viaWrite i a v s)) = .next t ∧ Ended s t :=
  writeRow_ends hready (handler := fun s => (true, viaWrite i a v s)) (handled_viaWrite hready i a v)

/-- A hook returns at once or stops in its trap (43_debug.md R264). -/
theorem hook_ends (pc : Long) : ∃ t, exec (.hook pc) s = .next t ∧ Ended s t := by
  rw [exec_hook, onThread_of_ready hready]
  split
  · exact (handled_trap hready .singleStep pc .hook).returnDone
  · exact Handled.returnDone (r := (true, s)) (handled_self hready)

end Handlers

/-- Settles O43: every transaction of the CPU runs one of these handlers. -/
theorem noCallEndsInAnError : Obligations.NoCallEndsInAnError := by
  unfold Obligations.NoCallEndsInAnError
  intro s i hready hcpu
  suffices hends : ∃ t, exec i s = .next t ∧ Ended s t from hends
  cases i
  case rb | rw | rl => exact memRead_ends hready _ _
  case wb | ww | wl => exact memWrite_ends hready _
  case iwmRdSenseOnes | iwmRdSenseNib | iwmRd => exact iwmReadRow_ends hready _
  case iwmWr a v =>
    exact writeRow_ends hready (handler := fun s => (true, iwmWrite (regIndex a) a v s)) (handled_iwmWrite hready _ a v)
  case sccRRd a | sccWRd a => exact readRow_ends hready (handled_sccRead hready _ a resumeByteRead)
  case sccRWr a v | sccWWr a v => exact writeRow_ends hready (handled_sccAccess hready _ a resumeByteWrite)
  case romOvlRd a => exact readRow_ends hready (handler := fun s => always (romRead a.toNat s)) (handled_self hready)
  case romAliasRd a =>
    exact readRow_ends hready (handler := fun s => always (romRead (a.toNat - s.cfg.romAliasBase) s)) (handled_self hready)
  case romOvlWr a v | romAliasWr a v => exact writeRow_ends hready (handled_romWriteRejected hready a resumeByteWrite)
  case ramRd a => exact readRow_ends hready (handler := fun s => always (ramRead a.toNat s)) (handled_self hready)
  case ramWr a v =>
    exact writeRow_ends hready (handler := fun s => (true, ramWrite a.toNat v s)) (handled_ramWrite hready a.toNat v)
  case unmappedRd a => exact readRow_ends hready (handler := fun s => always (unmappedRead a s)) (handled_diag hready _ a)
  case unmappedWr a v => exact writeRow_ends hready (handler := fun s => (true, unmappedWrite a s)) (handled_diag hready _ a)
  case hook pc => exact hook_ends hready pc
  case viaEdge1 | viaEdge2 | viaRxsr | answerStep | answerOther => cases hcpu
  case viaWrOrb | viaWrOra | viaWrDdrb | viaWrDdra | viaWrT1cl | viaWrT1ch | viaWrT1ll | viaWrT1lh | viaWrT2cl | viaWrT2ch |
    viaWrSr | viaWrAcr | viaWrPcr | viaWrIfr | viaWrIer | viaWrOraAlias => exact viaWriteRow_ends hready _ _ _
  all_goals exact viaReadRow_ends hready _ -- the sixteen VIA read rows

end Sys2Proof.Machine
end

section
/-! SUPPORT. The VIA rows in a machine that is ready for a call: each is one register operation, the closing reassessment
(41_via.md R186, R198, R215), and the reply. -/

namespace Sys2Proof.Machine

variable {s : State}

/-- Settles O33: the reassessment under quiet consumers, in the two cases of the level. -/
theorem reassessmentEmitsExactlyOnAChange : Obligations.ReassessmentEmitsExactlyOnAChange := by
  unfold Obligations.ReassessmentEmitsExactlyOnAChange
  intro s hquiet
  refine ⟨fun hsame => reassess_of_settled hsame.symm, fun hchange => ?_⟩
  rw [reassess_of_quiet hquiet, levelChange, if_neg hchange]

/-! ### The rows -/

section Rows

variable (hready : s.Ready) (i : RegIdx) (a : BusAddr) (v : Byte)
include hready

theorem exec_viaReadRow_of_ready : exec (viaReadRow i a) s =
    .next ((reassess (readRegister i s).2).reply (.u8 (readRegister i s).1)) := by
  rw [exec_viaReadRow, onThread_of_ready hready]
  exact returnByte_some ((evolves_viaRead i s).quiet hready.2) _

theorem exec_viaWriteRow_of_ready : exec (viaWriteRow i a v) s = .next ((reassess (writeRegister i a v s)).reply .done) := by
  rw [exec_viaWriteRow, onThread_of_ready hready]
  exact returnDone_true ((evolves_viaWrite i a v s).quiet hready.2)

/-- A read whose rule leaves the status settled has only the rule's effect. -/
theorem exec_viaReadRow_of_settled {r : Byte × State} (hrule : readRegister i s = r) (hset : r.2.via.Settled) :
    exec (viaReadRow i a) s = .next (r.2.reply (.u8 r.1)) := by
  rw [exec_viaReadRow_of_ready hready, hrule, reassess_of_settled hset]

/-- A write whose rule leaves the status settled has only the rule's effect. -/
theorem exec_viaWriteRow_of_settled {t : State} (hrule : writeRegister i a v s = t) (hset : t.via.Settled) :
    exec (viaWriteRow i a v) s = .next (t.reply .done) := by
  rw [exec_viaWriteRow_of_ready hready, hrule, reassess_of_settled hset]

/-- A read is its rule and then the reassessment, which emits a change of the level (R186, R215). -/
theorem exec_viaReadRow_of_rule {r : Byte × State} (hrule : readRegister i s = r) : exec (viaReadRow i a) s = .next { r.2 with
    via := { r.2.via with irqStatus := r.2.via.level }
    trace := r.2.trace ++ levelChange r.2.via.irqStatus r.2.via
    replies := r.2.replies ++ [.u8 r.1] } := by
  rw [exec_viaReadRow_of_ready hready, reassess_of_quiet ((evolves_readRegister i s).quiet hready.2), hrule]
  rfl

/-- A write is its rule and then the reassessment, which emits a change of the level (R198, R215). -/
theorem exec_viaWriteRow_of_rule {t : State} (hrule : writeRegister i a v s = t) : exec (viaWriteRow i a v) s = .next { t with
    via := { t.via with irqStatus := t.via.level }
    trace := t.trace ++ levelChange t.via.irqStatus t.via
    replies := t.replies ++ [.done] } := by
  rw [exec_viaWriteRow_of_ready hready, reassess_of_quiet ((evolves_writeRegister i a v s).quiet hready.2), hrule]
  rfl

end Rows

/-! ### Bits -/

/-- Clearing sources keeps exactly the bits outside the mask. -/
theorem Via.unlatch_bit (via : Via) (mask : Byte) (k : Nat) (hk : k < 8) :
    (via.unlatch mask).irqActive.getLsbD k = (via.irqActive.getLsbD k && !mask.getLsbD k) := by
  simp only [Via.unlatch, BitVec.getLsbD_and, BitVec.getLsbD_not, hk, decide_true, Bool.true_and]

theorem Via.acked_bit (via : Via) (v : Byte) (k : Nat) (hk : k < 8) :
    (via.acked v).getLsbD k = (v.getLsbD k && via.irqActive.getLsbD k && decide (k < 7)) := by
  simp only [Via.acked, BitVec.getLsbD_and, mask7_bit k hk]

/-- A port read shows the output register where the data direction bit is 1 and the input elsewhere (10_state.md R36). -/
theorem composePort_bit (out ddr input : Byte) (k : Nat) (hk : k < 8) :
    (composePort out ddr input).getLsbD k = if ddr.getLsbD k then out.getLsbD k else input.getLsbD k := by
  simp only [composePort, BitVec.getLsbD_or, BitVec.getLsbD_and, BitVec.getLsbD_not, hk, decide_true, Bool.true_and]
  cases ddr.getLsbD k <;> simp

/-- IER as read shows the enables below its bit 7, which is set (R185). -/
theorem Via.ier_bit (via : Via) (k : Nat) (hk : k < 8) :
    via.ier.getLsbD k = (decide (k = 7) || via.irqEnable.getLsbD k) := by
  simp only [Via.ier, BitVec.getLsbD_or, mask8_bit k hk]

/-- IFR as read shows the latched sources, and the level in its bit 7 (R184). -/
theorem Via.ifr_bit (via : Via) (k : Nat) (hk : k < 8) :
    via.ifr.getLsbD k = (via.irqActive.getLsbD k || (via.level && decide (k = 7))) := by
  rw [Via.ifr, BitVec.getLsbD_or]
  cases via.level
  · simp
  · simp [mask8_bit k hk]

/-- An IER write gives the enables it names the value of its bit 7 (R197). -/
theorem enableAfter_bit (enable v : Byte) (k : Nat) (hk : k < 8) : (enableAfter enable v).getLsbD k =
    if v.getLsbD k && decide (k < 7) then v.getLsbD 7 else enable.getLsbD k := by
  unfold enableAfter
  cases h7 : v.getLsbD 7
  all_goals
    simp only [Bool.false_eq_true, if_true, if_false, BitVec.getLsbD_or, BitVec.getLsbD_and, BitVec.getLsbD_not, mask7_bit k hk,
      hk, decide_true, Bool.true_and]
    cases v.getLsbD k <;> cases decide (k < 7) <;> simp

/-! ### Port draws -/

/-- One draw (10_state.md R41): what each kind of provider answers, and what is left of its input side. -/
theorem PortInput.sample_cases (fitted : Bool) (free : Nat → Byte) (p : PortInput) :
    (fitted = false → (p.sample fitted free).1 = 0#8 ∧ (p.sample fitted free).2 = p) ∧
    (∀ b bs, fitted = true → p.supply = b :: bs →
      (p.sample fitted free).1 = b ∧ (p.sample fitted free).2 = { p with supply := bs }) ∧
    (fitted = true → p.supply = [] →
      (p.sample fitted free).1 = free p.draws ∧ (p.sample fitted free).2 = { p with draws := p.draws + 1 }) := by
  unfold PortInput.sample
  refine ⟨?unfitted, ?supplied, ?free⟩
  case unfitted => rintro rfl; exact ⟨rfl, rfl⟩
  case supplied => rintro b bs rfl hsupply; rw [hsupply]; exact ⟨rfl, rfl⟩
  case free => rintro rfl hsupply; rw [hsupply]; exact ⟨rfl, rfl⟩

end Sys2Proof.Machine
end

section
/-! SUPPORT. The reads of the VIA's registers (41_via.md R180 to R185). -/

namespace Sys2Proof.Machine

/-- Settles O20: the ten rows have one rule, which leaves the status settled. -/
theorem plainViaReadsAnswerTheStoredByte : Obligations.PlainViaReadsAnswerTheStoredByte := by
  unfold Obligations.PlainViaReadsAnswerTheStoredByte
  intro s a hready hset
  have plain (i : RegIdx) (hrule : readRegister i s = readPlain i s) :
      exec (viaReadRow i a) s = .next { s with replies := s.replies ++ [.u8 (s.via.get i)] } := by
    exact exec_viaReadRow_of_settled hready i a hrule hset
  simp only [List.forall_mem_cons, List.not_mem_nil, false_imp_iff, implies_true, and_true]
  exact ⟨plain 2 rfl, plain 3 rfl, plain 4 rfl, plain 5 rfl, plain 6 rfl, plain 7 rfl, plain 8 rfl, plain 9 rfl, plain 11 rfl,
    plain 12 rfl⟩

/-- Settles O21: a port read is one draw, composed with the driven bits; both port-A indices have one rule. -/
theorem portReadsComposeDrivenAndInputBits : Obligations.PortReadsComposeDrivenAndInputBits := by
  unfold Obligations.PortReadsComposeDrivenAndInputBits
  intro s a hready hset
  refine ⟨⟨(s.portA.sample s.cfg.portAFitted Config.freePortA).1, (readPortA s).1, _, ?portA, composePort_bit _ _ _,
      PortInput.sample_cases _ _ _⟩,
    (s.portB.sample s.cfg.portBFitted Config.freePortB).1, (readPortB s).1, _, ?portB, composePort_bit _ _ _,
      PortInput.sample_cases _ _ _⟩
  case portA =>
    simp only [List.forall_mem_cons, List.not_mem_nil, false_imp_iff, implies_true, and_true]
    exact ⟨exec_viaReadRow_of_settled hready 1 a rfl hset, exec_viaReadRow_of_settled hready 15 a rfl hset⟩
  case portB => exact exec_viaReadRow_of_settled hready 0 a rfl hset

/-- Settles O22: the read unlatches the shift register's source before the reassessment. -/
theorem srReadsClearTheirSource : Obligations.SrReadsClearTheirSource := by
  unfold Obligations.SrReadsClearTheirSource
  intro s a hready _
  refine ⟨s.via.unlatch (srMask s.cfg), exec_viaReadRow_of_rule hready 10 a rfl, rfl, fun k hk => ?_⟩
  rw [Via.unlatch_bit _ _ k hk, srMask, sourceMask_bit _ k hk, decide_not]

/-- Settles O23: both bytes are computed from the enables and the latches, bit by bit. -/
theorem ifrAndIerReadAsComputed : Obligations.IfrAndIerReadAsComputed := by
  unfold Obligations.IfrAndIerReadAsComputed
  intro s a hready hset hseven
  refine ⟨s.via.ifr, s.via.ier, exec_viaReadRow_of_settled hready 13 a rfl hset,
    exec_viaReadRow_of_settled hready 14 a rfl hset, fun k hk => ?low, ?ierSeven, ?ifrSeven⟩
  case low =>
    have hne : k ≠ 7 := by omega
    rw [Via.ifr_bit _ k (by omega), Via.ier_bit _ k (by omega)]
    simp [hne]
  case ierSeven => rw [Via.ier_bit _ 7 (by decide)]; rfl
  case ifrSeven =>
    rw [Via.ifr_bit _ 7 (by decide), hseven, ← Via.level_iff]
    simp

end Sys2Proof.Machine
end

section
/-! SUPPORT. The writes of the VIA's registers (41_via.md R190 to R197). -/

namespace Sys2Proof.Machine

/-! ### Plain registers and ports -/

/-- Settles O24: the ten rows have one rule, a store that leaves the status settled. -/
theorem plainViaWritesStoreTheByte : Obligations.PlainViaWritesStoreTheByte := by
  unfold Obligations.PlainViaWritesStoreTheByte
  intro s a v hready hset
  have plain (i : RegIdx) (hrule : writeRegister i a v s = writePlain i v s) : ∃ via : Via,
      exec (viaWriteRow i a v) s = .next { s with via := via, replies := s.replies ++ [.done] } ∧
        via = { s.via with regs := via.regs } ∧ ∀ j : RegIdx, via.get j = if j = i then v else s.via.get j :=
    ⟨s.via.set i v, exec_viaWriteRow_of_settled hready i a v hrule (hset.set i v), rfl, fun j => Via.get_set _ _ _ _⟩
  simp only [List.forall_mem_cons, List.not_mem_nil, false_imp_iff, implies_true, and_true]
  exact ⟨plain 2 rfl, plain 3 rfl, plain 4 rfl, plain 5 rfl, plain 6 rfl, plain 7 rfl, plain 8 rfl, plain 9 rfl, plain 11 rfl,
    plain 12 rfl⟩

section Ports

variable {s : State} (hquiet : s.consumers = .quiet) (v : Byte)
include hquiet

/-- The port-A event under quiet consumers, with the remap that consumes it (40_bus.md R155). -/
theorem portAChanged_of_quiet : portAChanged v s = { s with
    overlay := s.overlay && v.getLsbD s.cfg.overlayBit, trace := s.trace ++ [.portAChanged v] } := by
  rw [portAChanged, State.emitVia_eq_of_quiet _ _ hquiet, remap]
  dsimp only
  split
  · next hclear => rw [hclear.2, Bool.and_false]
  · next hkeep =>
    have hsame : s.overlay = (s.overlay && v.getLsbD s.cfg.overlayBit) := by
      revert hkeep
      cases s.overlay <;> cases v.getLsbD s.cfg.overlayBit <;> simp
    rw [← hsame]

/-- The port-A rule: one store, after an event and its remap if the value differs (R190). -/
theorem writePortA_of_quiet : writePortA v s = { s with
    via := s.via.set regOra v
    overlay := s.overlay && (v == s.via.get regOra || v.getLsbD s.cfg.overlayBit)
    trace := s.trace ++ (if v = s.via.get regOra then [] else [.portAChanged v]) } := by
  unfold writePortA
  by_cases hsame : v = s.via.get regOra
  · rw [if_pos hsame, if_pos hsame, beq_iff_eq.mpr hsame, Bool.true_or, Bool.and_true, List.append_nil]
  · rw [if_neg hsame, if_neg hsame, beq_eq_false_iff_ne.mpr hsame, Bool.false_or, portAChanged_of_quiet hquiet]

/-- The port-B rule: one store, after an event if the value differs (R191). -/
theorem writePortB_of_quiet : writePortB v s = { s with
    via := s.via.set regOrb v
    trace := s.trace ++ (if v = s.via.get regOrb then [] else [.portBChanged v]) } := by
  unfold writePortB
  by_cases hsame : v = s.via.get regOrb
  · rw [if_pos hsame, if_pos hsame, List.append_nil]
  · rw [if_neg hsame, if_neg hsame, State.emitVia_eq_of_quiet _ _ hquiet]

end Ports

/-- Settles O25: both indices have one rule, and its store leaves the status settled. -/
theorem portAWritesNotifyRemapAndStore : Obligations.PortAWritesNotifyRemapAndStore := by
  unfold Obligations.PortAWritesNotifyRemapAndStore
  intro s a v hready hset
  have hrule := writePortA_of_quiet hready.2 v
  refine ⟨s.via.set regOra v, rfl, fun j => Via.get_set _ _ _ _, ?_⟩
  simp only [List.forall_mem_cons, List.not_mem_nil, false_imp_iff, implies_true, and_true]
  exact ⟨exec_viaWriteRow_of_settled hready 1 a v hrule (hset.set _ _),
    exec_viaWriteRow_of_settled hready 15 a v hrule (hset.set _ _)⟩

/-- Settles O26: the rule's store leaves the status settled. -/
theorem portBWritesNotifyAndStore : Obligations.PortBWritesNotifyAndStore := by
  unfold Obligations.PortBWritesNotifyAndStore
  intro s a v hready hset
  exact ⟨s.via.set regOrb v, rfl, fun j => Via.get_set _ _ _ _,
    exec_viaWriteRow_of_settled hready 0 a v (writePortB_of_quiet hready.2 v) (hset.set _ _)⟩

/-! ### The shift register -/

section ShiftRegister

variable {s : State} (a : BusAddr) (v : Byte)

theorem writeSr_of_out (hmode : srMode s.cfg (s.via.get regAcr) = .out) : writeSr a v s = writeSrOut a v s := by
  rw [writeSr, hmode]

theorem writeSr_of_inOrDisabled (hmode : srMode s.cfg (s.via.get regAcr) = .inOrDisabled) :
    writeSr a v s = writeSrClear s := by rw [writeSr, hmode]

/-- The two modes in which a write does nothing (R195). -/
theorem writeSr_of_ignored (hmode : srMode s.cfg (s.via.get regAcr) = .inExt ∨ srMode s.cfg (s.via.get regAcr) = .other) :
    writeSr a v s = s := by
  obtain hmode | hmode := hmode <;> rw [writeSr, hmode]

/-- The rule of mode OUT: the byte is pending, over one already pending, and its source is latched (R193). -/
theorem writeSrOut_eq : writeSrOut a v s = { s with
    via := { s.via.latch (srMask s.cfg) with shiftPending := some v }
    trace := s.trace ++ (if s.via.shiftPending = none then [] else [.diag .srOverrun a]) } := by
  unfold writeSrOut
  by_cases hnone : s.via.shiftPending = none
  · rw [if_pos hnone, if_pos hnone, List.append_nil]
  · rw [if_neg hnone, if_neg hnone]
    rfl

end ShiftRegister

/-- Settles O27: each mode has one rule, and only that of mode OUT can change the level. -/
theorem srWritesFollowTheShiftMode : Obligations.SrWritesFollowTheShiftMode := by
  unfold Obligations.SrWritesFollowTheShiftMode
  intro s a v hready hset
  refine ⟨fun hmode => ?out, fun hmode => ?clear, fun hmode => ?ignored⟩
  case out =>
    have hrule := (writeSr_of_out a v hmode).trans (writeSrOut_eq a v)
    exact ⟨{ s.via.latch (srMask s.cfg) with shiftPending := some v }, exec_viaWriteRow_of_rule hready 10 a v hrule, rfl,
      s.via.latch_bit s.cfg.ifrSr⟩
  case clear =>
    have hrule := writeSr_of_inOrDisabled a v hmode
    exact ⟨s.via.set regSr 0#8, exec_viaWriteRow_of_settled hready 10 a v hrule (hset.set _ _), rfl,
      fun j => Via.get_set _ _ _ _⟩
  case ignored => exact exec_viaWriteRow_of_settled hready 10 a v (writeSr_of_ignored a v hmode) hset

/-! ### The interrupt flags and enables -/

section Ifr

variable {s : State} (v : Byte)

/-- Whether the shift register's source is among those an IFR write acknowledges (R196). -/
theorem acked_and_srMask_eq_zero (hsr : s.cfg.ifrSr ≤ 6) : s.via.acked v &&& srMask s.cfg = 0#8 ↔
    v.getLsbD s.cfg.ifrSr = false ∨ s.via.irqActive.getLsbD s.cfg.ifrSr = false := by
  have hlow : s.cfg.ifrSr < 7 := by omega
  rw [srMask, and_sourceMask_eq_zero, Via.acked_bit _ _ _ (by omega), decide_eq_true hlow, Bool.and_true,
    Bool.and_eq_false_iff]

/-- With its source acknowledged, a pending byte is consumed and transmitted (R196). -/
theorem writeIfr_of_release {b : Byte} (hquiet : s.consumers = .quiet) (hacked : s.via.acked v &&& srMask s.cfg ≠ 0#8)
    (hpending : s.via.shiftPending = some b) : writeIfr v s = { s with
      via := { s.via.unlatch (s.via.acked v) with shiftPending := none }, trace := s.trace ++ [.shiftTx b] } := by
  rw [writeIfr, if_neg hacked, releasePending]
  simp only [Via.unlatch, hpending]
  exact State.emitVia_eq_of_quiet _ _ hquiet

/-- Otherwise the sources are cleared and that is all (R196). -/
theorem writeIfr_of_hold (hhold : s.via.acked v &&& srMask s.cfg = 0#8 ∨ s.via.shiftPending = none) :
    writeIfr v s = { s with via := s.via.unlatch (s.via.acked v) } := by
  unfold writeIfr
  dsimp only
  split
  · rfl
  · next hacked =>
    rw [releasePending]
    simp only [Via.unlatch, hhold.resolve_left hacked]

/-- The sources cleared do not depend on what becomes of a pending byte. -/
theorem writeIfr_irqActive : (writeIfr v s).via.irqActive = (s.via.unlatch (s.via.acked v)).irqActive := by
  unfold writeIfr releasePending
  dsimp only
  split
  · rfl
  · split <;> rfl

end Ifr

/-- Settles O29: the pending byte is consumed exactly if its source is acknowledged; the sources cleared are the same. -/
theorem ifrWritesAcknowledgeAndTransmit : Obligations.IfrWritesAcknowledgeAndTransmit := by
  unfold Obligations.IfrWritesAcknowledgeAndTransmit
  intro s a v hready _ hsr
  refine ⟨(writeIfr v s).via, fun k hk => ?bits, fun hv hactive b hpending => ?release, fun hhold => ?hold⟩
  case bits =>
    rw [writeIfr_irqActive, Via.unlatch_bit _ _ k hk, Via.acked_bit _ _ k hk]
    cases s.via.irqActive.getLsbD k <;> simp
  case release =>
    have hacked : s.via.acked v &&& srMask s.cfg ≠ 0#8 := by
      rw [ne_eq, acked_and_srMask_eq_zero v hsr, hv, hactive]
      simp
    have hrule := writeIfr_of_release v hready.2 hacked hpending
    rw [hrule]
    exact ⟨rfl, exec_viaWriteRow_of_rule hready 13 a v hrule⟩
  case hold =>
    have hrule : writeIfr v s = _ := writeIfr_of_hold v (by rwa [acked_and_srMask_eq_zero v hsr, or_assoc])
    rw [hrule]
    exact ⟨rfl, exec_viaWriteRow_of_rule hready 13 a v hrule⟩

/-- Settles O30: the write changes the enables only, bit by bit as `enableAfter` says. -/
theorem ierWritesSetOrClearEnables : Obligations.IerWritesSetOrClearEnables := by
  unfold Obligations.IerWritesSetOrClearEnables
  intro s a v hready _
  refine ⟨{ s.via with irqEnable := enableAfter s.via.irqEnable v }, exec_viaWriteRow_of_rule hready 14 a v rfl, rfl,
    fun k hk => ?low, ?seven⟩
  case low => rw [enableAfter_bit _ _ k (by omega), decide_eq_true hk, Bool.and_true]
  case seven => rw [enableAfter_bit _ _ 7 (by decide), decide_eq_false (by decide), Bool.and_false]; rfl

end Sys2Proof.Machine
end

section
/-! SUPPORT. The events of the device agent (41_via.md R211 to R214). -/

namespace Sys2Proof.Machine

section Events

variable {s : State} (hquiet : s.consumers = .quiet)
include hquiet

/-- An event whose effect on the VIA is `via` ends with the reassessment, in its outcome (R215). -/
theorem finish_reassess_of_via (via : Via) : finish (reassess { s with via := via }) = .next { s with
    via := { via with irqStatus := via.level }, trace := s.trace ++ levelChange via.irqStatus via } := by
  have h := reassess_of_quiet (s := { s with via := via }) hquiet
  rw [h]
  exact finish_of_quiet hquiet

theorem finish_notifyEdge (line : EdgeLine) : finish (notifyEdge line s) = .next { s with
    via := { s.via.latch (edgeMask s.cfg line) with irqStatus := (s.via.latch (edgeMask s.cfg line)).level }
    trace := s.trace ++ levelChange s.via.irqStatus (s.via.latch (edgeMask s.cfg line)) } :=
  finish_reassess_of_via hquiet _

end Events

/-- Settles O31: both lines latch one bit before the reassessment; neither the PCR nor the trap wait is looked at. -/
theorem edgesLatchTheirSource : Obligations.EdgesLatchTheirSource := by
  unfold Obligations.EdgesLatchTheirSource
  intro s hquiet _
  simp only [List.forall_mem_cons, List.not_mem_nil, false_imp_iff, implies_true, and_true]
  exact ⟨⟨_, finish_notifyEdge hquiet .one, rfl, s.via.latch_bit s.cfg.ifrCa1⟩,
    _, finish_notifyEdge hquiet .two, rfl, s.via.latch_bit s.cfg.ifrCa2⟩

/-- Settles O32: mode IN_EXT stores and latches, every other mode logs. -/
theorem receivedBytesAreAcceptedInExternalModeOnly : Obligations.ReceivedBytesAreAcceptedInExternalModeOnly := by
  unfold Obligations.ReceivedBytesAreAcceptedInExternalModeOnly
  intro s b hquiet _
  have hexec : exec (.viaRxsr b) s = finish (receiveShiftByte b s) := rfl
  rw [hexec, receiveShiftByte]
  refine ⟨fun hmode => ?accepted, fun hmode => ?ignored⟩
  case accepted =>
    rw [show srMode s.cfg (s.via.get regAcr) = .inExt from hmode]
    exact ⟨(s.via.set regSr b).latch (srMask s.cfg), finish_reassess_of_via hquiet _, rfl, fun j => Via.get_set _ _ _ _,
      (s.via.set regSr b).latch_bit s.cfg.ifrSr⟩
  case ignored =>
    split
    · next haccepted => exact absurd haccepted hmode
    · exact finish_of_quiet hquiet

end Sys2Proof.Machine
end

section
/-! SUPPORT. What the VIA emits over several transactions: levels that alternate, and each queued byte once. -/

namespace Sys2Proof.Machine

/-- Settles O56: every operation of the block emits levels that alternate. -/
theorem irqLevelEventsAlternate : Obligations.IrqLevelEventsAlternate := by
  unfold Obligations.IrqLevelEventsAlternate
  intro s t h
  obtain ⟨_, _, _, _, he⟩ := step_evolves h
  obtain ⟨new, htrace, -, halternates⟩ := he.trace
  exact ⟨new, htrace, halternates⟩

/-- What an acknowledgement has cleared, the same mask does not find again. -/
theorem Via.acked_unlatch_acked (via : Via) (v : Byte) : (via.unlatch (via.acked v)).acked v = 0#8 := by
  apply BitVec.eq_of_getLsbD_eq
  intro k hk
  rw [Via.acked_bit _ _ k hk, Via.unlatch_bit _ _ k hk, Via.acked_bit _ _ k hk]
  cases v.getLsbD k <;> cases via.irqActive.getLsbD k <;> simp

theorem Via.unlatch_zero (via : Via) : via.unlatch 0#8 = via := by
  rw [Via.unlatch, BitVec.not_zero, BitVec.and_allOnes]

theorem shiftTx_not_mem_levelChange (c : Byte) (before : Bool) (via : Via) : Event.shiftTx c ∉ levelChange before via := by
  unfold levelChange
  split <;> simp

section Transmission

variable {s : State} (hready : s.Ready) (a : BusAddr) (b v : Byte)
include hready

/-- A write in mode OUT queues the byte and latches its source; it transmits nothing (41_via.md R193). -/
theorem exec_viaWrSr_queues (hout : srMode s.cfg (s.via.get 11) = .out) (hsr : s.cfg.ifrSr ≤ 6) : ∃ t : State,
    exec (.viaWrSr a b) s = .next t ∧ t.Ready ∧ t.cfg = s.cfg ∧ t.via.shiftPending = some b ∧
      t.via.irqActive.getLsbD s.cfg.ifrSr = true ∧
      ∃ earlier, t.trace = s.trace ++ earlier ∧ ∀ c, Event.shiftTx c ∉ earlier := by
  have hrule := (writeSr_of_out a b hout).trans (writeSrOut_eq a b)
  refine ⟨_, exec_viaWriteRow_of_rule hready 10 a b hrule, hready, rfl, rfl, ?latched, _, List.append_assoc ..,
    fun c => ?silent⟩
  case latched =>
    have hbit := s.via.latch_bit s.cfg.ifrSr s.cfg.ifrSr (by omega)
    rwa [decide_eq_true rfl, Bool.or_true] at hbit
  case silent =>
    rw [List.mem_append, not_or]
    refine ⟨?_, shiftTx_not_mem_levelChange c _ _⟩
    split <;> simp

/-- The acknowledgement of a byte's source transmits it, and leaves no acknowledged source and a settled status (R196). -/
theorem exec_viaWrIfr_transmits (hacked : s.via.acked v &&& srMask s.cfg ≠ 0#8) (hpending : s.via.shiftPending = some b) :
    ∃ t : State, exec (.viaWrIfr a v) s = .next t ∧ t.Ready ∧ t.via.Settled ∧ t.via.acked v = 0#8 ∧
      ∃ later, t.trace = s.trace ++ Event.shiftTx b :: later ∧ ∀ c, Event.shiftTx c ∉ later := by
  have hrule := writeIfr_of_release v hready.2 hacked hpending
  exact ⟨_, exec_viaWriteRow_of_rule hready 13 a v hrule, hready, rfl, s.via.acked_unlatch_acked v, _,
    List.append_assoc .., fun c => shiftTx_not_mem_levelChange c _ _⟩

/-- An acknowledgement of sources none of which is active does nothing (R196). -/
theorem exec_viaWrIfr_of_acked_eq_zero (hset : s.via.Settled) (hacked : s.via.acked v = 0#8) :
    exec (.viaWrIfr a v) s = .next (s.reply .done) := by
  have hrule : writeIfr v s = s := by
    rw [writeIfr_of_hold v (.inl (by rw [hacked, BitVec.zero_and])), hacked, Via.unlatch_zero]
  exact exec_viaWriteRow_of_settled hready 13 a v hrule hset

end Transmission

/-- Settles O34: the first acknowledgement consumes the byte the write queued and clears its source, so the second finds
nothing to clear. -/
theorem aQueuedByteIsTransmittedExactlyOnce : Obligations.AQueuedByteIsTransmittedExactlyOnce := by
  unfold Obligations.AQueuedByteIsTransmittedExactlyOnce
  intro s a b v hready _ hsr hout hv
  obtain ⟨t0, hwrite, hready0, hcfg0, hqueued, hlatched, hearlier⟩ := exec_viaWrSr_queues hready a b hout hsr
  rw [← hcfg0] at hsr hv hlatched
  have hacked : t0.via.acked v &&& srMask t0.cfg ≠ 0#8 := by
    rw [ne_eq, acked_and_srMask_eq_zero v hsr, hv, hlatched]
    simp
  obtain ⟨t1, hfirst, hready1, hset1, hnone, hlater⟩ := exec_viaWrIfr_transmits hready0 a b v hacked hqueued
  exact ⟨t0, t1, _, hwrite, hfirst, exec_viaWrIfr_of_acked_eq_zero hready1 a v hset1 hnone, hearlier, hlater, rfl⟩

end Sys2Proof.Machine
end

section
/-! SUPPORT. Every transaction under consumers that re-enter: it runs as under quiet ones, and at its end it has stopped
exactly if it emitted the event whose consumer re-enters (41_via.md R216). -/

namespace Sys2Proof.Machine

/-- A transaction that answers a next state runs, under consumers that have not re-entered, to the same state but for what these
have seen, and ends as that state says. -/
def EndsAsSeen (call : State → Host.Outcome State Fault Refusal) : Prop :=
  ∀ s t c, c ≠ .reentered → call s = .next t → ∃ t', Sees s t c t' ∧ call (s.withConsumers c) = finish t'

theorem SeesConsumers.endsAsSeen {f : State → State} (hf : SeesConsumers f) : EndsAsSeen fun s => finish (f s) := by
  intro s t c _ h
  obtain ⟨rfl, -⟩ := finish_eq_next h
  exact ⟨_, hf s c, rfl⟩

/-- A call that a waiting trap blocks changes nothing, whatever the consumers. -/
theorem EndsAsSeen.onThread {call : State → Host.Outcome State Fault Refusal} (hcall : EndsAsSeen call) :
    EndsAsSeen fun s => onThread s call := by
  intro s t c hc h
  have hwait : (s.withConsumers c).trapWait = s.trapWait := rfl
  obtain ⟨w, hw, rfl⟩ | ⟨hfree, h⟩ := onThread_eq_next h
  · exact ⟨_, .none rfl rfl, (onThread_blocked (hwait.trans hw) call).trans (finish_of_not_reentered hc).symm⟩
  · obtain ⟨t', hsees, hend⟩ := hcall s t c hc h
    exact ⟨t', hsees, (onThread_free (hwait.trans hfree)).trans hend⟩

section Returns

variable {f : State → Option Byte × State} {g : State → Bool × State}

theorem AnswersBlindly.endsAsSeen_returnByte (hf : AnswersBlindly f) : EndsAsSeen fun s => returnByte (f s) := by
  intro s t c _ h
  obtain ⟨hanswer, hsees⟩ := hf s c
  unfold returnByte at h ⊢
  dsimp only at h ⊢
  rw [hanswer]
  cases hbyte : (f s).1 with
  | none => rw [hbyte] at h; obtain ⟨rfl, -⟩ := finish_eq_next h; exact ⟨_, hsees, rfl⟩
  | some b => rw [hbyte] at h; obtain ⟨rfl, -⟩ := finish_eq_next h; exact ⟨_, hsees.trans (sees_reply _) rfl, rfl⟩

theorem AnswersBlindly.endsAsSeen_returnDone (hg : AnswersBlindly g) : EndsAsSeen fun s => returnDone (g s) := by
  intro s t c _ h
  obtain ⟨hanswer, hsees⟩ := hg s c
  unfold returnDone at h ⊢
  dsimp only at h ⊢
  rw [hanswer]
  cases hdone : (g s).1 with
  | false => rw [hdone] at h; obtain ⟨rfl, -⟩ := finish_eq_next h; exact ⟨_, hsees, rfl⟩
  | true => rw [hdone] at h; obtain ⟨rfl, -⟩ := finish_eq_next h; exact ⟨_, hsees.trans (sees_reply _) rfl, rfl⟩

end Returns

theorem endsAsSeen_answer (resp : Answer) : EndsAsSeen (answer resp) := by
  intro s t c hc h
  unfold answer at h ⊢
  rw [show (s.withConsumers c).trapWait = s.trapWait from rfl]
  cases hw : s.trapWait with
  | none => rw [hw] at h; cases h
  | some w => rw [hw] at h; exact ((sees_trapReturn resp).comp (sees_resumeCall w.resume)).endsAsSeen s t c hc h

/-- A hook looks at the single-step flag and at nothing the consumers change (43_debug.md R264). -/
theorem endsAsSeen_hook (pc : Long) : EndsAsSeen (exec (.hook pc)) := by
  refine EndsAsSeen.onThread fun s t c hc h => ?_
  rw [show (s.withConsumers c).singleStepArmed = s.singleStepArmed from rfl]
  split at h
  · next harmed =>
    rw [if_pos harmed]
    exact (blind_trap .singleStep pc .hook).endsAsSeen_returnDone s t c hc h
  · next hclear =>
    rw [if_neg hclear]
    exact (sees_reply .done).endsAsSeen s t c hc h

/-- A value and a silent state do not look at the consumers. -/
theorem AnswersBlindly.pure {α : Type} {f : State → α} (hf : ∀ s c, f (s.withConsumers c) = f s) :
    AnswersBlindly fun s => (f s, s) :=
  fun s c => ⟨hf s c, .none rfl rfl⟩

/-- An operation whose answer is a constant. -/
theorem SeesConsumers.answers {α : Type} {f : State → State} (hf : SeesConsumers f) (x : α) :
    AnswersBlindly fun s => (x, f s) :=
  fun s c => ⟨rfl, hf s c⟩

/-- A handler that always has its byte. -/
theorem AnswersBlindly.always {f : State → Byte × State} (hf : AnswersBlindly f) : AnswersBlindly fun s => always (f s) :=
  hf.map some

section Rows

variable {f : State → Option Byte × State} {g : State → Bool × State}

theorem AnswersBlindly.readRow (hf : AnswersBlindly f) : EndsAsSeen fun s => onThread s fun s => returnByte (f s) :=
  hf.endsAsSeen_returnByte.onThread

theorem AnswersBlindly.writeRow (hg : AnswersBlindly g) : EndsAsSeen fun s => onThread s fun s => returnDone (g s) :=
  hg.endsAsSeen_returnDone.onThread

end Rows

theorem endsAsSeen_memRead (w : Width) (addrs : List Long) :
    EndsAsSeen fun s => onThread s fun s => finish (memRead w addrs 0 s) := (sees_memRead w addrs 0).endsAsSeen.onThread

theorem endsAsSeen_memWrite (writes : List (Long × Byte)) :
    EndsAsSeen fun s => onThread s fun s => finish (memWrite writes s) := (sees_memWrite writes).endsAsSeen.onThread

theorem endsAsSeen_iwmReadRow (i : RegIdx) :
    EndsAsSeen fun s => onThread s fun s => returnByte (some (iwmRead i s), s) :=
  (AnswersBlindly.pure (f := fun s => some (iwmRead i s)) fun _ _ => rfl).readRow

theorem endsAsSeen_viaReadRow (i : RegIdx) : EndsAsSeen fun s => onThread s fun s => returnByte (always (viaRead i s)) :=
  (blind_viaRead i).always.readRow

theorem endsAsSeen_viaWriteRow (i : RegIdx) (a : BusAddr) (v : Byte) :
    EndsAsSeen fun s => onThread s fun s => returnDone (true, viaWrite i a v s) :=
  ((sees_viaWrite i a v).answers true).writeRow

/-- Every transaction, by its handler. -/
theorem exec_endsAsSeen (i : Instr) : EndsAsSeen (exec i) := by
  cases i
  case rb | rw | rl => exact endsAsSeen_memRead _ _
  case wb | ww | wl => exact endsAsSeen_memWrite _
  case iwmRdSenseOnes | iwmRdSenseNib | iwmRd => exact endsAsSeen_iwmReadRow _
  case iwmWr a v => exact ((sees_iwmWrite (regIndex a) a v).answers true).writeRow
  case sccRRd a | sccWRd a => exact (blind_sccRead _ a resumeByteRead).readRow
  case sccRWr a v | sccWWr a v => exact (blind_sccAccess _ a resumeByteWrite).writeRow
  case romOvlRd a => exact (AnswersBlindly.pure (f := fun s => some (s.rom.read a.toNat)) fun _ _ => rfl).readRow
  case romAliasRd a =>
    exact (AnswersBlindly.pure (f := fun s => some (s.rom.read (a.toNat - s.cfg.romAliasBase))) fun _ _ => rfl).readRow
  case romOvlWr a v | romAliasWr a v => exact (blind_romWriteRejected a resumeByteWrite).writeRow
  case ramRd a => exact (AnswersBlindly.pure (f := fun s => some (s.ram.read a.toNat)) fun _ _ => rfl).readRow
  case ramWr a v => exact ((sees_ramWrite a.toNat v).answers true).writeRow
  case unmappedRd a => exact ((sees_diag .unmappedRead a).answers (some sentinel)).readRow
  case unmappedWr a v => exact ((sees_diag .unmappedWrite a).answers true).writeRow
  case hook pc => exact endsAsSeen_hook pc
  case viaEdge1 | viaEdge2 => exact (sees_notifyEdge _).endsAsSeen
  case viaRxsr b => exact (sees_receiveShiftByte b).endsAsSeen
  case answerStep | answerOther => exact endsAsSeen_answer _
  case viaWrOrb | viaWrOra | viaWrDdrb | viaWrDdra | viaWrT1cl | viaWrT1ch | viaWrT1ll | viaWrT1lh | viaWrT2cl | viaWrT2ch |
    viaWrSr | viaWrAcr | viaWrPcr | viaWrIfr | viaWrIer | viaWrOraAlias => exact endsAsSeen_viaWriteRow _ _ _
  all_goals exact endsAsSeen_viaReadRow _ -- the sixteen VIA read rows

/-- A transaction when the consumer of the VIA event after the next `n` re-enters: it ends in the fault if it emits more than `n`
of them, and otherwise in its own next state, with that many fewer to go. -/
theorem exec_reenterAfter {s t : State} {i : Instr} {new : List Event} (n : Nat) (h : exec i s = .next t)
    (htrace : t.trace = s.trace ++ new) : exec i (s.withConsumers (.reenterAfter n)) =
      if n < new.countP Event.isVia then .fault .reentrantVia
      else .next (t.withConsumers (.reenterAfter (n - new.countP Event.isVia))) := by
  obtain ⟨t', ⟨new', htrace', rfl⟩, hend⟩ := exec_endsAsSeen i s t (.reenterAfter n) nofun h
  obtain rfl : new' = new := List.append_cancel_left (htrace'.symm.trans htrace)
  rw [hend, Consumers.after_reenterAfter]
  split <;> rfl

/-- The same from the state in which that consumer is to come, by what the transaction does under quiet ones. -/
theorem exec_of_exec_quiet {s t : State} {i : Instr} {new : List Event} {n : Nat} (hconsumer : s.consumers = .reenterAfter n)
    (h : exec i (s.withConsumers .quiet) = .next t) (htrace : t.trace = s.trace ++ new) : exec i s =
      if n < new.countP Event.isVia then .fault .reentrantVia
      else .next (t.withConsumers (.reenterAfter (n - new.countP Event.isVia))) := by
  have hs : (s.withConsumers .quiet).withConsumers (.reenterAfter n) = s := by rw [← hconsumer]; rfl
  have hrun := exec_reenterAfter n h htrace
  rwa [hs] at hrun

/-- Settles O35: a transaction's events count down to the consumer that re-enters; the port writes' events are those of O25 and
O26. -/
theorem reentrantConsumersFault : Obligations.ReentrantConsumersFault := by
  unfold Obligations.ReentrantConsumersFault
  refine ⟨fun s t i new n _ h htrace => ?transaction, fun s a v hfree hset hconsumer => ?ports⟩
  case transaction =>
    have hrun := exec_reenterAfter n h htrace
    exact ⟨fun hmore => hrun.trans (if_pos hmore), fun hfew => hrun.trans (if_neg (Nat.not_lt.mpr hfew))⟩
  case ports =>
    have hready : (s.withConsumers .quiet).Ready := ⟨hfree, rfl⟩
    obtain ⟨_, -, -, hA⟩ := portAWritesNotifyRemapAndStore _ a v hready hset
    obtain ⟨_, -, -, hB⟩ := portBWritesNotifyAndStore _ a v hready hset
    refine ⟨fun hne => ?changedB, fun hne => ?changedA, fun hsame => ?sameB⟩
    case changedB =>
      have hrun := exec_of_exec_quiet (new := [.portBChanged v]) hconsumer hB (congrArg (s.trace ++ ·) (if_neg hne))
      exact hrun.trans (if_pos Nat.zero_lt_one)
    case changedA =>
      have hfault (i : Instr) (hi : i ∈ [.viaWrOra a v, .viaWrOraAlias a v]) : exec i s = .fault .reentrantVia :=
        (exec_of_exec_quiet (new := [.portAChanged v]) hconsumer (hA i hi) (congrArg (s.trace ++ ·) (if_neg hne))).trans
          (if_pos Nat.zero_lt_one)
      exact ⟨hfault _ (.head _), hfault _ (.tail _ (.head _))⟩
    case sameB =>
      have hrun := exec_of_exec_quiet (new := []) hconsumer hB (congrArg (s.trace ++ ·) (if_pos hsame))
      exact ⟨_, hrun.trans (if_neg (Nat.lt_irrefl 0))⟩

end Sys2Proof.Machine
end

section
/-! SUPPORT. The IWM rows in a machine that is ready for a call: each is one register operation of the index `A[12:9]`
(42_iwm.md R240, R241) and the reply. -/

namespace Sys2Proof.Machine

variable {s : State}

/-! ### The register operations -/

theorem iwmRead_of_senseOnes {i : RegIdx} (hones : i = s.cfg.iwmSenseOnes) : iwmRead i s = 0xFF#8 := if_pos hones

theorem iwmRead_of_senseNib {i : RegIdx} (hnib : i = s.cfg.iwmSenseNib) (hones : i ≠ s.cfg.iwmSenseOnes) :
    iwmRead i s = s.cfg.iwmSenseNibVal := (if_neg hones).trans (if_pos hnib)

theorem iwmRead_of_not_sense {i : RegIdx} (hones : i ≠ s.cfg.iwmSenseOnes) (hnib : i ≠ s.cfg.iwmSenseNib) :
    iwmRead i s = s.iwm[i.toNat]'i.isLt := (if_neg hones).trans (if_neg hnib)

/-- The whole effect of a write: the store does not depend on the index, the diagnostic does (R240, R243). -/
theorem iwmWrite_eq (i : RegIdx) (a : BusAddr) (v : Byte) (s : State) : iwmWrite i a v s = { s with
    iwm := s.iwm.set i.toNat v i.isLt
    trace := s.trace ++ (if i ∈ s.cfg.iwmKnown then [] else [.diag .iwmUnhandled a]) } := by
  by_cases hknown : i ∈ s.cfg.iwmKnown
  · simp only [iwmWrite, if_pos hknown, List.append_nil]
  · simp only [iwmWrite, if_neg hknown]
    rfl

/-- A slot after a store into the slot of `i`: every other one keeps its byte. -/
theorem iwm_slot_set (slots : Vector Byte 16) (i j : RegIdx) (v : Byte) :
    (slots.set i.toNat v i.isLt)[j.toNat]'j.isLt = if j = i then v else slots[j.toNat]'j.isLt := by
  simp only [Vector.getElem_set, BitVec.toNat_inj, eq_comm]

/-! ### The rows -/

/-- The three read rows have one handler, which finds the row's own case again by the index. -/
theorem exec_iwmReadRow_of_ready (hready : s.Ready) (a : BusAddr) {row : Instr}
    (hrow : row ∈ [.iwmRdSenseOnes a, .iwmRdSenseNib a, .iwmRd a]) :
    exec row s = .next { s with replies := s.replies ++ [.u8 (iwmRead (regIndex a) s)] } := by
  have hhandler : exec row s = onThread s fun s => returnByte (some (iwmRead (regIndex a) s), s) := by
    simp only [List.mem_cons, List.not_mem_nil, or_false] at hrow
    obtain rfl | rfl | rfl := hrow <;> rfl
  rw [hhandler, onThread_of_ready hready]
  exact returnByte_some hready.2 _

theorem exec_iwmWr (a : BusAddr) (v : Byte) (s : State) :
    exec (.iwmWr a v) s = onThread s fun s => returnDone (true, iwmWrite (regIndex a) a v s) := rfl

/-- Settles O19: the slots are those after the one store, whatever the index. -/
theorem iwmWritesStoreAndLogUnknownIndices : Obligations.IwmWritesStoreAndLogUnknownIndices := by
  unfold Obligations.IwmWritesStoreAndLogUnknownIndices
  refine fun s a v hready =>
    ⟨s.iwm.set (regIndex a).toNat v (regIndex a).isLt, ?effect, fun i => iwm_slot_set s.iwm (regIndex a) i v⟩
  rw [exec_iwmWr, onThread_of_ready hready, iwmWrite_eq]
  exact returnDone_true hready.2

/-- Settles O18: each row's condition on the index is one case of the read. -/
theorem iwmReadsAnswerSenseOrStoredByte : Obligations.IwmReadsAnswerSenseOrStoredByte := by
  unfold Obligations.IwmReadsAnswerSenseOrStoredByte
  refine fun s a hready => ⟨fun hones => ?ones, fun hnib hones => ?nib, fun hones hnib => ?stored⟩
  case ones => rw [exec_iwmReadRow_of_ready hready a (by simp), iwmRead_of_senseOnes hones]
  case nib => rw [exec_iwmReadRow_of_ready hready a (by simp), iwmRead_of_senseNib hnib hones]
  case stored => rw [exec_iwmReadRow_of_ready hready a (by simp), iwmRead_of_not_sense hones hnib]

end Sys2Proof.Machine
end

section
/-! SUPPORT. Bytes that are read or written one after another as the beginning of a longer access, and the byte that stops it in
a trap: the access is these bytes in turn, with what other agents do between them (20_memory.md R71, R81, 60_exceptions.md
R286). -/

namespace Sys2Proof.Machine

/-! ### One byte -/

/-- What the end of a byte read can be: its byte, or the wait in its trap. -/
theorem returnByte_eq_next {r : Option Byte × State} {t : State} (h : returnByte r = .next t) :
    ((∃ b, r.1 = some b ∧ t = r.2.reply (.u8 b)) ∨ r.1 = none ∧ t = r.2) ∧ t.consumers ≠ .reentered := by
  unfold returnByte at h
  split at h
  · next b hb => obtain ⟨rfl, hc⟩ := finish_eq_next h; exact ⟨.inl ⟨b, hb, rfl⟩, hc⟩
  · next hb => obtain ⟨rfl, hc⟩ := finish_eq_next h; exact ⟨.inr ⟨hb, rfl⟩, hc⟩

/-- Whether a byte read stops in a trap does not depend on what its caller still has to do. -/
theorem byteRead_stopped_resume {addr : Long} {resume : Resume} (resume' : Resume) {s : State}
    (h : (byteRead addr resume s).1 = none) : (byteRead addr resume' s).1 = none := by
  by_contra hbyte
  rw [← byteRead_resume resume (Option.isSome_iff_ne_none.mpr hbyte)] at hbyte
  exact hbyte h

/-- The same for a byte write. -/
theorem byteWrite_stopped_resume {addr : Long} {v : Byte} {resume : Resume} (resume' : Resume) {s : State}
    (h : (byteWrite addr v resume s).1 = false) : (byteWrite addr v resume' s).1 = false := by
  by_contra hdone
  rw [← byteWrite_resume resume (Bool.not_eq_false _ ▸ hdone)] at hdone
  exact hdone h

/-- No consumer re-enters in a byte call that answers a next state. -/
theorem consumers_of_exec_rb {a : Long} {s t : State} (hfree : s.trapWait = none) (h : exec (.rb a) s = .next t) :
    t.consumers ≠ .reentered :=
  (completed_of_read hfree ((exec_rb a s).symm.trans h)).consumers

theorem consumers_of_exec_wb {a : Long} {b : Byte} {s t : State} (hfree : s.trapWait = none)
    (h : exec (.wb a b) s = .next t) : t.consumers ≠ .reentered :=
  (completed_of_write hfree ((exec_wb a b s).symm.trans h)).consumers

/-! ### Reads -/

section ReadByte

variable {a : Long} {s t : State} (hfree : s.trapWait = none) (h : exec (.rb a) s = .next t)
include hfree h

/-- A read whose first byte `read_byte` returns goes on with the bytes after it. -/
theorem memRead_cons_of_exec {b : Byte} (hreturned : t.trapWait = none) (hreply : t.replies = s.replies ++ [.u8 b])
    (w : Width) (acc : Long) (rest : List Long) : memRead w (a :: rest) acc s =
      memRead w rest (shiftIn acc b) (boundary (!rest.isEmpty) (t.withReplies s.replies)) := by
  obtain ⟨bs, hread⟩ := hasRead_of_exec hfree (List.cons_ne_nil _ _) ((exec_rb a s).symm.trans h) hreturned
  obtain ⟨b', rfl⟩ := List.length_eq_one_iff.mp hread.length
  have hreplies := hread.replies.symm.trans hreply
  rw [List.foldl_cons, List.foldl_nil, reply_byte] at hreplies
  obtain rfl : b' = b := by simpa using hreplies
  exact hread.continues s.replies w acc rest

/-- A read whose first byte waits in its trap waits there, with the bytes before and after it. -/
theorem memRead_cons_of_exec_waits {x : TrapWait} (hwaits : t.trapWait = some x) (w : Width) (acc : Long) (rest : List Long) :
    memRead w (a :: rest) acc s = { t with trapWait := some { x with resume := .read w acc rest } } := by
  rw [exec_rb, onThread_free hfree, finish_memRead_byte] at h
  obtain ⟨⟨b, hbyte, rfl⟩ | ⟨hstopped, rfl⟩, -⟩ := returnByte_eq_next h
  · rw [State.reply_trapWait, byteRead_running (Option.isSome_of_eq_some hbyte), hfree] at hwaits
    cases hwaits
  · have hstopped' := byteRead_stopped_resume (.read w acc rest) hstopped
    obtain ⟨y, hy, hstate⟩ := byteRead_waits resumeByteRead hstopped'
    cases hwaits.symm.trans hy
    rw [memRead, hstopped']
    exact hstate

end ReadByte

/-- Bytes that `read_byte` returns in turn, as the beginning of a longer read. -/
theorem ReadsBytes.memRead_append {as : List Long} {s u : State} {bs : List Byte} (h : ReadsBytes as s bs u)
    (hfree : s.trapWait = none) : u.trapWait = none ∧
      ∀ (w : Width) (acc : Long) (rest : List Long), rest ≠ [] →
        memRead w (as ++ rest) acc s = memRead w rest (bs.foldl shiftIn acc) u := by
  induction as generalizing s bs with
  | nil =>
    obtain ⟨rfl, rfl⟩ := h
    exact ⟨hfree, fun _ _ _ _ => rfl⟩
  | cons a as ih =>
    obtain ⟨b, bs, t, v, rfl, hexec, hreturned, hreply, hbetween, hrest⟩ := h
    obtain ⟨hu, hcontinues⟩ := ih hrest (hbetween.trapWait_eq.trans hreturned)
    refine ⟨hu, fun w acc rest hne => ?_⟩
    have hmore : (!(as ++ rest).isEmpty) = true := by simp [hne]
    have hv : boundary true (t.withReplies s.replies) = v := hbetween.eq_boundary.1.symm
    rw [List.cons_append, memRead_cons_of_exec hfree hexec hreturned hreply, hmore, hv]
    exact hcontinues w _ rest hne

/-! ### Writes -/

/-- A write whose first byte waits in its trap waits there, with the bytes after it. -/
theorem memWrite_cons_of_exec_waits {y : Long × Byte} {s t : State} (hfree : s.trapWait = none)
    (h : exec (.wb y.1 y.2) s = .next t) {x : TrapWait} (hwaits : t.trapWait = some x) (rest : List (Long × Byte)) :
    memWrite (y :: rest) s = { t with trapWait := some { x with resume := .write rest } } := by
  rw [exec_wb, onThread_free hfree, finish_memWrite_byte] at h
  obtain ⟨⟨hdone, rfl⟩ | ⟨hstopped, rfl⟩, -⟩ := returnDone_eq_next h
  · rw [State.reply_trapWait, byteWrite_running hdone, hfree] at hwaits
    cases hwaits
  · have hstopped' := byteWrite_stopped_resume (.write rest) hstopped
    obtain ⟨z, hz, hstate⟩ := byteWrite_waits resumeByteWrite hstopped'
    cases hwaits.symm.trans hz
    rw [memWrite, hstopped']
    exact hstate

/-- Bytes that `write_byte` writes in turn, as the beginning of a longer write. -/
theorem WritesBytes.memWrite_append {xs : List (Long × Byte)} {s u : State} (h : WritesBytes xs s u)
    (hfree : s.trapWait = none) : u.trapWait = none ∧
      ∀ rest : List (Long × Byte), rest ≠ [] → memWrite (xs ++ rest) s = memWrite rest u := by
  induction xs generalizing s with
  | nil =>
    cases h
    exact ⟨hfree, fun _ _ => rfl⟩
  | cons x xs ih =>
    obtain ⟨t, v, hexec, hreturned, hbetween, hrest⟩ := h
    obtain ⟨hu, hcontinues⟩ := ih hrest (hbetween.trapWait_eq.trans hreturned)
    refine ⟨hu, fun rest hne => ?_⟩
    have hwritten := hasWritten_of_exec hfree (List.cons_ne_nil _ _) ((exec_wb x.1 x.2 s).symm.trans hexec) hreturned
    have hmore : (!(xs ++ rest).isEmpty) = true := by simp [hne]
    have hfirst := hwritten.continues s.replies (xs ++ rest)
    have hv : boundary true (t.withReplies s.replies) = v := hbetween.eq_boundary.1.symm
    rw [State.withReplies_self, hmore, hv] at hfirst
    exact hfirst.trans (hcontinues rest hne)

end Sys2Proof.Machine
end

section
/-! SUPPORT. What an operator's answer does: the wait is over, the flag is set, and the call that waited goes on (43_debug.md
R262, R263). -/

namespace Sys2Proof.Machine

section Answers

variable {s : State} {w : TrapWait} (resp : Answer)

/-- An answer ends the wait and releases the call. -/
theorem exec_answer (hw : s.trapWait = some w) :
    exec resp.instr s = finish (resumeCall w.resume (s.answered resp)) := by
  have hanswer : exec resp.instr s = answer resp s := by cases resp <;> rfl
  rw [hanswer, answer, hw, ← trapReturn_eq]

variable (hquiet : s.consumers = .quiet) (hw : s.trapWait = some w)
include hquiet hw

/-- The released call runs from the state after the answer, and writes neither the flag nor what was returned before. -/
theorem exec_answer_evolves : ∃ t, exec resp.instr s = .next t ∧ Evolves (s.answered resp) t := by
  have hevolves := evolves_resumeCall w.resume (s.answered resp)
  rw [exec_answer resp hw, finish_of_quiet (hevolves.quiet hquiet)]
  exact ⟨_, rfl, hevolves⟩

/-- A read whose last byte waited returns. -/
theorem exec_answer_of_last_read {width : Width} {acc : Long} (hresume : w.resume = .read width acc []) :
    exec resp.instr s = .next ((s.answered resp).reply (width.reply (shiftIn acc sentinel))) := by
  rw [exec_answer resp hw, hresume]
  exact finish_of_quiet hquiet

/-- A write whose last byte waited returns. -/
theorem exec_answer_of_last_write (hresume : w.resume = .write []) :
    exec resp.instr s = .next ((s.answered resp).reply .done) := by
  rw [exec_answer resp hw, hresume]
  exact finish_of_quiet hquiet

/-- A hook that waited returns, and lets the instruction go (43_debug.md R263, R264). -/
theorem exec_answer_of_hook (hresume : w.resume = .hook) : exec resp.instr s = .next ((s.answered resp).reply .done) := by
  rw [exec_answer resp hw, hresume]
  exact finish_of_quiet hquiet

end Answers

section GoesOn

variable {s v : State} {w : TrapWait} (resp : Answer) (hw : s.trapWait = some w) (hbetween : Between (s.answered resp) v)
include hw hbetween

/-- A read with bytes left goes on with them, after what the other agents do. -/
theorem exec_answer_of_read {width : Width} {acc : Long} {rest : List Long} (hresume : w.resume = .read width acc rest)
    (hne : rest ≠ []) : exec resp.instr s = finish (memRead width rest (shiftIn acc sentinel) v) := by
  have hmore : (!rest.isEmpty) = true := by simpa using hne
  rw [exec_answer resp hw, hresume, resumeCall, hmore, ← hbetween.eq_boundary.1]

/-- A write with bytes left goes on with them, after what the other agents do. -/
theorem exec_answer_of_write {rest : List (Long × Byte)} (hresume : w.resume = .write rest) (hne : rest ≠ []) :
    exec resp.instr s = finish (memWrite rest v) := by
  have hmore : (!rest.isEmpty) = true := by simpa using hne
  rw [exec_answer resp hw, hresume, resumeCall, hmore, ← hbetween.eq_boundary.1]

end GoesOn

/-- Settles O60: the bytes that remain are a read or write of their own, and `read_byte` and `write_byte` say how each ends. -/
theorem stoppedCallsGoOnWithTheirOtherBytes : Obligations.StoppedCallsGoOnWithTheirOtherBytes := by
  unfold Obligations.StoppedCallsGoOnWithTheirOtherBytes
  intro s w resp hquiet hw
  refine ⟨fun _ _ => exec_answer_of_last_read resp hquiet hw, exec_answer_of_last_write resp hquiet hw, ?reads, ?writes⟩
  case reads =>
    intro width acc pre post a bs v u t hresume hbetween hpre hexec
    obtain ⟨hfree, hcontinues⟩ := hpre.memRead_append hbetween.trapWait_eq
    have hrest : exec resp.instr s = finish (memRead width (a :: post) ((0xFF#8 :: bs).foldl shiftIn acc) u) := by
      rw [exec_answer_of_read resp hw hbetween hresume (by simp), hcontinues _ _ _ (List.cons_ne_nil _ _)]
      rfl
    have hconsumers : t.consumers ≠ .reentered := consumers_of_exec_rb hfree hexec
    rw [hrest]
    refine ⟨fun b hpost hreturned hreply => ?returns, fun w' hwaits => ?waits⟩
    case returns =>
      subst hpost
      rw [memRead_cons_of_exec hfree hexec hreturned hreply, List.foldl_append]
      exact finish_of_not_reentered hconsumers
    case waits =>
      rw [memRead_cons_of_exec_waits hfree hexec hwaits]
      exact finish_of_not_reentered hconsumers
  case writes =>
    intro pre post y v u t hresume hbetween hpre hexec
    obtain ⟨hfree, hcontinues⟩ := hpre.memWrite_append hbetween.trapWait_eq
    have hrest : exec resp.instr s = finish (memWrite (y :: post) u) := by
      rw [exec_answer_of_write resp hw hbetween hresume (by simp), hcontinues _ (List.cons_ne_nil _ _)]
    have hconsumers : t.consumers ≠ .reentered := consumers_of_exec_wb hfree hexec
    rw [hrest]
    refine ⟨fun hpost _ => ?returns, fun w' hwaits => ?waits⟩
    case returns =>
      subst hpost
      rw [← hexec, exec_wb, onThread_free hfree]
    case waits =>
      rw [memWrite_cons_of_exec_waits hfree hexec hwaits]
      exact finish_of_not_reentered hconsumers

/-- Settles O47: the call the answer releases keeps the flag and adds to what was returned. -/
theorem answersSetTheSingleStepFlag : Obligations.AnswersSetTheSingleStepFlag := by
  unfold Obligations.AnswersSetTheSingleStepFlag
  intro s w hquiet hw
  have hanswer (resp : Answer) : ∃ t more, exec resp.instr s = .next t ∧ t.singleStepArmed = (resp == .step) ∧
      t.replies = s.replies ++ .trapReturned (resp == .other) :: more := by
    obtain ⟨t, hexec, hevolves⟩ := exec_answer_evolves resp hquiet hw
    obtain ⟨more, hmore⟩ := hevolves.replies
    rw [State.answered_replies, List.append_assoc] at hmore
    exact ⟨t, more, hexec, hevolves.armed, hmore⟩
  exact ⟨hanswer .step, hanswer .other⟩

theorem State.answered_reply (s : State) (resp : Answer) (r : Reply) : (s.answered resp).reply r = { s with
    trapWait := none, singleStepArmed := resp == .step
    replies := s.replies ++ [.trapReturned (resp == .other), r] } := by
  rw [State.reply_eq, State.answered_replies, List.append_assoc]
  rfl

/-- Settles O17: the byte that waited is the whole call. -/
theorem anAnsweredAccessCompletesWithItsSentinel : Obligations.AnAnsweredAccessCompletesWithItsSentinel := by
  unfold Obligations.AnAnsweredAccessCompletesWithItsSentinel
  intro s label addr resp hquiet
  refine ⟨fun hw => ?read, fun hw => ?write⟩
  case read => rw [exec_answer_of_last_read resp hquiet hw rfl, reply_byte, State.answered_reply]; rfl
  case write => rw [exec_answer_of_last_write resp hquiet hw rfl, State.answered_reply]

end Sys2Proof.Machine
end

section
/-! SUPPORT. The instruction hook, and what a trap displays (43_debug.md R261, R264). -/

namespace Sys2Proof.Machine

theorem queryRegs_length (n : Nat) (ids : List Nat) : (queryRegs n ids).length = ids.length := by
  induction ids generalizing n with
  | nil => rfl
  | cons id ids ih => exact congrArg (· + 1) (ih (n + 1))

/-- The display's registers, in the order of their ids: each is one query to the CPU. -/
theorem queryRegs_getElem? (n k : Nat) (ids : List Nat) :
    (queryRegs n ids)[k]? = ids[k]?.map fun id => (id, Config.cpuRegister (n + k) id) := by
  induction ids generalizing n k with
  | nil => rfl
  | cons id ids ih =>
    cases k with
    | zero => rfl
    | succ k => rw [queryRegs, List.getElem?_cons_succ, List.getElem?_cons_succ, ih, Nat.add_right_comm, Nat.add_assoc]

/-- A hook that waits in its trap, after the display (R261). -/
def State.hookWait (s : State) (pc : Long) : State :=
  { s with
    trace := s.trace ++ [.trap (s.display .singleStep pc)]
    queries := s.queries + 2 + s.cfg.cpuRegIds.length
    trapWait := some { label := .singleStep, addr := pc, resume := .hook } }

section Hooks

variable {s : State} (hready : s.Ready) (pc : Long)
include hready

theorem exec_hook_of_disarmed (harmed : s.singleStepArmed = false) : exec (.hook pc) s = .next (s.reply .done) := by
  rw [exec_hook, onThread_of_ready hready, harmed]
  exact finish_of_quiet hready.2

theorem exec_hook_of_noop (hsink : s.cfg.debugSink = .noop) : exec (.hook pc) s = .next (s.reply .done) := by
  have htrap : trap .singleStep pc .hook s = (true, s) := by rw [trap, hsink]
  rw [exec_hook, onThread_of_ready hready, htrap, ite_self]
  exact finish_of_quiet hready.2

theorem exec_hook_of_armed (harmed : s.singleStepArmed = true) (hsink : s.cfg.debugSink = .interactive) :
    exec (.hook pc) s = .next (s.hookWait pc) := by
  have htrap : trap .singleStep pc .hook s = (false, s.hookWait pc) := by rw [trap, hsink]; rfl
  rw [exec_hook, onThread_of_ready hready, if_pos harmed, htrap]
  exact returnDone_false hready.2

end Hooks

/-- Settles O46: the hook in its three cases, and a display field by field. -/
theorem hooksTrapWhileArmed : Obligations.HooksTrapWhileArmed := by
  unfold Obligations.HooksTrapWhileArmed
  refine ⟨fun s pc hready => ⟨?quiet, fun harmed hsink => ?traps⟩, fun s label addr => ?display⟩
  case quiet =>
    rintro (harmed | hsink)
    · exact exec_hook_of_disarmed hready pc harmed
    · exact exec_hook_of_noop hready pc hsink
  case traps =>
    refine ⟨_, exec_hook_of_armed hready pc harmed hsink, rfl, fun resp => ?_⟩
    have hanswer := exec_answer_of_hook (s := s.hookWait pc) resp hready.2 rfl rfl
    rwa [State.answered_reply] at hanswer
  case display =>
    refine ⟨rfl, rfl, rfl, rfl, queryRegs_length _ _, fun k id hid => ?_⟩
    have hreg : (s.display label addr).regs[k]? = _ := queryRegs_getElem? (s.queries + 2) k s.cfg.cpuRegIds
    rw [hreg, hid]
    rfl

end Sys2Proof.Machine
end

section
/-! SUPPORT. Every transaction but an answer runs as the operations of the block do, and so leaves the single-step flag as it is
(43_debug.md R266). -/

namespace Sys2Proof.Machine

/-! ### How a transaction's handler runs -/

section Handlers

variable {s t : State}

theorem Evolves.of_finish {u : State} (hu : Evolves s u) (h : finish u = .next t) : Evolves s t :=
  (finish_eq_next h).1 ▸ hu

theorem Evolves.of_returnByte {r : Option Byte × State} (hr : Evolves s r.2) (h : returnByte r = .next t) : Evolves s t := by
  obtain ⟨⟨_, -, rfl⟩ | ⟨-, rfl⟩, -⟩ := returnByte_eq_next h
  · exact hr.trans (evolves_reply _ _)
  · exact hr

theorem Evolves.of_returnDone {r : Bool × State} (hr : Evolves s r.2) (h : returnDone r = .next t) : Evolves s t := by
  obtain ⟨⟨-, rfl⟩ | ⟨-, rfl⟩, -⟩ := returnDone_eq_next h
  · exact hr.trans (evolves_reply _ _)
  · exact hr

/-- A call that a waiting trap blocks changes nothing. -/
theorem Evolves.of_onThread {call : State → Host.Outcome State Fault Refusal} (hcall : call s = .next t → Evolves s t)
    (h : onThread s call = .next t) : Evolves s t := by
  obtain ⟨_, -, rfl⟩ | ⟨-, h⟩ := onThread_eq_next h
  · exact .refl t
  · exact hcall h

theorem Evolves.of_readRow {handler : State → Option Byte × State} (hrow : Evolves s (handler s).2)
    (h : onThread s (fun s => returnByte (handler s)) = .next t) : Evolves s t := .of_onThread hrow.of_returnByte h

theorem Evolves.of_writeRow {handler : State → Bool × State} (hrow : Evolves s (handler s).2)
    (h : onThread s (fun s => returnDone (handler s)) = .next t) : Evolves s t := .of_onThread hrow.of_returnDone h

theorem evolves_of_read {w : Width} {addrs : List Long} {acc : Long}
    (h : onThread s (fun s => finish (memRead w addrs acc s)) = .next t) : Evolves s t :=
  .of_onThread (evolves_memRead w addrs acc s).of_finish h

theorem evolves_of_write {writes : List (Long × Byte)}
    (h : onThread s (fun s => finish (memWrite writes s)) = .next t) : Evolves s t :=
  .of_onThread (evolves_memWrite writes s).of_finish h

theorem evolves_of_exec_hook {pc : Long} (h : exec (.hook pc) s = .next t) : Evolves s t := by
  rw [exec_hook] at h
  refine .of_onThread (fun h => ?_) h
  split at h
  · exact (evolves_trap .singleStep pc .hook s).of_returnDone h
  · exact (Evolves.refl s).of_returnDone (r := (true, s)) h

end Handlers

/-- Every transaction but an answer, by its handler. -/
theorem evolves_of_exec {i : Instr} {s t : State} (hagent : i.agent ≠ .operator) (h : exec i s = .next t) : Evolves s t := by
  cases i
  case rb | rw | rl => exact evolves_of_read h
  case wb | ww | wl => exact evolves_of_write h
  case iwmRdSenseOnes a | iwmRdSenseNib a | iwmRd a =>
    exact .of_readRow (handler := fun s => (some (iwmRead (regIndex a) s), s)) (.refl s) h
  case iwmWr a v =>
    exact .of_writeRow (handler := fun s => (true, iwmWrite (regIndex a) a v s)) (evolves_iwmWrite _ a v s) h
  case sccRRd a | sccWRd a => exact .of_readRow (evolves_sccAccess _ a resumeByteRead s) h
  case sccRWr a v | sccWWr a v => exact .of_writeRow (evolves_sccAccess _ a resumeByteWrite s) h
  case romOvlRd a => exact .of_readRow (handler := fun s => always (romRead a.toNat s)) (.refl s) h
  case romAliasRd a =>
    exact .of_readRow (handler := fun s => always (romRead (a.toNat - s.cfg.romAliasBase) s)) (.refl s) h
  case romOvlWr a v | romAliasWr a v => exact .of_writeRow (evolves_romWriteRejected a resumeByteWrite s) h
  case ramRd a => exact .of_readRow (handler := fun s => always (ramRead a.toNat s)) (.refl s) h
  case ramWr a v => exact .of_writeRow (handler := fun s => (true, ramWrite a.toNat v s)) (evolves_ramWrite _ v s) h
  case unmappedRd a => exact .of_readRow (handler := fun s => always (unmappedRead a s)) (evolves_diag _ a s) h
  case unmappedWr a v => exact .of_writeRow (handler := fun s => (true, unmappedWrite a s)) (evolves_diag _ a s) h
  case hook pc => exact evolves_of_exec_hook h
  case viaEdge1 | viaEdge2 => exact (evolves_notifyEdge _ s).of_finish h
  case viaRxsr b => exact (evolves_receiveShiftByte b s).of_finish h
  case answerStep | answerOther => exact absurd rfl hagent
  case viaWrOrb a v | viaWrOra a v | viaWrDdrb a v | viaWrDdra a v | viaWrT1cl a v | viaWrT1ch a v | viaWrT1ll a v |
    viaWrT1lh a v | viaWrT2cl a v | viaWrT2ch a v | viaWrSr a v | viaWrAcr a v | viaWrPcr a v | viaWrIfr a v | viaWrIer a v |
    viaWrOraAlias a v => exact .of_writeRow (handler := fun s => (true, viaWrite _ a v s)) (evolves_viaWrite _ a v s) h
  all_goals exact .of_readRow (handler := fun s => always (viaRead _ s)) (evolves_viaRead _ s) h -- the sixteen VIA read rows

/-- Settles O57: no operation of the block writes the flag. -/
theorem onlyAnswersWriteTheSingleStepFlag : Obligations.OnlyAnswersWriteTheSingleStepFlag := by
  unfold Obligations.OnlyAnswersWriteTheSingleStepFlag
  exact fun s t i hagent h => (evolves_of_exec hagent h).armed

end Sys2Proof.Machine
end

section
/-! SUPPORT. A wide call up to the byte that stops it in a trap (60_exceptions.md R286, R288). -/

namespace Sys2Proof.Machine

section Stops

variable {s u t : State} {w : TrapWait} (hready : s.Ready) (hw : t.trapWait = some w)
include hready hw

/-- A read whose bytes before `a` return, and whose byte at `a` waits in its trap, waits there. -/
theorem read_stops {pre post : List Long} {a : Long} {bs : List Byte} (hpre : ReadsBytes pre s bs u)
    (hexec : exec (.rb a) u = .next t) (width : Width) :
    onThread s (fun s => finish (memRead width (pre ++ a :: post) 0 s)) =
      .next { t with trapWait := some { w with resume := .read width (bs.foldl shiftIn 0) post } } := by
  obtain ⟨hfree, hcontinues⟩ := hpre.memRead_append hready.1
  have hconsumers : t.consumers ≠ .reentered := consumers_of_exec_rb hfree hexec
  rw [onThread_of_ready hready, hcontinues _ _ _ (List.cons_ne_nil _ _), memRead_cons_of_exec_waits hfree hexec hw]
  exact finish_of_not_reentered hconsumers

/-- A write whose bytes before `y` return, and whose byte `y` waits in its trap, waits there. -/
theorem write_stops {pre post : List (Long × Byte)} {y : Long × Byte} (hpre : WritesBytes pre s u)
    (hexec : exec (.wb y.1 y.2) u = .next t) :
    onThread s (fun s => finish (memWrite (pre ++ y :: post) s)) =
      .next { t with trapWait := some { w with resume := .write post } } := by
  obtain ⟨hfree, hcontinues⟩ := hpre.memWrite_append hready.1
  have hconsumers : t.consumers ≠ .reentered := consumers_of_exec_wb hfree hexec
  rw [onThread_of_ready hready, hcontinues _ (List.cons_ne_nil _ _), memWrite_cons_of_exec_waits hfree hexec hw]
  exact finish_of_not_reentered hconsumers

end Stops

/-- Settles O59: a wide call is the read or write of its bytes in address order, split at the byte that traps. -/
theorem wideCallsStopAtTheirFirstTrappingByte : Obligations.WideCallsStopAtTheirFirstTrappingByte := by
  unfold Obligations.WideCallsStopAtTheirFirstTrappingByte
  intro s u t w hready hw
  refine ⟨fun addr => ?reads, fun addr b0 b1 b2 b3 => ?writes⟩
  case reads =>
    simp only [List.forall_mem_cons]
    refine ⟨fun pre post a bs hsplit hpre hexec => ?word, fun pre post a bs hsplit hpre hexec => ?long, nofun⟩
    case word => exact (exec_rw addr s).trans (hsplit ▸ read_stops hready hw hpre hexec .word)
    case long => exact (exec_rl addr s).trans (hsplit ▸ read_stops hready hw hpre hexec .long)
  case writes =>
    simp only [List.forall_mem_cons]
    refine ⟨fun pre post y hsplit hpre hexec => ?word, fun pre post y hsplit hpre hexec => ?long, nofun⟩
    case word =>
      rw [exec_ww, byteWrites16_append, hsplit]
      exact write_stops hready hw hpre hexec
    case long =>
      rw [exec_wl, byteWrites32_append, hsplit]
      exact write_stops hready hw hpre hexec

end Sys2Proof.Machine
end

section
/-! SUPPORT. The frame of a device event, and that a trap wait ends by an answer only (60_exceptions.md R289, R296). -/

namespace Sys2Proof.Machine

/-- What a device event can change at most: the VIA, the trace, and what the consumers have seen. -/
def OnlyViaOutput (s t : State) : Prop :=
  t = { s with via := t.via, trace := t.trace, consumers := t.consumers }

theorem onlyViaOutput_reassess (s : State) : OnlyViaOutput s (reassess s) := by
  unfold reassess
  split <;> rfl

theorem onlyViaOutput_notifyEdge (line : EdgeLine) (s : State) : OnlyViaOutput s (notifyEdge line s) :=
  onlyViaOutput_reassess { s with via := s.via.latch (edgeMask s.cfg line) }

theorem onlyViaOutput_receiveShiftByte (b : Byte) (s : State) : OnlyViaOutput s (receiveShiftByte b s) := by
  unfold receiveShiftByte
  split
  · exact onlyViaOutput_reassess { s with via := (s.via.set regSr b).latch (srMask s.cfg) }
  · rfl

/-- Every transaction of the device agent, by its handler. -/
theorem onlyViaOutput_of_exec {i : Instr} {s t : State} (hagent : i.agent = .device) (h : exec i s = .next t) :
    OnlyViaOutput s t := by
  cases i
  case viaEdge1 => exact (finish_eq_next h).1 ▸ onlyViaOutput_notifyEdge .one s
  case viaEdge2 => exact (finish_eq_next h).1 ▸ onlyViaOutput_notifyEdge .two s
  case viaRxsr b => exact (finish_eq_next h).1 ▸ onlyViaOutput_receiveShiftByte b s
  all_goals cases hagent -- no other transaction is the device agent's

/-- Settles O58: a device event has its frame, and a trap that waits blocks every call of the CPU. -/
theorem deviceEventsLeaveATrapWaiting : Obligations.DeviceEventsLeaveATrapWaiting := by
  unfold Obligations.DeviceEventsLeaveATrapWaiting
  refine ⟨fun s t i => onlyViaOutput_of_exec, fun s t i w hagent hw h => ?_⟩
  cases hi : i.agent with
  | cpu =>
    obtain ⟨call, hcall⟩ := exec_cpu i hi
    rw [hcall, onThread_blocked hw] at h
    cases h
    exact hw
  | device => exact (congrArg State.trapWait (onlyViaOutput_of_exec hi h)).trans hw
  | operator => exact absurd hi hagent

end Sys2Proof.Machine
end

section
/-! SUPPORT. How many answers a call of the CPU can take: each answer goes on past one byte, and no call has more than four
(60_exceptions.md R292, 70_reset_and_hazards.md R332). -/

namespace Sys2Proof.Machine

/-- How many byte accesses a stopped call has after the one that trapped. -/
def Resume.bytesLeft : Resume → Nat
  | .hook => 0
  | .read _ _ rest => rest.length
  | .write rest => rest.length

/-- A call that has run to this state is over after at most `n` answers: if it waits, fewer than `n` bytes are left. -/
def State.OverAfter (s : State) (n : Nat) : Prop := ∀ w, s.trapWait = some w → w.resume.bytesLeft < n

variable {s t : State} {n : Nat}

theorem State.OverAfter.of_free (h : s.trapWait = none) : s.OverAfter n := by
  intro w hw
  cases h.symm.trans hw

theorem State.OverAfter.of_resume {w : TrapWait} (hw : s.trapWait = some w) (h : w.resume.bytesLeft < n) : s.OverAfter n := by
  intro w' hw'
  cases hw.symm.trans hw'
  exact h

theorem State.OverAfter.trapWait_eq_none (h : s.OverAfter 0) : s.trapWait = none :=
  Option.eq_none_iff_forall_ne_some.mpr fun w hw => Nat.not_lt_zero _ (h w hw)

/-! ### Calls -/

section Free

variable (hfree : s.trapWait = none)
include hfree

theorem trap_overAfter (label : TrapLabel) (addr : Long) {resume : Resume} (hleft : resume.bytesLeft < n) :
    (trap label addr resume s).2.OverAfter n := by
  unfold trap
  split
  · exact .of_free hfree
  · exact .of_resume rfl hleft

/-- A read takes at most one answer for each of its bytes. -/
theorem memRead_overAfter (w : Width) (addrs : List Long) (acc : Long) :
    (memRead w addrs acc s).OverAfter addrs.length := by
  induction addrs generalizing acc s with
  | nil => exact .of_free hfree
  | cons addr rest ih =>
    unfold memRead
    dsimp only
    split
    · next b hb =>
      have hrunning := (byteRead_running (Option.isSome_of_eq_some hb)).trans hfree
      have hrest := ih ((keeps_boundary (!rest.isEmpty) _).trapWait.trans hrunning) (shiftIn acc b)
      exact fun x hx => Nat.lt_succ_of_lt (hrest x hx)
    · next hb =>
      obtain ⟨x, -, hstate⟩ := byteRead_waits .hook hb
      exact .of_resume (congrArg State.trapWait hstate) (Nat.lt_succ_self _)

/-- A write takes at most one answer for each of its bytes. -/
theorem memWrite_overAfter (writes : List (Long × Byte)) : (memWrite writes s).OverAfter writes.length := by
  induction writes generalizing s with
  | nil => exact .of_free hfree
  | cons y rest ih =>
    unfold memWrite
    dsimp only
    split
    · next hb =>
      have hrunning := (byteWrite_running hb).trans hfree
      have hrest := ih ((keeps_boundary (!rest.isEmpty) _).trapWait.trans hrunning)
      exact fun x hx => Nat.lt_succ_of_lt (hrest x hx)
    · next hb =>
      obtain ⟨x, -, hstate⟩ := byteWrite_waits .hook (Bool.not_eq_true _ ▸ hb)
      exact .of_resume (congrArg State.trapWait hstate) (Nat.lt_succ_self _)

/-- A released call takes at most one answer for each of the bytes it has left. -/
theorem resumeCall_overAfter (resume : Resume) : (resumeCall resume s).OverAfter resume.bytesLeft := by
  cases resume with
  | hook => exact .of_free hfree
  | read w acc rest => exact memRead_overAfter ((keeps_boundary _ s).trapWait.trans hfree) w rest _
  | write rest => exact memWrite_overAfter ((keeps_boundary _ s).trapWait.trans hfree) rest

end Free

/-! ### The transactions of the CPU -/

theorem State.OverAfter.of_returnByte {r : Option Byte × State} (hr : r.2.OverAfter n) (h : returnByte r = .next t) :
    t.OverAfter n := by
  obtain ⟨⟨_, -, rfl⟩ | ⟨-, rfl⟩, -⟩ := returnByte_eq_next h
  · exact hr
  · exact hr

theorem State.OverAfter.of_returnDone {r : Bool × State} (hr : r.2.OverAfter n) (h : returnDone r = .next t) :
    t.OverAfter n := by
  obtain ⟨⟨-, rfl⟩ | ⟨-, rfl⟩, -⟩ := returnDone_eq_next h
  · exact hr
  · exact hr

section Transactions

variable (hready : s.Ready)
include hready

theorem overAfter_of_read {w : Width} {addrs : List Long} (hlen : addrs.length ≤ n)
    (h : onThread s (fun s => finish (memRead w addrs 0 s)) = .next t) : t.OverAfter n := by
  rw [onThread_of_ready hready] at h
  obtain ⟨rfl, -⟩ := finish_eq_next h
  exact fun x hx => (memRead_overAfter hready.1 w addrs 0 x hx).trans_le hlen

theorem overAfter_of_write {writes : List (Long × Byte)} (hlen : writes.length ≤ n)
    (h : onThread s (fun s => finish (memWrite writes s)) = .next t) : t.OverAfter n := by
  rw [onThread_of_ready hready] at h
  obtain ⟨rfl, -⟩ := finish_eq_next h
  exact fun x hx => (memWrite_overAfter hready.1 writes x hx).trans_le hlen

theorem overAfter_of_readRow {handler : State → Option Byte × State}
    (h : onThread s (fun s => returnByte (handler s)) = .next t) (hrow : (handler s).2.OverAfter n) : t.OverAfter n :=
  hrow.of_returnByte ((onThread_of_ready hready _).symm.trans h)

theorem overAfter_of_writeRow {handler : State → Bool × State}
    (h : onThread s (fun s => returnDone (handler s)) = .next t) (hrow : (handler s).2.OverAfter n) : t.OverAfter n :=
  hrow.of_returnDone ((onThread_of_ready hready _).symm.trans h)

theorem overAfter_of_hook {pc : Long} (h : exec (.hook pc) s = .next t) : t.OverAfter (n + 1) := by
  rw [exec_hook, onThread_of_ready hready] at h
  split at h
  · exact (trap_overAfter hready.1 .singleStep pc (resume := .hook) n.succ_pos).of_returnDone h
  · exact State.OverAfter.of_returnDone (r := (true, s)) (.of_free hready.1) h

/-- Every transaction of the CPU, by its handler: only the ABI calls have more than one byte. -/
theorem overAfter_of_exec {i : Instr} (hcpu : i.agent = .cpu) (h : exec i s = .next t) : t.OverAfter 4 := by
  have hfree : s.trapWait = none := hready.1
  cases i
  case rb | rw | rl => exact overAfter_of_read hready (Nat.le_of_ble_eq_true rfl) h
  case wb | ww | wl => exact overAfter_of_write hready (Nat.le_of_ble_eq_true rfl) h
  case sccRRd a | sccWRd a =>
    exact overAfter_of_readRow hready h (trap_overAfter (s := s.diag .sccAccess a) hfree _ _ (Nat.succ_pos 3))
  case sccRWr a v | sccWWr a v =>
    exact overAfter_of_writeRow hready h (trap_overAfter (s := s.diag .sccAccess a) hfree _ _ (Nat.succ_pos 3))
  case romOvlWr a v | romAliasWr a v =>
    exact overAfter_of_writeRow hready h (trap_overAfter (s := s.diag .romWrite a) hfree _ _ (Nat.succ_pos 3))
  case hook => exact overAfter_of_hook hready h
  case viaEdge1 | viaEdge2 | viaRxsr | answerStep | answerOther => cases hcpu
  case iwmRdSenseOnes | iwmRdSenseNib | iwmRd | romOvlRd | romAliasRd | ramRd =>
    exact overAfter_of_readRow hready h (.of_free hfree)
  case unmappedRd a =>
    exact overAfter_of_readRow hready (handler := fun s => always (unmappedRead a s)) h (.of_free hfree)
  case iwmWr a v =>
    exact overAfter_of_writeRow hready (handler := fun s => (true, iwmWrite (regIndex a) a v s)) h
      (.of_free ((handled_iwmWrite hready _ a v).wait.mpr rfl))
  case ramWr a v =>
    exact overAfter_of_writeRow hready (handler := fun s => (true, ramWrite a.toNat v s)) h (.of_free hfree)
  case unmappedWr a v =>
    exact overAfter_of_writeRow hready (handler := fun s => (true, unmappedWrite a s)) h (.of_free hfree)
  case viaWrOrb a v | viaWrOra a v | viaWrDdrb a v | viaWrDdra a v | viaWrT1cl a v | viaWrT1ch a v | viaWrT1ll a v |
    viaWrT1lh a v | viaWrT2cl a v | viaWrT2ch a v | viaWrSr a v | viaWrAcr a v | viaWrPcr a v | viaWrIfr a v | viaWrIer a v |
    viaWrOraAlias a v =>
    exact overAfter_of_writeRow hready (handler := fun s => (true, viaWrite _ a v s)) h
      (.of_free ((keeps_viaWrite _ a v s).trapWait.trans hfree))
  all_goals -- the sixteen VIA read rows
    exact overAfter_of_readRow hready (handler := fun s => always (viaRead _ s)) h
      (.of_free ((keeps_viaRead _ s).trapWait.trans hfree))

end Transactions

/-! ### Answers -/

/-- One answer brings a waiting call one byte further. -/
theorem exec_answer_overAfter (resp : Answer) (hquiet : s.consumers = .quiet) {w : TrapWait} (hw : s.trapWait = some w)
    (h : s.OverAfter (n + 1)) : ∃ t, exec resp.instr s = .next t ∧ t.consumers = .quiet ∧ t.OverAfter n := by
  obtain ⟨t, hexec, hevolves⟩ := exec_answer_evolves resp hquiet hw
  have ht : t = resumeCall w.resume (s.answered resp) := (finish_eq_next ((exec_answer resp hw).symm.trans hexec)).1
  refine ⟨t, hexec, hevolves.quiet hquiet, fun x hx => ?_⟩
  have hrest := resumeCall_overAfter (s := s.answered resp) rfl w.resume
  exact (hrest x (ht ▸ hx)).trans_le (Nat.le_of_lt_succ (h w hw))

/-- As many answers as a call can take end it. -/
theorem answerAll_ends (rs : List Answer) (hquiet : s.consumers = .quiet) (h : s.OverAfter rs.length) :
    ∃ t, answerAll rs (.next s) = .next t ∧ t.trapWait = none := by
  induction rs generalizing s with
  | nil => exact ⟨s, rfl, h.trapWait_eq_none⟩
  | cons r rs ih =>
    rw [answerAll]
    split
    · next hfree => exact ⟨s, rfl, hfree⟩
    · next hwaits =>
      obtain ⟨w, hw⟩ := Option.ne_none_iff_exists'.mp hwaits
      obtain ⟨t, hexec, htquiet, ht⟩ := exec_answer_overAfter r hquiet hw h
      rw [hexec]
      exact ih htquiet ht

/-- Settles O44: a call of the CPU answers a next state (O43), from which each answer passes one of at most four bytes. -/
theorem answeredCallsEnd : Obligations.AnsweredCallsEnd := by
  unfold Obligations.AnsweredCallsEnd
  intro s i r0 r1 r2 r3 hready hcpu
  obtain ⟨t, hexec, hquiet, -⟩ := noCallEndsInAnError s i hready hcpu
  rw [hexec]
  exact answerAll_ends [r0, r1, r2, r3] hquiet (overAfter_of_exec hready hcpu hexec)

end Sys2Proof.Machine
end

section
/-! SUPPORT. When bring-up answers a machine and when it refuses, for every configuration and every image. -/

namespace Sys2Proof.Machine

section Outcomes

variable {cfg : Config} {image : List Byte}

theorem bringUp_eq_badConfig (hcfg : cfg.wf = false) : bringUp cfg image = .error .badConfig := by
  rw [bringUp, if_pos hcfg]

theorem bringUp_eq_wrongSizedRom (hcfg : cfg.wf = true) (hlen : image.length ≠ cfg.romSize) :
    bringUp cfg image = .error .wrongSizedRom := by
  rw [bringUp, if_neg (by simp [hcfg]), if_neg hlen]

/-- A machine is constructed exactly from a good configuration and an image of `ROM_SIZE` bytes (70_reset_and_hazards.md R321). -/
theorem bringUp_eq_ok_iff {s : State} : bringUp cfg image = .ok s ↔
    cfg.wf = true ∧ image.length = cfg.romSize ∧ State.afterBringUp cfg image = s := by
  cases hcfg : cfg.wf with
  | false => simp [bringUp_eq_badConfig hcfg]
  | true =>
    by_cases hlen : image.length = cfg.romSize
    · simp [bringUp_eq_ok hcfg hlen, hlen]
    · simp [bringUp_eq_wrongSizedRom hcfg hlen, hlen]

/-- The ROM after bring-up is the image, byte for byte. -/
theorem afterBringUp_rom_read (k : Nat) (h : k < image.length) : (State.afterBringUp cfg image).rom.read k = image[k] := by
  have hread := Memory.read_ofBytes 0 image k h
  rwa [Nat.zero_add] at hread

theorem afterBringUp_ora : (State.afterBringUp cfg image).via.get 1 = cfg.viaOraInit :=
  (Via.get_init cfg 1).trans (if_pos rfl)

end Outcomes

/-- Settles O2: each clause is the equation of `bringUp` for one outcome of its two checks. -/
theorem bringUpNeedsAGoodConfigAndARightSizedImage : Obligations.BringUpNeedsAGoodConfigAndARightSizedImage := by
  unfold Obligations.BringUpNeedsAGoodConfigAndARightSizedImage
  refine fun cfg image => ⟨fun ⟨hcfg, hlen⟩ => ?built, bringUp_eq_badConfig,
    fun ⟨hcfg, hlen⟩ => bringUp_eq_wrongSizedRom hcfg hlen⟩
  case built =>
    exact ⟨State.afterBringUp cfg image, bringUp_eq_ok hcfg hlen, rfl, rfl, afterBringUp_ora, Memory.read_nil,
      afterBringUp_rom_read, rfl⟩

/-- Settles O52: a constructed machine passed both checks, so its configuration is good and its ROM of the right size. -/
theorem bringUpMeetsTheInvariant : Obligations.BringUpMeetsTheInvariant := by
  unfold Obligations.BringUpMeetsTheInvariant
  intro cfg image s h
  obtain ⟨hcfg, hlen, rfl⟩ := bringUp_eq_ok_iff.mp h
  exact afterBringUp_inv hcfg hlen.le

end Sys2Proof.Machine
end

section
/-! SUPPORT. An operator's answer when no trap waits (93_implementation_defined.md U20). -/

namespace Sys2Proof.Machine

/-- The counterpart of `exec_answer`: with no trap waiting, an answer is no transaction. -/
theorem exec_answer_of_free {s : State} (resp : Answer) (hfree : s.trapWait = none) :
    exec resp.instr s = .refused .noTrapWaiting := by
  have hanswer : exec resp.instr s = answer resp s := by cases resp <;> rfl
  rw [hanswer, answer, hfree]

/-- Settles O48: both answers are refused for the same reason. -/
theorem answersNeedAWaitingTrap : Obligations.AnswersNeedAWaitingTrap := by
  unfold Obligations.AnswersNeedAWaitingTrap
  exact fun s hfree => ⟨exec_answer_of_free .step hfree, exec_answer_of_free .other hfree⟩

end Sys2Proof.Machine
end
